-- ==== Sys2Proof/Word.lean ====
section
/-! DEFINITION. The widths of the block: bytes, nibbles, ROM bit indices, 16-bit operand registers
(spec/00_scope.md section 5, spec/10_state.md R20 and R36). -/

namespace Sys2Proof

/-- A byte: eight bits, bit 0 the least significant (spec/00_scope.md section 5). -/
abbrev Byte := BitVec 8

/-- Four bits: a configuration nibble (R34) or a cause code (R27). -/
abbrev Nibble := BitVec 4

/-- A ROM bit index, seven bits, 1..64 with 0 for none (R23, R31). -/
abbrev BitIndex := BitVec 7

/-- A 16-bit operand register of the CRC unit (R36), and the width of host-port data. -/
abbrev Half := BitVec 16

end Sys2Proof
end

