-- ==== Sys2Proof/Config.lean ====
section
/-! DEFINITION. What does not change while the machine runs: the constants the document fixes (spec/00_scope.md
R11), the parameters it leaves open (R12), and the free values (spec/93_implementation_defined.md), which have no
body, so that nothing can be proved of a particular one. -/

namespace Sys2Proof

namespace Config

/-- `MAX_POLL_ATTEMPTS` (R11): status reads per PollLoop. -/
def maxPollAttempts : Nat := 16

/-- `ROM_BITS` (R11): triplets per search, bit indices 1..64. -/
def romBits : BitIndex := 64

/-- `FAMILY_BITS` (R11): bit indices 1..8 are the family code. -/
def familyBits : BitIndex := 8

/-- `CMD_SEARCH` (R11, R83). -/
def cmdSearch : Byte := 0xF0

/-- `CMD_ALARM_SEARCH` (R11, R83). -/
def cmdAlarmSearch : Byte := 0xEC

/-- `BLOCK_SENTINEL` (R11, R124): the read-position marker of transferBlock. -/
def blockSentinel : Byte := 0xFF

/-- `CRC_REFLECTED_CONST` (R12, R180): X^8+X^5+X^4+1 bit-reflected. -/
def crcReflected : Byte := 0x8C

/-- `ADDRESS_BITS` (R12). -/
def addressBits : Nat := 7

end Config

/-- What the Byte Channel does with one access (R107, R246): it completes (with the byte read, for a read), it
reports an I/O failure, or it never returns. -/
inductive ChanAnswer where
  | done (b : Byte)
  | ioError
  | never
deriving DecidableEq, Repr, Inhabited

/-- Where the bridge's read pointer stands (R35): at the status, configuration or Read-Data register, at the channel
register after a channel select (R104), or at whatever another selector byte names. -/
inductive ReadPointer where
  | status
  | config
  | readData
  | channel
  | other (selector : Byte)
deriving DecidableEq, Repr, Inhabited

/-- `CONFIG_BIT_POSITIONS` (R85): the bit number of each of the four named configuration bits. -/
structure ConfigBits where
  activePullup : Fin 4
  presencePulseMasking : Fin 4
  strongPullup : Fin 4
  busSpeed : Fin 4
deriving DecidableEq, Repr

/-- An entry of `CHANNEL_TABLE` (R80, R104). -/
structure ChannelEntry where
  selectByte : Byte
  echo : Byte
deriving DecidableEq, Repr

/-- The open parameters of R12. They stand in State, unchanged by every step, because the machine's interface has no
arguments (log 12). -/
structure Params where
  /-- `BUF_SIZE` -/
  bufSize : Nat
  /-- `BRIDGE_ADDRESS` -/
  bridgeAddress : BitVec 7
  /-- `BUS_ID` -/
  busId : Nat
  /-- `CLOCK_SPEED` -/
  clockSpeed : Nat
  /-- `CHANNEL_TABLE[1..7]` -/
  channelTable : Vector ChannelEntry 7
  /-- `SINGLE_BIT_ENCODE(0)` -/
  singleBitZero : Byte
  /-- `SINGLE_BIT_ENCODE(1)` -/
  singleBitOne : Byte
  /-- `READ_DATA_POINTER_CODE` -/
  readDataCode : Byte
  /-- `CONFIG_BIT_POSITIONS` -/
  configBits : ConfigBits
deriving DecidableEq, Repr

namespace Config

/-- The parameter values of the state after reset. The channel table, the single-bit bytes, the selector and the
configuration bit order are the defaults of R78, R79, R80 and R85 (PRESUMED: the DS2482 family, log 13); the rest is
named in log 12. No statement rests on them. -/
def defaultParams : Params where
  bufSize := 65536
  bridgeAddress := 0x18
  busId := 0
  clockSpeed := 0
  channelTable := #v[⟨0xE1, 0xB1⟩, ⟨0xD2, 0xAA⟩, ⟨0xC3, 0xA3⟩, ⟨0xB4, 0x9C⟩, ⟨0xA5, 0x95⟩, ⟨0x96, 0x8E⟩, ⟨0x87, 0x87⟩]
  singleBitZero := 0x00
  singleBitOne := 0x80
  readDataCode := 0xE1
  configBits := ⟨0, 1, 2, 3⟩

/-! The free values. Each is applied to a counter of State, or to an index, and has no body. The block and the adapter
draw from sources of their own, and no number is used twice in a run, so no two draws of a run can be proved equal
(DESIGN CHOICE, log 37). -/

/-- The answer of the environment to a channel access once the script is empty (U5, log 2). -/
opaque freeAnswer : Nat → ChanAnswer

/-- `draw(byte)` of the block: a read of a write-only or unlisted host register (R36), `ROM` at reset (R38). -/
opaque freeByte : Nat → Byte

/-- `draw(byte)` of the adapter: readByte after a timeout (R123, R125), and the Read-Data register while no rule says what
it holds (R35, U7; log 16, log 38). -/
opaque freeLinkByte : Nat → Byte

/-- BridgeConfig after a device reset (U7, log 16). -/
opaque freeNibble : Nat → Nibble

/-- The selected channel after a device reset (U7, log 16), or a channel select whose echo has not been seen
(log 18). -/
opaque freeChannel : Nat → BitVec 3

/-- The read pointer after a failed command write (log 36). -/
opaque freePointer : Nat → ReadPointer

/-- Whether BridgeConfig is as a command write that failed or never returned would have left it (log 36). -/
opaque freeTaken : Nat → Bool

/-- Whether an open Byte Channel is still open after a close that failed (log 27). -/
opaque freeOpen : Nat → Bool

/-- What index `k` of `BUF` holds before it is first written, for the contents drawn at the reset numbered `epoch`
(R38, U2, log 10). -/
opaque unwrittenByte (epoch k : Nat) : Byte

end Config

end Sys2Proof
end

