-- ==== Sys2Proof/Syntax.lean ====
section
/-! DEFINITION. The commands of spec/opcode_table.json, one constructor a row, in the table's order. A BRIDGE command
of the two-byte form carries its parameter byte as it is written (R74). -/

namespace Sys2Proof

/-- The three encoding spaces of R70. -/
inductive Space where
  | host
  | bridge
  | romCmd
deriving DecidableEq, Repr

/-- A HOST command (R72), a BRIDGE command (R75) or a 1-Wire ROM command (R83). -/
inductive Instr where
  /-- `CRC.FOLD` (R183, R190) -/
  | crcFold
  /-- `CRC.COMPUTE` (R184, R190) -/
  | crcCompute
  /-- `SRCH.BEGIN` (R140) -/
  | srchBegin
  /-- `SRCH.SEARCH a` (R142), `a` selecting the alarm variant -/
  | srchSearch (a : Bool)
  /-- `SRCH.CONT` (R141), another name of `SRCH.SEARCH 0` (R89) -/
  | srchCont
  /-- `EXCL.BEGIN` (R210) -/
  | exclBegin
  /-- `EXCL.END` (R210) -/
  | exclEnd
  /-- `BR.DRST`, device reset (R102) -/
  | brDrst
  /-- `BR.SRP`, set read pointer to the register selected by `p` (R79, R123 phase 2) -/
  | brSrp (p : Byte)
  /-- `BR.WCFG`, write configuration byte `p` (R76, R103) -/
  | brWcfg (p : Byte)
  /-- `BR.CHSL`, channel select byte `p` (R80, R104) -/
  | brChsl (p : Byte)
  /-- `BR.1WRS`, 1-Wire reset (R120) -/
  | br1wrs
  /-- `BR.1WSB`, 1-Wire single bit, the bit encoded in `p` (R78, R121) -/
  | br1wsb (p : Byte)
  /-- `BR.1WWB`, 1-Wire write of byte `p` (R81, R122) -/
  | br1wwb (p : Byte)
  /-- `BR.1WRB`, 1-Wire read byte (R123 phase 1) -/
  | br1wrb
  /-- `BR.1WT`, 1-Wire triplet, the direction replicated in `p` (R77, R105) -/
  | br1wt (p : Byte)
  /-- `ROM.SEARCH` (R83, R144) -/
  | romSearch
  /-- `ROM.ALARM` (R83, R144) -/
  | romAlarm
  /-- `ROM.MATCH` (R83) -/
  | romMatch
  /-- `ROM.SKIP` (R83) -/
  | romSkip
  /-- `ROM.READ` (R83) -/
  | romRead
deriving DecidableEq, Repr

/-- The core instruction a name stands for: `SRCH.CONT` is `SRCH.SEARCH 0` (R89); every other is itself. -/
def Instr.core : Instr → Instr
  | .srchCont => .srchSearch false
  | .crcFold => .crcFold
  | .crcCompute => .crcCompute
  | .srchBegin => .srchBegin
  | .srchSearch a => .srchSearch a
  | .exclBegin => .exclBegin
  | .exclEnd => .exclEnd
  | .brDrst => .brDrst
  | .brSrp p => .brSrp p
  | .brWcfg p => .brWcfg p
  | .brChsl p => .brChsl p
  | .br1wrs => .br1wrs
  | .br1wsb p => .br1wsb p
  | .br1wwb p => .br1wwb p
  | .br1wrb => .br1wrb
  | .br1wt p => .br1wt p
  | .romSearch => .romSearch
  | .romAlarm => .romAlarm
  | .romMatch => .romMatch
  | .romSkip => .romSkip
  | .romRead => .romRead

end Sys2Proof
end

