-- ==== Sys2Proof/Machine/State.lean ====
section
/-! DEFINITION. The state of one OWSC block instance (spec/10_state.md R20), of the link adapter and the bridge
registers that rules read (R32 to R35), and the model's own fields (INVENTORY.md, State). -/

namespace Sys2Proof.Machine

/-- The sequencer phase (R31). -/
inductive Phase where
  | idle
  | sReset
  | sCmd
  | sBit
  | sCheck
deriving DecidableEq, Repr

/-- The registers of the bridge that the spec names (R33, R34, R35, R212). -/
structure Bridge where
  /-- BridgeStatus: the byte the last status read returned (R33). -/
  status : Byte
  /-- BridgeConfig (R34). -/
  config : Nibble
  /-- The Read-Data register (R35): free once a byte was received, as fetched after that (log 38). -/
  readData : Byte
  /-- The read pointer (R35). -/
  pointer : ReadPointer
  /-- The selected 1-Wire channel (R104, R212). -/
  channel : BitVec 3
deriving DecidableEq, Repr

/-- One access of the Byte Channel (R107). -/
inductive ChanAccess where
  | opened (busId : Nat) (address : BitVec 7) (addressBits clockSpeed : Nat)
  | write (bytes : List Byte)
  | read
  | closed
deriving DecidableEq, Repr

/-- The answer of `busReset` (R120). -/
inductive BusResetResult where
  | presenceDetected
  | shortDetected
  | noPresence
deriving DecidableEq, Repr

/-- `ResetOutcome` (R102). -/
inductive ResetOutcome where
  | pollTimeout
  | busFault
  | ok (resetPerformed : Bool)
deriving DecidableEq, Repr

/-- The causes of R200. -/
inductive Cause where
  | none
  | busFault
  | noPresence
  | noResponse
  | pollTimeout
  | channelMismatch
  | integrityFailure
  | transportError
  | malformedInput
  | enumerationDone
  | allZeroRom
  | illegalCommand
deriving DecidableEq, Repr

/-- What an adapter operation returned to the layer that called it (R102 to R105, R120 to R124), or the hard error it
ended in (R207). -/
inductive AdapterResult where
  /-- no operation has been called yet -/
  | nothing
  /-- the operation completed and returns nothing (R122, R124; phase 1 of R123) -/
  | done
  | reset (r : ResetOutcome)
  | bus (r : BusResetResult)
  | bit (b : Bool)
  | byte (b : Byte)
  | bool (b : Bool)
  | hardError (c : Cause)
deriving DecidableEq, Repr

/-- The far side of the link port: parameters, Byte Channel, bridge registers, and the results given to the layer that
owns the adapter. -/
structure Adapter where
  /-- The open parameters (R12, log 12). -/
  cfg : Params
  /-- Whether the Byte Channel is open (R232 (1), log 27). -/
  chanOpen : Bool
  /-- The environment's next channel answers, next first (log 2). -/
  script : List ChanAnswer
  /-- How many free values the adapter has drawn (log 2). -/
  draws : Nat
  /-- The channel accesses made so far, newest first (log 28). -/
  chanLog : List ChanAccess
  /-- The bridge's registers. -/
  bridge : Bridge
  /-- The result of the last operation the adapter's owner called (log 28). -/
  result : AdapterResult
  /-- The caller's buffer of the last transferBlock (R124, R66, log 26). -/
  block : List Byte
deriving DecidableEq, Repr

/-- One request at the link port with its answer (R126); no answer where the request ended in a hard error or never
returned (log 28). -/
inductive LinkEvent where
  | busReset (answer : Option BusResetResult)
  | writeByte (b : Byte) (completed : Bool)
  | triplet (d : Bool) (status : Option Byte)
deriving DecidableEq, Repr

/-- A call of an adapter operation by the layer that owns the adapter (R88, R107). -/
inductive AdapterCall where
  | resetBridge
  | writeConfig (nibble : Nibble)
  | selectChannel (channel : Int)
  | triplet (d : Bool)
  | busReset
  | writeBit (b : Bool)
  | touchBit (b : Bool)
  | writeByte (v : Byte)
  | readByte
  | transferBlock (buffer : List Byte) (offset length : Nat)
  | openChannel
  | closeChannel
deriving DecidableEq, Repr

/-- What may be asked of the machine from outside (log 3): a host-port transaction (R88), a bridge command, a ROM
command byte or an adapter operation from the adapter's owner, or a reset of the block (R230). -/
inductive Request where
  | regWrite (n : Byte) (v : Half)
  | regRead (n : Byte)
  | bufWrite (k : Nat) (v : Byte)
  | bufRead (k : Nat)
  | bridge (bytes : List Byte)
  | romCmd (b : Byte)
  | call (op : AdapterCall)
  | blockReset
deriving DecidableEq, Repr

/-- A memory as the list of its written cells, addresses strictly rising. -/
abbrev Memory := List Host.Cell

/-- Why a step stops. -/
inductive Fault where
  /-- Raised by step: a Byte Channel call never returned, the block hangs for good (R246, U14; log 25). Safe. -/
  | channelHung
  /-- Raised by a WB or RB request at an index outside `BUF`, which has no such byte (R50; log 23). Safe. -/
  | bufIndexOutside (k : Nat)
deriving DecidableEq, Repr

/-- Why a step gives no meaning. -/
inductive Refusal where
  /-- Raised by exec for an instruction that has no meaning yet. Safe. -/
  | notModelled (mnemonic : String)
  /-- Raised by the fetch of a bridge command whose opcode is none of the nine: "a model of the bridge must refuse
  them" (R82; log 22). Safe. -/
  | unlistedOpcode (b : Byte)
  /-- Raised by the fetch of a bridge command that is empty, lacks its parameter or has bytes too many (R74; log 22).
  Safe. -/
  | malformedBridgeCommand
  /-- Raised by the fetch of a ROM command byte that is none of the five (R83; log 22). Safe. -/
  | unknownRomCommand (b : Byte)
deriving DecidableEq, Repr

/-- The state of the machine. -/
structure State where
  /-- `ROM[0..7]`, currentRom (R21, R22). -/
  rom : Vector Byte 8
  /-- `LD`, lastDiscrepancy (R23). -/
  ld : BitIndex
  /-- `LFD`, lastFamilyDiscrepancy (R24). -/
  lfd : BitIndex
  /-- `LDF`, lastDeviceFlag (R25). -/
  ldf : Bool
  /-- `FOUND` (R27). -/
  found : Bool
  /-- `CAUSE` (R27, R200). -/
  cause : Nibble
  /-- `EXCL` (R28). -/
  excl : Bool
  /-- `CSEED` (R30). -/
  cseed : Byte
  /-- `CDATA` (R30). -/
  cdata : Byte
  /-- `CRES` (R30). -/
  cres : Byte
  /-- `BOFF` (R30). -/
  boff : Half
  /-- `BLEN` (R30). -/
  blen : Half
  /-- `BUF` (R30, R50): the cells written so far. -/
  buf : Memory
  /-- Which reset drew the contents of the unwritten cells of `BUF` (R38, log 10). -/
  bufEpoch : Nat
  /-- The sequencer phase (R31). -/
  phase : Phase
  /-- The ROM bit index of the triplet in progress (R31); zero outside a search, "not kept" after an abort (R200,
  log 32). -/
  i : BitIndex
  /-- The highest index so far resolved to 0 (R31). -/
  lastZero : BitIndex
  /-- The provisional direction (R31). -/
  dir : Bool
  /-- The alarmOnly argument of this search (R31). -/
  alarm : Bool
  /-- The far side of the link port. -/
  adapter : Adapter
  /-- Link-port requests with their answers, newest first (log 28). -/
  linkLog : List LinkEvent
  /-- Values read by RD and RB, newest first (log 28). -/
  hostOut : List Half
  /-- Pending requests from outside, next first (log 3). -/
  requests : List Request
  /-- How many free values the block's host port has drawn (log 24). -/
  draws : Nat
  /-- A Byte Channel call never returned (R246, log 25). -/
  hung : Bool
  /-- A search since reset or the last `SRCH.BEGIN` ended in a hard error (R161, R37, log 5). -/
  faulted : Bool
deriving DecidableEq, Repr

/-- The bridge's registers at reset: nothing in the spec (R38), the DS2482 family's values (PRESUMED, log 11). -/
def Bridge.reset : Bridge where
  status := 0x18
  config := 0
  readData := 0
  pointer := .status
  channel := 0

/-- The adapter at reset, for any parameters. -/
def Adapter.resetFrom (cfg : Params) : Adapter where
  cfg := cfg
  chanOpen := true
  script := []
  draws := 0
  chanLog := []
  bridge := Bridge.reset
  result := .nothing
  block := []

/-- The state after reset (R38, R230) for any draw of `ROM`, any numbering of the draw of `BUF` and any state of the
adapter, which the reset of the block does not touch. -/
def State.resetFrom (rom : Vector Byte 8) (bufEpoch : Nat) (adapter : Adapter) : State where
  rom := rom
  ld := 0
  lfd := 0
  ldf := false
  found := false
  cause := 0
  excl := false
  cseed := 0
  cdata := 0
  cres := 0
  boff := 0
  blen := 0
  buf := []
  bufEpoch := bufEpoch
  phase := .idle
  i := 0
  lastZero := 0
  dir := false
  alarm := false
  adapter := adapter
  linkLog := []
  hostOut := []
  requests := []
  draws := 0
  hung := false
  faulted := false

/-- The state after reset. `ROM` is zero here by choice (log 9); statements about reset are made of
`State.resetFrom`, for every draw. -/
def State.reset : State :=
  State.resetFrom #v[0, 0, 0, 0, 0, 0, 0, 0] 0 (Adapter.resetFrom Config.defaultParams)

end Sys2Proof.Machine
end

