-- ==== Sys2Proof/Machine/Flags.lean ====
section
/-! DEFINITION. The flags: the eight bits of the status byte (R84), the classifications the adapter makes of it
(R102, R120), the cause codes (R200) and the configuration bits by name (R85). -/

namespace Sys2Proof.Machine

/-- `1WB`, busy: bit 0 (R84). -/
def busy (s : Byte) : Bool := s.getLsbD 0

/-- `PPD`, presencePulseDetected: bit 1 (R84). -/
def presencePulse (s : Byte) : Bool := s.getLsbD 1

/-- `SD`, shortDetected: bit 2 (R84). -/
def shortFlag (s : Byte) : Bool := s.getLsbD 2

/-- `LL`, logicLevel: bit 3 (R84). No rule reads it. -/
def logicLevel (s : Byte) : Bool := s.getLsbD 3

/-- `RST`, resetPerformed: bit 4 (R84). -/
def resetPerformed (s : Byte) : Bool := s.getLsbD 4

/-- `SBR`, singleBitResult: bit 5 (R84); the id bit of a triplet (R147). -/
def idBit (s : Byte) : Bool := s.getLsbD 5

/-- `TSB`, tripletSecondBit: bit 6 (R84); the cmp bit of a triplet (R147). -/
def cmpBit (s : Byte) : Bool := s.getLsbD 6

/-- `DIR`, directionTaken: bit 7 (R84, R147). -/
def taken (s : Byte) : Bool := s.getLsbD 7

/-- The classification of busReset: `PPD` first, then `SD` (R120, R204 (a)). -/
def classifyBusReset (s : Byte) : BusResetResult :=
  if presencePulse s then .presenceDetected
  else if shortFlag s then .shortDetected
  else .noPresence

/-- The classification of resetBridge: `SD` before `RST` (R102, R204 (b)). -/
def classifyReset (s : Byte) : ResetOutcome :=
  if shortFlag s then .busFault else .ok (resetPerformed s)

/-- The numeric codes of `CAUSE` (R200). -/
def Cause.code : Cause → Nibble
  | .none => 0x0
  | .busFault => 0x1
  | .noPresence => 0x2
  | .noResponse => 0x3
  | .pollTimeout => 0x4
  | .channelMismatch => 0x5
  | .integrityFailure => 0x6
  | .transportError => 0x7
  | .malformedInput => 0x8
  | .enumerationDone => 0x9
  | .allZeroRom => 0xA
  | .illegalCommand => 0xB

/-- Active pull-up, a bit of BridgeConfig at its `CONFIG_BIT_POSITIONS` place (R34, R85). -/
def activePullup (cfg : Params) (b : Bridge) : Bool := b.config.getLsbD cfg.configBits.activePullup

/-- Presence-pulse masking (R34, R85). -/
def presencePulseMasking (cfg : Params) (b : Bridge) : Bool := b.config.getLsbD cfg.configBits.presencePulseMasking

/-- Strong pull-up (R34, R85). -/
def strongPullup (cfg : Params) (b : Bridge) : Bool := b.config.getLsbD cfg.configBits.strongPullup

/-- Bus speed (R34, R85). -/
def busSpeed (cfg : Params) (b : Bridge) : Bool := b.config.getLsbD cfg.configBits.busSpeed

end Sys2Proof.Machine
end

