-- ==== Sys2Proof/Machine/Operands.lean ====
section
/-! DEFINITION. Operand assembly of the bridge commands (R76 to R81, collected in R87), and the lookups back from a
parameter byte. -/

namespace Sys2Proof.Machine

/-- The parameter of `BR.WCFG` (R76): the nibble below, its complement above. -/
def encodeConfig (nibble : Nibble) : Byte := (~~~nibble) ++ nibble

/-- Whether a configuration byte carries the complement of its low nibble in its high nibble (R34, R82). -/
def configAccepted (p : Byte) : Bool := p.extractLsb' 4 4 == ~~~(p.extractLsb' 0 4)

/-- The parameter of `BR.1WT` (R77): the direction replicated. -/
def encodeDirection (d : Bool) : Byte := if d then 0xFF else 0x00

/-- `SINGLE_BIT_ENCODE` (R78). -/
def encodeSingleBit (cfg : Params) (bit : Bool) : Byte := if bit then cfg.singleBitOne else cfg.singleBitZero

/-- Entry 0 of `CHANNEL_TABLE`, fixed by the source (R12, R80). -/
def channelEntryZero : ChannelEntry := ⟨0xF0, 0xB8⟩

/-- `CHANNEL_TABLE`, entries 0 to 7 (R80). -/
def channelEntries (cfg : Params) : List ChannelEntry := channelEntryZero :: cfg.channelTable.toList

/-- Entry `ch` of `CHANNEL_TABLE`; none outside 0..7 (R80, R104). -/
def channelEntry (cfg : Params) (ch : Int) : Option ChannelEntry :=
  if ch < 0 ∨ 7 < ch then none else (channelEntries cfg)[ch.toNat]?

/-- The first channel whose select byte is `p`, with its echo byte. -/
def channelOfSelect (cfg : Params) (p : Byte) : Option (BitVec 3 × Byte) :=
  ((channelEntries cfg).zipIdx.find? fun e => e.1.selectByte == p).map fun e => (BitVec.ofNat 3 e.2, e.1.echo)

/-- The ROM command byte of search step 3 (R144). -/
def searchCommandByte (alarm : Bool) : Byte := if alarm then Config.cmdAlarmSearch else Config.cmdSearch

end Sys2Proof.Machine
end

