-- ==== Sys2Proof/Machine/Ops.lean ====
section
/-! DEFINITION. The shared operations: ROM bits (R51), `BUF` as a memory (R50), the CRC function (R180 to R187), one
Byte Channel access (R107), session reset and the entry on a failure (R155, R205, R207). -/

namespace Sys2Proof.Machine

/-! ROM bits (R51). -/

/-- `byteOf(i)` (R51). -/
def byteOf (i : BitIndex) : Nat := ((i - 1) >>> 3).toNat

/-- `maskOf(i)` (R51). -/
def maskOf (i : BitIndex) : Byte := 1#8 <<< ((i - 1) &&& 7).toNat

/-- `ROM[k]`. -/
def romByte (rom : Vector Byte 8) (k : Nat) : Byte := rom.toList.getD k 0

/-- `getBit(i)` (R51). -/
def getBit (rom : Vector Byte 8) (i : BitIndex) : Bool := (romByte rom (byteOf i) &&& maskOf i) != 0

/-- `setBit(i, v)` (R51). -/
def setBit (rom : Vector Byte 8) (i : BitIndex) (v : Bool) : Vector Byte 8 :=
  rom.setIfInBounds (byteOf i)
    (if v then romByte rom (byteOf i) ||| maskOf i else romByte rom (byteOf i) &&& ~~~(maskOf i))

/-- All eight bytes are zero (R152). -/
def romAllZero (rom : Vector Byte 8) : Bool := rom.toList.all (· == 0)

/-! `BUF` (R50). A cell that was never written lists nothing; what it holds is the byte drawn for it at reset (R38, U2,
log 10). -/

/-- What the list says of index `k`: the written byte, or nothing. -/
def Memory.cell? : Memory → Nat → Option Byte
  | [], _ => none
  | (a, b) :: m, k => if a = k then some b else Memory.cell? m k

/-- The byte at index `k`. -/
def Memory.read (epoch : Nat) (m : Memory) (k : Nat) : Byte := (m.cell? k).getD (Config.unwrittenByte epoch k)

/-- A write of one byte, keeping the addresses rising. -/
def Memory.write : Memory → Nat → Byte → Memory
  | [], k, v => [(k, v)]
  | (a, b) :: m, k, v =>
    if k < a then (k, v) :: (a, b) :: m
    else if k = a then (k, v) :: m
    else (a, b) :: Memory.write m k v

/-- The canonical form: addresses strictly rising, all inside the space. An unlisted address reads as no value of the
list, so no listed entry can equal it. -/
abbrev Memory.wf (size : Nat) (m : Memory) : Prop :=
  m.Pairwise (fun x y => x.1 < y.1) ∧ ∀ c ∈ m, c.1 < size

/-- `BUF[k]`. -/
def State.bufByte (s : State) (k : Nat) : Byte := s.buf.read s.bufEpoch k

/-- `BUF[offset..offset+length)`. -/
def State.bufRange (s : State) (offset length : Nat) : List Byte :=
  (List.range length).map fun j => s.bufByte (offset + j)

/-! The CRC function (spec/43_crc8.md). -/

/-- One shift of the reflected register (R181). -/
def crcShift (r : Byte) : Byte := if r.getLsbD 0 then (r >>> 1) ^^^ Config.crcReflected else r >>> 1

/-- `n` shifts. -/
def crcShifts : Nat → Byte → Byte
  | 0, r => r
  | n + 1, r => crcShifts n (crcShift r)

/-- Entry `n` of the table by the construction of R181. -/
def tableEntry (n : Byte) : Byte := crcShifts 8 n

/-- `TABLE[0..255]` (R29, R181, R182). -/
def crcTable : List Byte := (List.range 256).map fun n => tableEntry (BitVec.ofNat 8 n)

/-- `fold(seed, byte)` (R183). -/
def fold (seed byte : Byte) : Byte := crcTable.getD (seed ^^^ byte).toNat 0

/-- Folding bytes in ascending index order (R184). -/
def foldBytes (seed : Byte) (bytes : List Byte) : Byte := bytes.foldl fold seed

/-- `compute(buffer, offset, length, seed)`; none is `MalformedInput` (R184). -/
def compute (buffer : List Byte) (offset length : Nat) (seed : Byte) : Option Byte :=
  if buffer.length < offset + length then none else some (foldBytes seed ((buffer.drop offset).take length))

/-- `crc8(x)` (R185, R89). -/
def crc8 (bytes : List Byte) : Byte := foldBytes 0 bytes

/-- One bit of the bit-serial form (R187). -/
def serialStep (c : Byte) (b : Bool) : Byte :=
  if c.getLsbD 0 ^^ b then (c >>> 1) ^^^ Config.crcReflected else c >>> 1

/-- `foldSerial(seed, byte)` (R187): the bits of `byte` enter least significant first. -/
def foldSerial (seed byte : Byte) : Byte :=
  (List.range 8).foldl (fun c k => serialStep c (byte.getLsbD k)) seed

/-- The check of search step 5: the CRC over bytes 0 to 6 equals byte 7 (R151, R189). -/
def romCrcOk (rom : Vector Byte 8) : Bool := compute rom.toList 0 7 0 == some (romByte rom 7)

/-! Results of operations that may end in a hard error or never return. -/

/-- An operation completed with a value, was ended by a `TransportError` (R107), or never returned (R246); `s` is what
the operation left behind. -/
inductive Res (σ α : Type) where
  | ok (v : α) (s : σ)
  | raised (s : σ)
  | hung (s : σ)
deriving Repr

/-- Going on after completion; a hard error "ends the operation in progress, and every operation that called it"
(R207). -/
def Res.bind {σ α β : Type} (r : Res σ α) (f : α → σ → Res σ β) : Res σ β :=
  match r with
  | .ok v s => f v s
  | .raised s => .raised s
  | .hung s => .hung s

/-- What the operation left behind, however it ended. -/
def Res.after {σ α : Type} : Res σ α → σ
  | .ok _ s => s
  | .raised s => s
  | .hung s => s

/-! The Byte Channel (R107). -/

/-- The environment's next answer: the next of the script, else a free one (U5, log 2). -/
def Adapter.nextAnswer (a : Adapter) : ChanAnswer × Adapter :=
  match a.script with
  | x :: rest => (x, { a with script := rest })
  | [] => (Config.freeAnswer a.draws, { a with draws := a.draws + 1 })

/-- One call of the Byte Channel, recorded and answered (R107). -/
def Adapter.call (acc : ChanAccess) (a : Adapter) : Res Adapter Byte :=
  match a.nextAnswer with
  | (.done b, a') => .ok b { a' with chanLog := acc :: a'.chanLog }
  | (.ioError, a') => .raised { a' with chanLog := acc :: a'.chanLog }
  | (.never, a') => .hung { a' with chanLog := acc :: a'.chanLog }

/-- An access of a channel that is not open is a `TransportError` (R232 (1), DEDUCED, log 27). -/
def Adapter.access (acc : ChanAccess) (a : Adapter) : Res Adapter Byte :=
  if a.chanOpen then a.call acc else .raised a

/-- The bridge's registers after a device reset, "any value" (U7), `n` numbering the free values; the read pointer stands
at the status register (log 16). BridgeStatus is the byte last read (R33) and stays. -/
def Bridge.afterDeviceReset (n : Nat) (b : Bridge) : Bridge :=
  { b with
    pointer := .status, config := Config.freeNibble n, readData := Config.freeLinkByte n, channel := Config.freeChannel n }

/-- The bridge's registers after a command write, `n` numbering the free values: the read pointer (R35, R101, D20,
log 17), an accepted configuration (R34, R82, log 15), the byte a 1-Wire read received (R35, log 38), the channel before
its echo is seen (log 18), and the registers a device reset leaves open (U7, log 16). -/
def Bridge.afterWrite (cfg : Params) (n : Nat) (bytes : List Byte) (b : Bridge) : Bridge :=
  match bytes with
  | [op] =>
    if op = 0xF0 then b.afterDeviceReset n
    else if op = 0x96 then { b with pointer := .status, readData := Config.freeLinkByte n }
    else { b with pointer := .status }
  | [op, p] =>
    if op = 0xE1 then { b with pointer := if p = cfg.readDataCode then .readData else .other p }
    else if op = 0xD2 then
      { b with pointer := .config, config := if configAccepted p then p.extractLsb' 0 4 else b.config }
    else if op = 0xC3 then { b with pointer := .channel, channel := Config.freeChannel n }
    else { b with pointer := .status }
  | _ => b

/-- The bridge's registers after a command write that failed or never returned: the spec does not say whether the bridge
took the bytes, so the read pointer is free, and a register is open only where this command, had the bridge taken it,
would have written it. BridgeConfig, "written only by `writeConfig`" (R34), is as it was or as the command writes it
(DESIGN CHOICE, log 36). -/
def Bridge.afterFailedWrite (cfg : Params) (n : Nat) (bytes : List Byte) (b : Bridge) : Bridge :=
  let taken := b.afterWrite cfg n bytes
  { taken with
    config := if Config.freeTaken n then taken.config else b.config
    pointer := Config.freePointer n }

/-- The bridge's registers after a status read returned `v`, "taken as a BridgeStatus byte" (R101) wherever the read
pointer stands: for the polls of readByte phase 2 the spec does not say which register they return, and taking them as
BridgeStatus is the model's choice (R123, U8, log 17). -/
def Bridge.afterStatus (v : Byte) (b : Bridge) : Bridge := { b with status := v }

/-- The bridge's registers after a data read returned `v` (R35): through the pointer at Read-Data, that register's byte;
the configuration and channel registers follow the command write (log 15, log 18). -/
def Bridge.afterFetch (v : Byte) (b : Bridge) : Bridge :=
  match b.pointer with
  | .status => b.afterStatus v
  | .readData => { b with readData := v }
  | .config => b
  | .channel => b
  | .other _ => b

/-- The adapter once a command write failed or never returned (log 36). -/
def Adapter.afterFailedWrite (bytes : List Byte) (a : Adapter) : Adapter :=
  { a with bridge := a.bridge.afterFailedWrite a.cfg a.draws bytes, draws := a.draws + 1 }

/-- `Chan.Write(bytes)` (R107, R74). A write that fails or never returns leaves open what the bridge
took of it (log 36); one on a closed channel does not reach the bridge (log 27). -/
def chanWrite (bytes : List Byte) (a : Adapter) : Res Adapter Unit :=
  if a.chanOpen then
    match a.call (.write bytes) with
    | .ok _ a1 => .ok () { a1 with bridge := a1.bridge.afterWrite a1.cfg a1.draws bytes, draws := a1.draws + 1 }
    | .raised a1 => .raised (a1.afterFailedWrite bytes)
    | .hung a1 => .hung (a1.afterFailedWrite bytes)
  else .raised a

/-- `Chan.Read()` (R107), `f` saying what the byte read does to the bridge's registers as the model holds them. A read
that fails or never returns leaves them as they are (DESIGN CHOICE, log 36). -/
def chanReadAs (f : Byte → Bridge → Bridge) (a : Adapter) : Res Adapter Byte :=
  (a.access .read).bind fun v a1 => .ok v { a1 with bridge := f v a1.bridge }

/-- `Chan.Read()` of a byte that is no status (R101, R103, R104, R123). -/
def chanRead (a : Adapter) : Res Adapter Byte := chanReadAs Bridge.afterFetch a

/-! Session reset and failures. -/

/-- `SessionReset()` (R155). -/
def State.sessionReset (s : State) : State := { s with ld := 0, lfd := 0, ldf := false }

/-- The end of a search for the sequencer: idle, its other registers without a value (R31), "the index `i` at which a
search aborted is not kept" (R200); they go back to zero (log 32). -/
def State.leaveSearch (s : State) : State :=
  { s with phase := .idle, i := 0, lastZero := 0, dir := false, alarm := false }

/-- How a host command fails: softly (R205), by a hard error inside a search (R207, R161), or by a hard error of a CRC
command (R207, R190). -/
inductive FailureKind where
  | soft
  | hardSearch
  | hardCrc
deriving DecidableEq, Repr

/-- The entry on a failure (R205, R207): what the session becomes, `FOUND`, `CAUSE` and the sequencer. Nothing is saved
and no vector is fetched; the command is complete. Going on after a hard error is the model's choice (R207, log 5). -/
def State.enterFailure (k : FailureKind) (c : Cause) (s : State) : State :=
  match k with
  | .soft => { s.sessionReset.leaveSearch with found := false, cause := c.code }
  | .hardSearch => { s.leaveSearch with found := false, cause := c.code, faulted := true }
  | .hardCrc => { s with cause := c.code }

/-- There is no return from a failure (R208): the next command is accepted as the state stands. A command that
succeeds writes `CAUSE <- None`. -/
def State.succeed (s : State) : State := { s with cause := Cause.none.code }

/-- An illegal HOST command byte (R73): `CAUSE <- IllegalCommand` and nothing else (log 6). -/
def State.illegalCommand (s : State) : State := { s with cause := Cause.illegalCommand.code }

end Sys2Proof.Machine
end

