-- ==== Sys2Proof/Machine/BridgeProtocol.lean ====
section
/-! DEFINITION. The Bridge Command Protocol (spec/40_bridge_command_protocol.md): PollLoop, resetBridge, writeConfig,
selectChannel and triplet, each over the parameter byte it writes. -/

namespace Sys2Proof.Machine

/-- `StatusRead()` (R101). -/
def statusRead (a : Adapter) : Res Adapter Byte := chanReadAs Bridge.afterStatus a

/-- PollLoop with `n` reads left (R100): the first status byte with busy clear, none on `PollTimeout`. -/
def pollReads : Nat → Adapter → Res Adapter (Option Byte)
  | 0, a => .ok none a
  | n + 1, a => (statusRead a).bind fun s a1 => if busy s then pollReads n a1 else .ok (some s) a1

/-- PollLoop (R100). -/
def pollLoop (a : Adapter) : Res Adapter (Option Byte) := pollReads Config.maxPollAttempts a

/-- `resetBridge()` (R102). -/
def resetBridge (a : Adapter) : Res Adapter ResetOutcome :=
  (chanWrite [0xF0] a).bind fun _ a1 =>
    (pollLoop a1).bind fun r a2 =>
      match r with
      | none => .ok .pollTimeout a2
      | some s => .ok (classifyReset s) a2

/-- A bridge command followed by PollLoop; a timeout runs resetBridge exactly once, its result discarded (R206): the
status byte, none after a timeout. -/
def polledCommand (bytes : List Byte) (a : Adapter) : Res Adapter (Option Byte) :=
  (chanWrite bytes a).bind fun _ a1 =>
    (pollLoop a1).bind fun r a2 =>
      match r with
      | none => (resetBridge a2).bind fun _ a3 => .ok none a3
      | some s => .ok (some s) a2

/-- Write configuration byte `p` and read back (R103). -/
def writeConfigByte (p : Byte) (a : Adapter) : Res Adapter Byte :=
  (chanWrite [0xD2, p] a).bind fun _ a1 => chanRead a1

/-- `writeConfig(nibble)` (R103). -/
def writeConfig (nibble : Nibble) (a : Adapter) : Res Adapter Byte := writeConfigByte (encodeConfig nibble) a

/-- Write select byte `p`, read back a byte, and compare it with the echo of the channel wanted (R104): success iff
there is one and it equals the byte read. The selected channel is then that channel; without that echo, also when the
read fails or never returns, it stays the free value of the write (log 18). -/
def selectWith (p : Byte) (want : Option (BitVec 3 × Byte)) (a : Adapter) : Res Adapter Bool :=
  (chanWrite [0xC3, p] a).bind fun _ a1 =>
    (chanRead a1).bind fun v a2 =>
      match want with
      | some (ch, echo) =>
        if v = echo then .ok true { a2 with bridge := { a2.bridge with channel := ch } }
        else .ok false a2
      | none => .ok false a2

/-- Channel select with select byte `p`, for the first channel that has it (R104, log 18). -/
def selectByte (p : Byte) (a : Adapter) : Res Adapter Bool := selectWith p (channelOfSelect a.cfg p) a

/-- `triplet` with parameter byte `p` (R105): the status byte, 0x00 after a timeout. -/
def tripletByte (p : Byte) (a : Adapter) : Res Adapter Byte :=
  (polledCommand [0x78, p] a).bind fun r a1 => .ok (r.getD 0x00) a1

/-- `triplet(direction)` (R105). -/
def triplet (d : Bool) (a : Adapter) : Res Adapter Byte := tripletByte (encodeDirection d) a

end Sys2Proof.Machine
end

