-- ==== Sys2Proof/Machine/OneWireLink.lean ====
section
/-! DEFINITION. The One-Wire Link (spec/41_one_wire_link.md): busReset, writeBit, writeByte, readByte, transferBlock,
with the timeout sentinels of R125. -/

namespace Sys2Proof.Machine

/-- `busReset()` (R120, R125): a timeout is classified from 0x00. -/
def busReset (a : Adapter) : Res Adapter BusResetResult :=
  (polledCommand [0xB4] a).bind fun r a1 => .ok (classifyBusReset (r.getD 0x00)) a1

/-- `writeBit` with parameter byte `p` (R121, R125): `SBR`, 0 after a timeout. -/
def singleBitByte (p : Byte) (a : Adapter) : Res Adapter Bool :=
  (polledCommand [0x87, p] a).bind fun r a1 => .ok (idBit (r.getD 0x00)) a1

/-- `writeBit(bit)`, also `touchBit(bit)` (R121). -/
def writeBit (bit : Bool) (a : Adapter) : Res Adapter Bool := singleBitByte (encodeSingleBit a.cfg bit) a

/-- `writeByte(v)` (R122, R125): nothing is returned, a timeout is silent. -/
def writeByte (v : Byte) (a : Adapter) : Res Adapter Unit :=
  (polledCommand [0xA5, v] a).bind fun _ a1 => .ok () a1

/-- `draw(byte)` of the adapter (R125). -/
def drawByte (a : Adapter) : Res Adapter Byte := .ok (Config.freeLinkByte a.draws) { a with draws := a.draws + 1 }

/-- Phase 1 of readByte (R123): whether it completed within the bound. -/
def readPhase1 (a : Adapter) : Res Adapter Bool :=
  (polledCommand [0x96] a).bind fun r a1 => .ok r.isSome a1

/-- Phase 2 of readByte with selector byte `p` (R123): move the read pointer, PollLoop, fetch; a free byte and no
further access after a timeout (R125). -/
def readPhase2 (p : Byte) (a : Adapter) : Res Adapter Byte :=
  (polledCommand [0xE1, p] a).bind fun r a1 =>
    match r with
    | none => drawByte a1
    | some _ => chanRead a1

/-- `readByte()` (R123): "Both phases must complete before the value is valid." -/
def readByte (a : Adapter) : Res Adapter Byte :=
  (readPhase1 a).bind fun completed a1 => if completed then readPhase2 a1.cfg.readDataCode a1 else drawByte a1

/-- The read part of transferBlock (R124): every position is overwritten in order; after an error the rest keeps what it
held (R66). -/
def fillReads : List Byte → Adapter → List Byte × Res Adapter Unit
  | [], a => ([], .ok () a)
  | b :: rest, a =>
    match readByte a with
    | .ok v a1 => let r := fillReads rest a1; (v :: r.1, r.2)
    | .raised a1 => (b :: rest, .raised a1)
    | .hung a1 => (b :: rest, .hung a1)

/-- The write part of transferBlock up to the first sentinel, then the read part (R124). -/
def sendThenFill : List Byte → Adapter → List Byte × Res Adapter Unit
  | [], a => ([], .ok () a)
  | b :: rest, a =>
    if b = Config.blockSentinel then fillReads (b :: rest) a
    else
      match writeByte b a with
      | .ok _ a1 => let r := sendThenFill rest a1; (b :: r.1, r.2)
      | .raised a1 => (b :: rest, .raised a1)
      | .hung a1 => (b :: rest, .hung a1)

/-- `transferBlock(buffer, offset, length)` for a range inside the buffer (R124): the buffer afterwards, and how the
transfer ended. -/
def transferRange (buffer : List Byte) (offset length : Nat) (a : Adapter) : List Byte × Res Adapter Unit :=
  let r := sendThenFill ((buffer.drop offset).take length) a
  (buffer.take offset ++ r.1 ++ buffer.drop (offset + length), r.2)

end Sys2Proof.Machine
end

