-- ==== Sys2Proof/Machine/BridgeCommands.lean ====
section
/-! DEFINITION. The bridge commands (R75) and the whole adapter operations as calls of the layer that owns the adapter
(R88). Each leaves the OWSC block as it is and gives its result to the caller. -/

namespace Sys2Proof.Machine

/-- The end of an adapter operation for its caller: its value, or the hard error it ended in; a call that never returned
hangs the machine (R246). R207 lets a hard error be a fault; going on, with the error as the result, is the model's choice
(log 5). -/
def State.endCall {α : Type} (f : α → AdapterResult) (r : Res Adapter α) (s : State) : State :=
  match r with
  | .ok v a => { s with adapter := { a with result := f v } }
  | .raised a => { s with adapter := { a with result := .hardError .transportError } }
  | .hung a => { s with adapter := a, hung := true }

/-- `MalformedInput` of an adapter operation, before any channel access (R204 (e), R207). U15 and U16 name a fault; going
on, with the error as the result, is the model's choice (log 5). -/
def State.malformedCall (s : State) : State :=
  { s with adapter := { s.adapter with result := .hardError .malformedInput } }

/-- `BR.DRST`: resetBridge (R102). -/
def execBrDrst (s : State) : Host.Outcome State Fault Refusal := .next (s.endCall .reset (resetBridge s.adapter))

/-- `BR.SRP p`: phase 2 of readByte (R123, log 19). -/
def execBrSrp (p : Byte) (s : State) : Host.Outcome State Fault Refusal :=
  .next (s.endCall .byte (readPhase2 p s.adapter))

/-- `BR.WCFG p`: writeConfig (R103). -/
def execBrWcfg (p : Byte) (s : State) : Host.Outcome State Fault Refusal :=
  .next (s.endCall .byte (writeConfigByte p s.adapter))

/-- `BR.CHSL p`: selectChannel (R104). -/
def execBrChsl (p : Byte) (s : State) : Host.Outcome State Fault Refusal :=
  .next (s.endCall .bool (selectByte p s.adapter))

/-- `BR.1WRS`: busReset (R120). -/
def execBr1wrs (s : State) : Host.Outcome State Fault Refusal := .next (s.endCall .bus (busReset s.adapter))

/-- `BR.1WSB p`: writeBit, touchBit (R121). -/
def execBr1wsb (p : Byte) (s : State) : Host.Outcome State Fault Refusal :=
  .next (s.endCall .bit (singleBitByte p s.adapter))

/-- `BR.1WWB p`: writeByte (R122). -/
def execBr1wwb (p : Byte) (s : State) : Host.Outcome State Fault Refusal :=
  .next (s.endCall (fun _ => .done) (writeByte p s.adapter))

/-- What phase 1 of readByte gives on its own: completion, or the free byte of a timeout (R123, R125, log 19). -/
def readPhase1Alone (a : Adapter) : Res Adapter AdapterResult :=
  (readPhase1 a).bind fun completed a1 =>
    if completed then .ok .done a1 else (drawByte a1).bind fun v a2 => .ok (.byte v) a2

/-- `BR.1WRB`: phase 1 of readByte (R123, log 19). -/
def execBr1wrb (s : State) : Host.Outcome State Fault Refusal := .next (s.endCall id (readPhase1Alone s.adapter))

/-- `BR.1WT p`: triplet (R105). -/
def execBr1wt (p : Byte) (s : State) : Host.Outcome State Fault Refusal :=
  .next (s.endCall .byte (tripletByte p s.adapter))

/-- `selectChannel(channel)` (R104). -/
def State.selectChannel (channel : Int) (s : State) : State :=
  match channelEntry s.adapter.cfg channel with
  | none => s.malformedCall
  | some e => s.endCall .bool (selectWith e.selectByte (some (BitVec.ofInt 3 channel, e.echo)) s.adapter)

/-- `transferBlock(buffer, offset, length)` (R124): the caller's buffer is kept as the operation left it (R66). -/
def State.transferBlock (buffer : List Byte) (offset length : Nat) (s : State) : State :=
  if buffer.length < offset + length then s.malformedCall
  else
    let r := transferRange buffer offset length s.adapter
    let s1 := s.endCall (fun _ => .done) r.2
    { s1 with adapter := { s1.adapter with block := r.1 } }

/-- `open(busId, address, addressBits, clockSpeed)` (R107): an `Error` is a `TransportError` "and no operation can be
issued" (R232 (1)). -/
def openChannel (a : Adapter) : Res Adapter Unit :=
  match a.call (.opened a.cfg.busId a.cfg.bridgeAddress Config.addressBits a.cfg.clockSpeed) with
  | .ok _ a1 => .ok () { a1 with chanOpen := true }
  | .raised a1 => .raised { a1 with chanOpen := false }
  | .hung a1 => .hung a1

/-- `close()` (R107): it has no result, and may fail as "Any Byte Channel call may fail"; whether an open channel is
still open after a failed close is free (log 27), and a closed one stays closed, since only an open opens it (R232 (1)). -/
def closeChannel (a : Adapter) : Res Adapter Unit :=
  match a.call .closed with
  | .ok _ a1 => .ok () { a1 with chanOpen := false }
  | .raised a1 => .raised { a1 with chanOpen := a1.chanOpen && Config.freeOpen a1.draws, draws := a1.draws + 1 }
  | .hung a1 => .hung a1

/-- A call of an adapter operation by the layer that owns the adapter (R88). -/
def State.callAdapter (op : AdapterCall) (s : State) : State :=
  match op with
  | .resetBridge => s.endCall .reset (resetBridge s.adapter)
  | .writeConfig n => s.endCall .byte (writeConfig n s.adapter)
  | .selectChannel ch => s.selectChannel ch
  | .triplet d => s.endCall .byte (triplet d s.adapter)
  | .busReset => s.endCall .bus (busReset s.adapter)
  | .writeBit b => s.endCall .bit (writeBit b s.adapter)
  | .touchBit b => s.endCall .bit (writeBit b s.adapter)
  | .writeByte v => s.endCall (fun _ => .done) (writeByte v s.adapter)
  | .readByte => s.endCall .byte (readByte s.adapter)
  | .transferBlock buffer offset length => s.transferBlock buffer offset length
  | .openChannel => s.endCall (fun _ => .done) (openChannel s.adapter)
  | .closeChannel => s.endCall (fun _ => .done) (closeChannel s.adapter)

end Sys2Proof.Machine
end

