-- ==== Sys2Proof/Machine/Crc.lean ====
section
/-! DEFINITION. The commands of the CRC unit (R190). -/

namespace Sys2Proof.Machine

/-- `CRC.FOLD` (R183, R190). -/
def execCrcFold (s : State) : Host.Outcome State Fault Refusal :=
  .next { s.succeed with cres := fold s.cseed s.cdata }

/-- `CRC.COMPUTE` (R184, R190): `BOFF + BLEN` as naturals against `BUF_SIZE`. -/
def execCrcCompute (s : State) : Host.Outcome State Fault Refusal :=
  .next
    (if s.adapter.cfg.bufSize < s.boff.toNat + s.blen.toNat then s.enterFailure .hardCrc .malformedInput
    else { s.succeed with cres := foldBytes s.cseed (s.bufRange s.boff.toNat s.blen.toNat) })

end Sys2Proof.Machine
end

