-- ==== Sys2Proof/Machine/Exclusive.lean ====
section
/-! DEFINITION. The advisory exclusive-session marker (R28, R210). -/

namespace Sys2Proof.Machine

/-- `EXCL.BEGIN` (R210). -/
def execExclBegin (s : State) : Host.Outcome State Fault Refusal := .next { s.succeed with excl := true }

/-- `EXCL.END` (R210). -/
def execExclEnd (s : State) : Host.Outcome State Fault Refusal := .next { s.succeed with excl := false }

end Sys2Proof.Machine
end

