-- ==== Sys2Proof/Machine/RomCommands.lean ====
section
/-! DEFINITION. The 1-Wire ROM commands (R83): "A ROM command byte is sent with `writeByte`." What the devices do with
it is the environment's (log 21). -/

namespace Sys2Proof.Machine

/-- A ROM command byte sent on the bus (R83, R122). -/
def State.sendRomCommand (b : Byte) (s : State) : State := s.endCall (fun _ => .done) (writeByte b s.adapter)

/-- `ROM.SEARCH` (R83, R144). -/
def execRomSearch (s : State) : Host.Outcome State Fault Refusal := .next (s.sendRomCommand 0xF0)

/-- `ROM.ALARM` (R83, R144). -/
def execRomAlarm (s : State) : Host.Outcome State Fault Refusal := .next (s.sendRomCommand 0xEC)

/-- `ROM.MATCH` (R83). -/
def execRomMatch (s : State) : Host.Outcome State Fault Refusal := .next (s.sendRomCommand 0x55)

/-- `ROM.SKIP` (R83). -/
def execRomSkip (s : State) : Host.Outcome State Fault Refusal := .next (s.sendRomCommand 0xCC)

/-- `ROM.READ` (R83). -/
def execRomRead (s : State) : Host.Outcome State Fault Refusal := .next (s.sendRomCommand 0x33)

end Sys2Proof.Machine
end

