-- ==== Sys2Proof/Machine/Search.lean ====
section
/-! DEFINITION. The ROM search engine (spec/42_rom_search.md): the link port (R126), the sequencer rows (R156) with the
search steps in them (R142 to R153), and the commands SRCH.BEGIN, SRCH.SEARCH and SRCH.CONT. -/

namespace Sys2Proof.Machine

/-! The link port (R126). -/

/-- The state after a link request: the adapter moved on, the request is recorded. -/
def State.afterLink (s : State) (a : Adapter) (e : LinkEvent) : State :=
  { s with adapter := a, linkLog := e :: s.linkLog }

/-- A request at the link port, realised by the adapter operation `f`. -/
def linkRequest {α : Type} (f : Adapter → Res Adapter α) (e : Option α → LinkEvent) (s : State) : Res State α :=
  match f s.adapter with
  | .ok v a => .ok v (s.afterLink a (e (some v)))
  | .raised a => .raised (s.afterLink a (e none))
  | .hung a => .hung (s.afterLink a (e none))

/-- `Link.BusReset()`. -/
def linkBusReset (s : State) : Res State BusResetResult := linkRequest busReset .busReset s

/-- `Link.WriteByte(b)`. -/
def linkWriteByte (b : Byte) (s : State) : Res State Unit := linkRequest (writeByte b) (fun r => .writeByte b r.isSome) s

/-- `Link.Triplet(d)`. -/
def linkTriplet (d : Bool) (s : State) : Res State Byte := linkRequest (triplet d) (.triplet d) s

/-- A sequencer row that waits for a link answer: a hard error ends the search (R161), a call that never returns hangs
the block (R246), an answer is acted on. -/
def onAnswer {α : Type} (r : Res State α) (f : α → State → State) : State :=
  match r with
  | .ok v s => f v s
  | .raised s => s.enterFailure .hardSearch .transportError
  | .hung s => { s with hung := true }

/-! The steps of a search. -/

/-- Step 4a (R146): the provisional direction for index `i`. -/
def direction (ld i : BitIndex) (rom : Vector Byte 8) : Bool :=
  if i < ld then getBit rom i else i == ld

/-- Issue of the triplet for index `i`: `i` and `dir` (R156, R146). -/
def State.startBit (i : BitIndex) (s : State) : State :=
  { s with i := i, dir := direction s.ld i s.rom, phase := .sBit }

/-- Step 4d (R149): a discrepancy resolved to 0 is recorded. -/
def State.recordZero (status : Byte) (s : State) : State :=
  if !idBit status && !cmpBit status && !taken status then
    { s with lastZero := s.i, lfd := if s.i ≤ Config.familyBits then s.i else s.lfd }
  else s

/-- Step 4e (R150): the bit is stored as taken. -/
def State.storeBit (status : Byte) (s : State) : State := { s with rom := setBit s.rom s.i (taken status) }

/-- Entry and step 1 (R142, R156): an enumeration whose last device was found is over. -/
def State.enterSearch (alarm : Bool) (s : State) : State :=
  if s.ldf then State.enterFailure .soft .enumerationDone { s with alarm := alarm, ld := 0 }
  else { s with alarm := alarm, phase := .sReset }

/-- What step 2 does with the answer of the bus reset (R143). -/
def State.takeBusReset (r : BusResetResult) (s : State) : State :=
  match r with
  | .presenceDetected => { s with phase := .sCmd }
  | .shortDetected => s.enterFailure .soft .busFault
  | .noPresence => s.enterFailure .soft .noPresence

/-- Step 2 (R143): the bus reset. -/
def resetRow (s : State) : State := onAnswer (linkBusReset s) State.takeBusReset

/-- Step 3 (R144) and the start of step 4 (R145). -/
def cmdRow (s : State) : State :=
  onAnswer (linkWriteByte (searchCommandByte s.alarm) s) fun _ s1 => State.startBit 1 { s1 with lastZero := 0 }

/-- What step 4 does with the status of the triplet for the present index (R147 to R150, R156). -/
def State.takeStatus (status : Byte) (s : State) : State :=
  if idBit status && cmpBit status then s.enterFailure .soft .noResponse
  else
    let s1 := (s.recordZero status).storeBit status
    if s.i = Config.romBits then { s1 with phase := .sCheck } else s1.startBit (s.i + 1)

/-- Step 4b (R147) and what follows from its answer. -/
def bitRow (s : State) : State := onAnswer (linkTriplet s.dir s) State.takeStatus

/-- Steps 5, 7 and 6 in that order (R151, R152, R153). -/
def checkRow (s : State) : State :=
  if !romCrcOk s.rom then s.enterFailure .soft .integrityFailure
  else if romAllZero s.rom then s.enterFailure .soft .allZeroRom
  else { s.leaveSearch with ld := s.lastZero, ldf := s.lastZero == 0, found := true, cause := Cause.none.code }

/-- One row of the sequencer (R156). -/
def sequencerRow (s : State) : State :=
  match s.phase with
  | .idle => s
  | .sReset => resetRow s
  | .sCmd => cmdRow s
  | .sBit => bitRow s
  | .sCheck => checkRow s

/-- The walk of the sequencer, for at most `n` rows, until it is idle again or hung. -/
def runRows : Nat → State → State
  | 0, s => s
  | n + 1, s => if s.phase = .idle ∨ s.hung = true then s else runRows n (sequencerRow s)

/-- A search has at most 67 rows: the reset, the command byte, 64 triplets and the check (R62, R156). -/
def searchRows : Nat := 67

/-- `Search(alarm)`: one transition for the host (R10, R156). -/
def search (alarm : Bool) (s : State) : State := runRows searchRows (s.enterSearch alarm)

/-- The start of an enumeration: `SessionReset()`, and a defined session again after a hard error (R140, R161). -/
def State.beginSession (s : State) : State := { s.sessionReset with faulted := false }

/-! The commands. -/

/-- `SRCH.BEGIN` (R140). -/
def execSrchBegin (s : State) : Host.Outcome State Fault Refusal := .next (search false s.beginSession)

/-- `SRCH.SEARCH a` (R142 to R154). -/
def execSrchSearch (a : Bool) (s : State) : Host.Outcome State Fault Refusal := .next (search a s)

/-- `SRCH.CONT` (R141). -/
def execSrchCont (s : State) : Host.Outcome State Fault Refusal := .next (search false s)

end Sys2Proof.Machine
end

