-- ==== Sys2Proof/Machine/Dispatch.lean ====
section
/-! DEFINITION. The meaning of every command, one arm a constructor. -/

namespace Sys2Proof.Machine

def exec (i : Instr) (s : State) : Host.Outcome State Fault Refusal :=
  match i with
  | .crcFold => Sys2Proof.Machine.execCrcFold s
  | .crcCompute => Sys2Proof.Machine.execCrcCompute s
  | .srchBegin => Sys2Proof.Machine.execSrchBegin s
  | .srchSearch a => Sys2Proof.Machine.execSrchSearch a s
  | .srchCont => Sys2Proof.Machine.execSrchCont s
  | .exclBegin => Sys2Proof.Machine.execExclBegin s
  | .exclEnd => Sys2Proof.Machine.execExclEnd s
  | .brDrst => Sys2Proof.Machine.execBrDrst s
  | .brSrp p => Sys2Proof.Machine.execBrSrp p s
  | .brWcfg p => Sys2Proof.Machine.execBrWcfg p s
  | .brChsl p => Sys2Proof.Machine.execBrChsl p s
  | .br1wrs => Sys2Proof.Machine.execBr1wrs s
  | .br1wsb p => Sys2Proof.Machine.execBr1wsb p s
  | .br1wwb p => Sys2Proof.Machine.execBr1wwb p s
  | .br1wrb => Sys2Proof.Machine.execBr1wrb s
  | .br1wt p => Sys2Proof.Machine.execBr1wt p s
  | .romSearch => Sys2Proof.Machine.execRomSearch s
  | .romAlarm => Sys2Proof.Machine.execRomAlarm s
  | .romMatch => Sys2Proof.Machine.execRomMatch s
  | .romSkip => Sys2Proof.Machine.execRomSkip s
  | .romRead => Sys2Proof.Machine.execRomRead s

end Sys2Proof.Machine
end

