-- ==== Sys2Proof/WellFormed.lean ====
section
/-! DEFINITION. Which bridge commands an operation of the spec ever forms (R76 to R80, R82): the parameter byte is one
the operand assembly gives. The decoder accepts every parameter byte, since the device receives it whatever it holds;
this check says which of them the adapter issues. -/

namespace Sys2Proof

/-- The parameter byte is one that the operand assembly of the adapter's operations gives, for the parameters `cfg`. -/
def Instr.wf (cfg : Params) : Instr → Bool
  | .brSrp p => p == cfg.readDataCode
  | .brWcfg p => Machine.configAccepted p
  | .brChsl p => (Machine.channelOfSelect cfg p).isSome
  | .br1wsb p => p == cfg.singleBitZero || p == cfg.singleBitOne
  | .br1wt p => p == 0x00 || p == 0xFF
  | .crcFold | .crcCompute | .srchBegin | .srchSearch _ | .srchCont | .exclBegin | .exclEnd => true
  | .brDrst | .br1wrs | .br1wwb _ | .br1wrb => true
  | .romSearch | .romAlarm | .romMatch | .romSkip | .romRead => true

end Sys2Proof
end

