-- ==== Sys2Proof/Decode.lean ====
section
/-! DEFINITION. The decoders of the three encoding spaces (R70 to R75, R83), total on any bytes and rejecting by name,
the encoder, and the reading of a word numbered as spec/opcode_table.json numbers it. -/

namespace Sys2Proof

/-- Why bytes are no command. -/
inductive DecodeError where
  /-- no byte at all -/
  | noByte
  /-- a HOST byte outside the assigned ones (R73) -/
  | unassignedHostByte (b : Byte)
  /-- a bridge opcode outside the nine of R75 (R82) -/
  | unlistedOpcode (b : Byte)
  /-- a two-byte bridge opcode without its parameter (R74) -/
  | missingParameter (b : Byte)
  /-- bytes after the end of the command (R74) -/
  | extraBytes
  /-- a byte that is none of the five ROM commands (R83) -/
  | unknownRomCommand (b : Byte)
deriving DecidableEq, Repr

/-- The command byte written to `CMD` (R72, R73). 0x22 reads as `SRCH.SEARCH 0`, the core name (R89, log 7). -/
def decodeHost (b : Byte) : Except DecodeError Instr :=
  if b = 0x10 then .ok .crcFold
  else if b = 0x11 then .ok .crcCompute
  else if b = 0x20 then .ok .srchBegin
  else if b.extractLsb' 1 7 = 0x11 then .ok (.srchSearch (b.getLsbD 0))
  else if b = 0x30 then .ok .exclBegin
  else if b = 0x31 then .ok .exclEnd
  else .error (.unassignedHostByte b)

/-- The bridge opcodes of the one-byte form (R74, R75). -/
def bridgeOneByte (op : Byte) : Option Instr :=
  if op = 0xF0 then some .brDrst
  else if op = 0xB4 then some .br1wrs
  else if op = 0x96 then some .br1wrb
  else none

/-- The bridge opcodes of the two-byte form with their parameter (R74, R75). -/
def bridgeTwoByte (op p : Byte) : Option Instr :=
  if op = 0xE1 then some (.brSrp p)
  else if op = 0xD2 then some (.brWcfg p)
  else if op = 0xC3 then some (.brChsl p)
  else if op = 0x87 then some (.br1wsb p)
  else if op = 0xA5 then some (.br1wwb p)
  else if op = 0x78 then some (.br1wt p)
  else none

/-- "The opcode alone decides the length" (R74). -/
def takesParameter (op : Byte) : Bool := (bridgeTwoByte op 0).isSome

/-- A BRIDGE command: one Byte Channel write of one or two bytes (R74). -/
def decodeBridge : List Byte → Except DecodeError Instr
  | [] => .error .noByte
  | [op] =>
    match bridgeOneByte op with
    | some i => .ok i
    | none => .error (if takesParameter op then .missingParameter op else .unlistedOpcode op)
  | [op, p] =>
    match bridgeTwoByte op p with
    | some i => .ok i
    | none => .error (if (bridgeOneByte op).isSome then .extraBytes else .unlistedOpcode op)
  | op :: _ :: _ :: _ =>
    .error (if (bridgeOneByte op).isSome || takesParameter op then .extraBytes else .unlistedOpcode op)

/-- A 1-Wire ROM command byte (R83). -/
def decodeRomCmd (b : Byte) : Except DecodeError Instr :=
  if b = 0xF0 then .ok .romSearch
  else if b = 0xEC then .ok .romAlarm
  else if b = 0x55 then .ok .romMatch
  else if b = 0xCC then .ok .romSkip
  else if b = 0x33 then .ok .romRead
  else .error (.unknownRomCommand b)

/-- The decoder: the bytes of one command in the given space. -/
def decode (sp : Space) (bytes : List Byte) : Except DecodeError Instr :=
  match sp with
  | .bridge => decodeBridge bytes
  | .host =>
    match bytes with
    | [] => .error .noByte
    | [b] => decodeHost b
    | _ :: _ :: _ => .error .extraBytes
  | .romCmd =>
    match bytes with
    | [] => .error .noByte
    | [b] => decodeRomCmd b
    | _ :: _ :: _ => .error .extraBytes

/-- The space a command is issued in (R70). -/
def spaceOf : Instr → Space
  | .crcFold | .crcCompute | .srchBegin | .srchSearch _ | .srchCont | .exclBegin | .exclEnd => .host
  | .brDrst | .brSrp _ | .brWcfg _ | .brChsl _ | .br1wrs | .br1wsb _ | .br1wwb _ | .br1wrb | .br1wt _ => .bridge
  | .romSearch | .romAlarm | .romMatch | .romSkip | .romRead => .romCmd

/-- The bytes of a command, from the encoding tables of R72, R75 and R83. -/
def encode : Instr → List Byte
  | .crcFold => [0x10]
  | .crcCompute => [0x11]
  | .srchBegin => [0x20]
  | .srchSearch a => [0x11#7 ++ BitVec.ofBool a]
  | .srchCont => [0x22]
  | .exclBegin => [0x30]
  | .exclEnd => [0x31]
  | .brDrst => [0xF0]
  | .brSrp p => [0xE1, p]
  | .brWcfg p => [0xD2, p]
  | .brChsl p => [0xC3, p]
  | .br1wrs => [0xB4]
  | .br1wsb p => [0x87, p]
  | .br1wwb p => [0xA5, p]
  | .br1wrb => [0x96]
  | .br1wt p => [0x78, p]
  | .romSearch => [0xF0]
  | .romAlarm => [0xEC]
  | .romMatch => [0x55]
  | .romSkip => [0xCC]
  | .romRead => [0x33]

/-- The space and bytes of the command that a word numbered as spec/opcode_table.json numbers it stands for: byte 0 in
bits 7..0, a parameter byte in bits 15..8. The one byte two spaces share, 0xF0, is
read as the bridge opcode (log 8). -/
def tableWordCommand (nbits w : Nat) : Space × List Byte :=
  let v := w % 2 ^ nbits
  let b0 := BitVec.ofNat 8 v
  let rest := v / 256
  if takesParameter b0 then
    if rest < 256 then (.bridge, [b0, BitVec.ofNat 8 rest]) else (.bridge, [b0, BitVec.ofNat 8 rest, BitVec.ofNat 8 (rest / 256)])
  else if rest = 0 then
    if (bridgeOneByte b0).isSome then (.bridge, [b0])
    else if (decodeRomCmd b0).toOption.isSome then (.romCmd, [b0])
    else (.host, [b0])
  else (.bridge, [b0, BitVec.ofNat 8 rest])

/-- The instruction the decoder reads from a table word. -/
def decodeTableWord (nbits w : Nat) : Option Instr :=
  let c := tableWordCommand nbits w
  (decode c.1 c.2).toOption

end Sys2Proof
end

