-- ==== Sys2Proof/Machine/HostPort.lean ====
section
/-! DEFINITION. The host port's register file (R36), `BUF` as the host reaches it (R50, R88), and reset of the block
(R230). -/

namespace Sys2Proof.Machine

/-- A write of a host register other than `CMD` (R36): an operand register takes it, any other ignores it. A register
of 8 bits takes the low byte (log 24). -/
def State.hostWrite (n : Byte) (v : Half) (s : State) : State :=
  if n = 0x10 then { s with cseed := v.setWidth 8 }
  else if n = 0x11 then { s with cdata := v.setWidth 8 }
  else if n = 0x13 then { s with boff := v }
  else if n = 0x14 then { s with blen := v }
  else s

/-- The readable host registers, narrower ones zero-extended (R36). -/
def State.hostRegister? (n : Byte) (s : State) : Option Half :=
  if n = 0x01 then some ((BitVec.ofBool s.found).setWidth 16)
  else if n = 0x02 then some (s.cause.setWidth 16)
  else if n = 0x03 then some (s.ld.setWidth 16)
  else if n = 0x04 then some (s.lfd.setWidth 16)
  else if n = 0x05 then some ((BitVec.ofBool s.ldf).setWidth 16)
  else if n = 0x06 then some ((BitVec.ofBool s.excl).setWidth 16)
  else if 0x08 ≤ n ∧ n ≤ 0x0F then some ((romByte s.rom (n - 0x08).toNat).setWidth 16)
  else if n = 0x10 then some (s.cseed.setWidth 16)
  else if n = 0x11 then some (s.cdata.setWidth 16)
  else if n = 0x12 then some (s.cres.setWidth 16)
  else if n = 0x13 then some s.boff
  else if n = 0x14 then some s.blen
  else none

/-- The value a read shows to the host. -/
def State.showHost (v : Half) (s : State) : State := { s with hostOut := v :: s.hostOut }

/-- A read of a host register (R36): a write-only or unlisted number returns `draw(byte)`. No other effect (R57 (d)). -/
def State.hostRead (n : Byte) (s : State) : State :=
  match s.hostRegister? n with
  | some v => s.showHost v
  | none => { s.showHost ((Config.freeByte s.draws).setWidth 16) with draws := s.draws + 1 }

/-- `WB index, value` (R88): no such byte outside `BUF` (R50, log 23). -/
def State.bufWrite (k : Nat) (v : Byte) (s : State) : Host.Outcome State Fault Refusal :=
  if k < s.adapter.cfg.bufSize then .next { s with buf := s.buf.write k v } else .fault (.bufIndexOutside k)

/-- `RB index` (R88). -/
def State.bufRead (k : Nat) (s : State) : Host.Outcome State Fault Refusal :=
  if k < s.adapter.cfg.bufSize then .next (s.showHost ((s.bufByte k).setWidth 16)) else .fault (.bufIndexOutside k)

/-- Eight free bytes (R38, U1). -/
def drawnRom (n : Nat) : Vector Byte 8 :=
  #v[Config.freeByte n, Config.freeByte (n + 1), Config.freeByte (n + 2), Config.freeByte (n + 3),
    Config.freeByte (n + 4), Config.freeByte (n + 5), Config.freeByte (n + 6), Config.freeByte (n + 7)]

/-- Reset of the block (R230, R38): the reset values, `ROM` and `BUF` drawn anew, no link transaction, the adapter and
the bridge untouched. The pending requests and the model's records stay (log 35). -/
def State.blockReset (s : State) : State :=
  { State.resetFrom (drawnRom s.draws) (s.bufEpoch + 1) s.adapter with
    linkLog := s.linkLog, hostOut := s.hostOut, requests := s.requests, draws := s.draws + 8 }

end Sys2Proof.Machine
end

