-- ==== Sys2Proof/Machine/Fetch.lean ====
section
/-! DEFINITION. Taking the next request from outside (log 3): a command is decoded, any other request is served. -/

namespace Sys2Proof.Machine

/-- What a request comes to: an instruction to run at a state, or a transaction that is over. -/
inductive Fetched where
  | run (i : Instr) (s : State)
  | ended (o : Host.Outcome State Fault Refusal)
deriving Repr

/-- A HOST command byte written to `CMD`; an unassigned one changes `CAUSE` only (R73, log 6). -/
def fetchHost (b : Byte) (s : State) : Fetched :=
  match decode .host [b] with
  | .ok i => .run i s
  | .error _ => .ended (.next s.illegalCommand)

/-- A bridge command (R74); an unlisted opcode is refused (R82, log 22). -/
def fetchBridge (bytes : List Byte) (s : State) : Fetched :=
  match decode .bridge bytes with
  | .ok i => .run i s
  | .error (.unlistedOpcode b) => .ended (.refused (.unlistedOpcode b))
  | .error _ => .ended (.refused .malformedBridgeCommand)

/-- A 1-Wire ROM command byte (R83, log 22). -/
def fetchRomCmd (b : Byte) (s : State) : Fetched :=
  match decode .romCmd [b] with
  | .ok i => .run i s
  | .error _ => .ended (.refused (.unknownRomCommand b))

/-- Serving one request; `s` no longer lists it. A write of register 0x00 is a command (R71, R88). -/
def serve (r : Request) (s : State) : Fetched :=
  match r with
  | .regWrite n v => if n = 0x00 then fetchHost (v.setWidth 8) s else .ended (.next (s.hostWrite n v))
  | .regRead n => .ended (.next (s.hostRead n))
  | .bufWrite k v => .ended (s.bufWrite k v)
  | .bufRead k => .ended (s.bufRead k)
  | .bridge bytes => fetchBridge bytes s
  | .romCmd b => fetchRomCmd b s
  | .call op => .ended (.next (s.callAdapter op))
  | .blockReset => .ended (.next s.blockReset)

/-- The next request, taken from the list. A hung machine takes none (U14); with nothing asked the block stays as it is
(log 29). -/
def fetch (s : State) : Fetched :=
  if s.hung then .ended (.fault .channelHung)
  else
    match s.requests with
    | [] => .ended (.next s)
    | r :: rest => serve r { s with requests := rest }

/-- The request that issues the command of a space. -/
def commandRequest (sp : Space) (bytes : List Byte) : Request :=
  match sp with
  | .host => .regWrite 0x00 ((bytes.headD 0).setWidth 16)
  | .bridge => .bridge bytes
  | .romCmd => .romCmd (bytes.headD 0)

end Sys2Proof.Machine
end

