-- ==== Sys2Proof/Machine/Step.lean ====
section
/-! DEFINITION. One step of the machine: one request from outside, from the state before to the state after (R10). -/

namespace Sys2Proof.Machine

/-- One step: the next request is taken; a command runs as its instruction. -/
def step (s : State) : Host.Outcome State Fault Refusal :=
  match fetch s with
  | .run i s1 => exec i s1
  | .ended o => o

/-- `s` with the command of a table word as its next request (log 3). A machine that waits on a hung call takes no
request, so the wait is cleared. -/
def State.withFetchWord (s : State) (nbits w : Nat) : State :=
  let c := tableWordCommand nbits w
  { s with requests := commandRequest c.1 c.2 :: s.requests, hung := false }

end Sys2Proof.Machine
end

