-- ==== Sys2Proof/Safety.lean ====
section
/-! DEFINITION. What claims about a run are stated in: the invariants (R37, R31, the canonical form of `BUF`), the link
transactions of a search (R62, R158), the channel answers of one bridge command, and the search as one listing
(spec/42_rom_search.md, section 5). -/

namespace Sys2Proof.Machine

/-! Invariants. -/

/-- The session invariant of R37, for states with no hard error since reset or the last SRCH.BEGIN; a hung machine is
still inside its command. -/
def SessionInv (s : State) : Prop :=
  s.hung = false → s.faulted = false →
    s.ld ≤ 64 ∧ s.lfd ≤ 8 ∧ (s.ldf = true → s.ld = 0) ∧
    (s.found = true → crc8 (s.rom.toList.take 7) = romByte s.rom 7 ∧ romAllZero s.rom = false) ∧
    (s.found = false → s.ld = 0 ∧ s.lfd = 0 ∧ s.ldf = false)

/-- Between requests the sequencer is idle and its other registers hold nothing of the last search (R31, R200): they are
zero (log 32). -/
def QuietInv (s : State) : Prop :=
  s.hung = false → s.phase = .idle ∧ s.i = 0 ∧ s.lastZero = 0 ∧ s.dir = false ∧ s.alarm = false

/-- `BUF` is in canonical form and lists no index outside the space (R50). -/
def BufInv (s : State) : Prop := Memory.wf s.adapter.cfg.bufSize s.buf

/-! Link transactions of a search. -/

/-- The link requests made between two states, oldest first. -/
def LinkRequests (s t : State) (events : List LinkEvent) : Prop := t.linkLog = events.reverse ++ s.linkLog

/-- A triplet answer with both read bits set: no device responded (R148). -/
def noResponse (status : Byte) : Bool := idBit status && cmpBit status

/-- A discrepancy resolved to 0 (R149). -/
def resolvedToZero (status : Byte) : Bool := !idBit status && !cmpBit status && !taken status

/-- The triplets of a search in index order: none after an answer with both read bits set or after a request that got
no answer, and at most 64 (R62). -/
def TripletRun (events : List LinkEvent) : Prop :=
  events.length ≤ 64 ∧
  (∀ e ∈ events, ∃ d a, e = .triplet d a) ∧
  (∀ e ∈ events.dropLast, ∃ d st, e = .triplet d (some st) ∧ noResponse st = false) ∧
  (∀ d st, events.getLast? = some (.triplet d (some st)) → noResponse st = false → events.length = 64)

/-- The link requests of one search that was entered with `LDF` clear (R62). -/
def SearchRun (alarm : Bool) (events : List LinkEvent) : Prop :=
  (∃ r, r ≠ some .presenceDetected ∧ events = [.busReset r]) ∨
  (events = [.busReset (some .presenceDetected), .writeByte (searchCommandByte alarm) false]) ∨
  (∃ ts, ts ≠ [] ∧ TripletRun ts ∧
    events = .busReset (some .presenceDetected) :: .writeByte (searchCommandByte alarm) true :: ts)

/-- A request as the normal search makes it: the alarm command byte replaced by the search command byte (R162). -/
def withoutAlarm : LinkEvent → LinkEvent
  | .writeByte b c => .writeByte (if b = 0xEC then 0xF0 else b) c
  | .busReset r => .busReset r
  | .triplet d st => .triplet d st

/-- Whether an answer is a next state. -/
def goesOn (o : Host.Outcome State Fault Refusal) : Prop := ∃ t, o = .next t

/-- The state without the sequencer registers, which have no meaning outside a search (R31, R200, log 32). -/
def State.withoutSequencer (s : State) : State :=
  { s with phase := .idle, i := 0, lastZero := 0, dir := false, alarm := false }

/-! Channel answers of one bridge command. -/

/-- Status bytes read while the bridge is busy, fewer than the bound, then one that is not busy (R100). -/
def PollCompletes (busyBytes : List Byte) (status : Byte) : Prop :=
  busyBytes.length < 16 ∧ (∀ b ∈ busyBytes, busy b = true) ∧ busy status = false

/-- The answers to a command write and its PollLoop. -/
def polledAnswers (x : Byte) (busyBytes : List Byte) (status : Byte) : List ChanAnswer :=
  .done x :: busyBytes.map .done ++ [.done status]

/-- The answers to a device reset run as a recovery, which completes or times out itself (R206), and how many status
reads it makes. -/
def RecoveryAnswers (answers : List ChanAnswer) (n : Nat) : Prop :=
  (∃ y cs st, PollCompletes cs st ∧ answers = polledAnswers y cs st ∧ n = cs.length + 1) ∨
  (∃ (y : Byte) (cs : List Byte), cs.length = 16 ∧ (∀ b ∈ cs, busy b = true) ∧ answers = .done y :: cs.map .done ∧ n = 16)

/-- The answers to one polled command that completes: its write, the busy status bytes, the last status byte. -/
structure PollAnswer where
  ack : Byte
  busyBytes : List Byte
  status : Byte
deriving DecidableEq, Repr

/-- The poll completes within the bound (R100). -/
def PollAnswer.completes (p : PollAnswer) : Prop := PollCompletes p.busyBytes p.status

/-- As channel answers. -/
def PollAnswer.answers (p : PollAnswer) : List ChanAnswer := polledAnswers p.ack p.busyBytes p.status

/-- The answers to one readByte that completes: its two polls and the byte fetched (R123). -/
structure ReadAnswer where
  first : PollAnswer
  second : PollAnswer
  value : Byte
deriving DecidableEq, Repr

/-- Both polls complete within the bound. -/
def ReadAnswer.completes (r : ReadAnswer) : Prop := r.first.completes ∧ r.second.completes

/-- As channel answers. -/
def ReadAnswer.answers (r : ReadAnswer) : List ChanAnswer := r.first.answers ++ r.second.answers ++ [.done r.value]

/-- The channel record of a command write and `n` reads, newest first. -/
def polledLog (bytes : List Byte) (n : Nat) (log : List ChanAccess) : List ChanAccess :=
  List.replicate n .read ++ .write bytes :: log

/-- The channel record of a polled command, newest first. -/
def PollAnswer.log (p : PollAnswer) (bytes : List Byte) (log : List ChanAccess) : List ChanAccess :=
  polledLog bytes (p.busyBytes.length + 1) log

/-- The channel record of the writes of a transfer, byte by byte (R122, R124). -/
def writesLog : List (Byte × PollAnswer) → List ChanAccess → List ChanAccess
  | [], log => log
  | (b, p) :: rest, log => writesLog rest (p.log [0xA5, b] log)

/-- The channel record of the reads of a transfer, `code` selecting the Read-Data register (R123, R124). -/
def readsLog (code : Byte) : List ReadAnswer → List ChanAccess → List ChanAccess
  | [], log => log
  | r :: rest, log => readsLog code rest (.read :: r.second.log [0xE1, code] (r.first.log [0x96] log))

/-- The state after a polled command whose read pointer stands at the status register: answers used up to `rest`, `n`
status reads, `status` the last of them, `result` given to the caller. Every other part of the state is as before. That
the pointer stands at the status register is the model's reading of R35 and R101 (DEDUCED, log 17). -/
def State.afterPolled (s : State) (bytes : List Byte) (n : Nat) (status : Byte) (rest : List ChanAnswer)
    (result : AdapterResult) : State :=
  { s with
    adapter :=
      { s.adapter with
        script := rest
        draws := s.adapter.draws + 1
        chanLog := polledLog bytes n s.adapter.chanLog
        bridge := { s.adapter.bridge with pointer := .status, status := status }
        result := result } }

/-! The channel answers of a whole search. -/

/-- The answers under which a search sees a presence pulse `r`, has its command byte accepted with status `w` and gets
the triplet statuses `sts`, every poll ending at its first read. -/
def searchAnswers (r w : Byte) (sts : List Byte) : List ChanAnswer :=
  [.done 0, .done r, .done 0, .done w] ++ sts.flatMap fun st => [.done 0, .done st]

/-- 64 triplet statuses, none busy, none with both read bits set. -/
def CleanStatuses (sts : List Byte) : Prop :=
  sts.length = 64 ∧ ∀ st ∈ sts, busy st = false ∧ noResponse st = false

/-- `ld` is the highest index whose triplet was a discrepancy resolved to 0, or 0 if there was none (R158 (b)). -/
def HighestZero (sts : List Byte) (ld : BitIndex) : Prop :=
  (ld = 0 ∧ ∀ st ∈ sts, resolvedToZero st = false) ∨
  (∃ k st, sts[k]? = some st ∧ ld = BitVec.ofNat 7 (k + 1) ∧ resolvedToZero st = true ∧
    ∀ j st', k < j → sts[j]? = some st' → resolvedToZero st' = false)

/-- ROM bit `k` is the bit taken by triplet `k`, for all k from 1 to 64 (R158 (b)). -/
def RomIsTaken (sts : List Byte) (rom : Vector Byte 8) : Prop :=
  ∀ k st, sts[k]? = some st → getBit rom (BitVec.ofNat 7 (k + 1)) = taken st

/-! The search as one listing. -/

/-- Steps 5, 7 and 6 of the listing. -/
def listingCheck (lastZero : BitIndex) (s : State) : State :=
  if crc8 (s.rom.toList.take 7) ≠ romByte s.rom 7 then s.enterFailure .soft .integrityFailure
  else if s.rom = #v[0, 0, 0, 0, 0, 0, 0, 0] then s.enterFailure .soft .allZeroRom
  else { s with ld := lastZero, ldf := lastZero == 0, found := true, cause := 0 }

/-- Step 4 of the listing from index `i`, with `n` indices to go. -/
def listingBits : Nat → BitIndex → BitIndex → State → State
  | 0, _, lastZero, s => listingCheck lastZero s
  | n + 1, i, lastZero, s =>
    onAnswer (linkTriplet (direction s.ld i s.rom) s) fun st s1 =>
      if noResponse st then s1.enterFailure .soft .noResponse
      else
        let s2 : State := if resolvedToZero st && decide (i ≤ 8) then { s1 with lfd := i } else s1
        listingBits n (i + 1) (if resolvedToZero st then i else lastZero) { s2 with rom := setBit s2.rom i (taken st) }

/-- `Search(alarm)` as the listing has it. -/
def listingSearch (alarm : Bool) (s : State) : State :=
  if s.ldf then s.enterFailure .soft .enumerationDone
  else
    onAnswer (linkBusReset s) fun r s1 =>
      if r = .presenceDetected then
        onAnswer (linkWriteByte (if alarm then 0xEC else 0xF0) s1) fun _ s2 => listingBits 64 1 0 s2
      else s1.enterFailure .soft (if r = .shortDetected then .busFault else .noPresence)

/-- What may be compared between two runs that differ in what they sent: the block's registers, without the sequencer
and the records. -/
structure BlockView where
  rom : Vector Byte 8
  ld : BitIndex
  lfd : BitIndex
  ldf : Bool
  found : Bool
  cause : Nibble
  excl : Bool
  cseed : Byte
  cdata : Byte
  cres : Byte
  boff : Half
  blen : Half
  buf : Memory
deriving DecidableEq, Repr

/-- The block's registers as one value. -/
def State.view (s : State) : BlockView where
  rom := s.rom
  ld := s.ld
  lfd := s.lfd
  ldf := s.ldf
  found := s.found
  cause := s.cause
  excl := s.excl
  cseed := s.cseed
  cdata := s.cdata
  cres := s.cres
  boff := s.boff
  blen := s.blen
  buf := s.buf

end Sys2Proof.Machine
end

