-- ==== Sys2Proof/Certificates/Slice0/Obligations.lean ====
section
/-! DEFINITION. The statements for the provers, from the numbered rules of spec/. -/

open Sys2Proof Sys2Proof.Machine

/-! Reset. -/

/-- R38, R230, R231: the values after reset, for any draw of `ROM`, any numbering of the draw of `BUF` and any adapter;
`TABLE` is complete; no request has been made at the link port and no channel access; and the model's reset state is
one of these (its `ROM`, and what stands in its adapter, are choices of the model, log 9, log 11 to 13). -/
def Obligations.ResetValuesAreAsStated : Prop :=
  (∀ (rom : Vector Byte 8) (epoch : Nat) (ad : Adapter),
    let s := State.resetFrom rom epoch ad
    s.ld = 0 ∧ s.lfd = 0 ∧ s.ldf = false ∧ s.rom = rom ∧ s.found = false ∧ s.cause = 0 ∧ s.excl = false ∧
      s.cseed = 0 ∧ s.cdata = 0 ∧ s.cres = 0 ∧ s.boff = 0 ∧ s.blen = 0 ∧ s.phase = .idle ∧
      (∀ k, s.bufByte k = Config.unwrittenByte epoch k) ∧ s.adapter = ad ∧ s.linkLog = []) ∧
  (∀ n : Byte, crcTable[n.toNat]? = some (tableEntry n)) ∧
  ∃ rom epoch ad, State.reset = State.resetFrom rom epoch ad

/-- R230, R38: a reset of the block gives the reset values, "issues no link transaction", and leaves the adapter and the
bridge alone. `ROM` becomes eight draws not used before, and `BUF` what a new reset number draws (log 9, log 10); that
the pending requests and the records stay is the model's choice (DESIGN CHOICE, log 35), as is the mark of a hard error,
which is cleared (log 5). -/
def Obligations.BlockResetTouchesNoBus : Prop :=
  ∀ (s : State) (rest : List Request), s.hung = false → s.requests = .blockReset :: rest →
    ∃ t, step s = .next t ∧ t.view = (State.resetFrom (drawnRom s.draws) (s.bufEpoch + 1) s.adapter).view ∧
      (∀ k, k < 8 → romByte t.rom k = Config.freeByte (s.draws + k)) ∧ t.draws = s.draws + 8 ∧
      t.bufEpoch = s.bufEpoch + 1 ∧ (∀ k, t.bufByte k = Config.unwrittenByte (s.bufEpoch + 1) k) ∧
      t.phase = .idle ∧ t.faulted = false ∧ t.hung = false ∧ t.adapter = s.adapter ∧ t.linkLog = s.linkLog ∧
      t.hostOut = s.hostOut ∧ t.requests = rest

/-! The host port. -/

/-- R36: reading a host register shows its value, zero-extended, and changes nothing else; a write-only or unlisted
number shows a free byte. -/
def Obligations.HostReadShowsTheRegister : Prop :=
  ∀ (s : State) (n : Byte) (rest : List Request), s.hung = false → s.requests = .regRead n :: rest →
    let shows (v : Half) := step s = .next { s with requests := rest, hostOut := v :: s.hostOut }
    (n = 0x01 → shows (if s.found then 1 else 0)) ∧
    (n = 0x02 → shows (s.cause.setWidth 16)) ∧
    (n = 0x03 → shows (s.ld.setWidth 16)) ∧
    (n = 0x04 → shows (s.lfd.setWidth 16)) ∧
    (n = 0x05 → shows (if s.ldf then 1 else 0)) ∧
    (n = 0x06 → shows (if s.excl then 1 else 0)) ∧
    (∀ k, k < 8 → n.toNat = 8 + k → shows ((romByte s.rom k).setWidth 16)) ∧
    (n = 0x10 → shows (s.cseed.setWidth 16)) ∧
    (n = 0x11 → shows (s.cdata.setWidth 16)) ∧
    (n = 0x12 → shows (s.cres.setWidth 16)) ∧
    (n = 0x13 → shows s.boff) ∧
    (n = 0x14 → shows s.blen) ∧
    (n = 0x00 ∨ n = 0x07 ∨ 0x14 < n → ∃ b : Byte, step s =
      .next { s with requests := rest, hostOut := b.setWidth 16 :: s.hostOut, draws := s.draws + 1 })

/-- R36: writing a host register other than `CMD` changes that operand register and nothing else; a read-only or
unlisted number is ignored. -/
def Obligations.HostWriteReachesOperandsOnly : Prop :=
  ∀ (s : State) (n : Byte) (v : Half) (rest : List Request), s.hung = false → s.requests = .regWrite n v :: rest →
    let s1 : State := { s with requests := rest }
    (n = 0x10 → step s = .next { s1 with cseed := v.setWidth 8 }) ∧
    (n = 0x11 → step s = .next { s1 with cdata := v.setWidth 8 }) ∧
    (n = 0x13 → step s = .next { s1 with boff := v }) ∧
    (n = 0x14 → step s = .next { s1 with blen := v }) ∧
    (n ≠ 0x00 → n ≠ 0x10 → n ≠ 0x11 → n ≠ 0x13 → n ≠ 0x14 → step s = .next s1)

/-- R50, R88: WB writes the one byte of `BUF` it names and RB shows it; every other byte reads as before; both stop by
name outside the space (a fault of the model, log 23). -/
def Obligations.BufferWriteChangesOneByte : Prop :=
  ∀ (s : State) (k : Nat) (v : Byte) (rest : List Request), s.hung = false →
    (s.requests = .bufWrite k v :: rest → k < s.adapter.cfg.bufSize →
      ∃ t, step s = .next t ∧ t.bufByte k = v ∧ (∀ j, j ≠ k → t.bufByte j = s.bufByte j) ∧
        t = { s with requests := rest, buf := t.buf }) ∧
    (s.requests = .bufRead k :: rest → k < s.adapter.cfg.bufSize →
      step s = .next { s with requests := rest, hostOut := (s.bufByte k).setWidth 16 :: s.hostOut }) ∧
    ((s.requests = .bufWrite k v :: rest ∨ s.requests = .bufRead k :: rest) → s.adapter.cfg.bufSize ≤ k →
      step s = .fault (.bufIndexOutside k))

/-! Encoding. -/

/-- R70 to R75, R83: the bytes of a command decode to it; `SRCH.CONT` decodes to its core name `SRCH.SEARCH 0` (R89). -/
def Obligations.DecodeOfEncodeIsTheCommand : Prop :=
  ∀ i : Instr, decode (spaceOf i) (encode i) = .ok i.core

/-- Decoding and encoding are each other's inverse: bytes of a space decode to a command exactly when it is a core
command of that space and they are its bytes. So no two core commands of a space share their bytes, and no other bytes
decode. -/
def Obligations.DecodeIsTheInverseOfEncode : Prop :=
  ∀ (sp : Space) (bytes : List Byte) (i : Instr),
    decode sp bytes = .ok i ↔ i.core = i ∧ spaceOf i = sp ∧ encode i = bytes

/-- A few words of the encoding tables, one or more of each space, written out bit by bit (R72, R75, R83). -/
def Obligations.TableWordsDecodeAsListed : Prop :=
  decode .host [0b00010000] = .ok .crcFold ∧ decode .host [0b00100011] = .ok (.srchSearch true) ∧
  decode .host [0b00110001] = .ok .exclEnd ∧ decode .bridge [0b11110000] = .ok .brDrst ∧
  decode .bridge [0b01111000, 0b11111111] = .ok (.br1wt 0xFF) ∧
  decode .bridge [0b11010010, 0b11100001] = .ok (.brWcfg 0xE1) ∧
  decode .romCmd [0b11101100] = .ok .romAlarm ∧ decode .romCmd [0b11110000] = .ok .romSearch

/-- R74: "The opcode alone decides the length": with no parameter exactly 0xF0, 0xB4 and 0x96, with one exactly the six
listed; any other sequence is no command. -/
def Obligations.BridgeOpcodeDecidesTheLength : Prop :=
  ∀ bytes : List Byte,
    (∃ i, decode .bridge bytes = .ok i) ↔
      (bytes = [0xF0] ∨ bytes = [0xB4] ∨ bytes = [0x96]) ∨
      ∃ op p : Byte, bytes = [op, p] ∧ op ∈ [0xE1, 0xD2, 0xC3, 0x87, 0xA5, (0x78 : Byte)]

/-- R73: a byte written to `CMD` outside the assigned ones changes `CAUSE` to IllegalCommand and nothing else (the
model takes this branch of R73, log 6). -/
def Obligations.IllegalCommandChangesCauseOnly : Prop :=
  ∀ (s : State) (v : Half) (rest : List Request), s.hung = false → s.requests = .regWrite 0x00 v :: rest →
    (v.setWidth 8 : Byte) ∉ [0x10, 0x11, 0x20, 0x22, 0x23, 0x30, (0x31 : Byte)] →
    step s = .next { s with requests := rest, cause := 0xB }

/-! Steps. -/

/-- When the next request is a command whose bytes decode to `i`, the step is `exec i` at the state without that
request: HOST (a write of `CMD`), BRIDGE and ROMCMD. -/
def Obligations.StepRunsTheDecodedCommand : Prop :=
  ∀ (s : State) (i : Instr) (rest : List Request), s.hung = false →
    (∀ v, s.requests = .regWrite 0x00 v :: rest → decode .host [v.setWidth 8] = .ok i →
      step s = exec i { s with requests := rest }) ∧
    (∀ bytes, s.requests = .bridge bytes :: rest → decode .bridge bytes = .ok i →
      step s = exec i { s with requests := rest }) ∧
    (∀ b, s.requests = .romCmd b :: rest → decode .romCmd [b] = .ok i →
      step s = exec i { s with requests := rest })

/-- R246, U14: a machine whose channel call never returned takes no further step ("stuck", here a fault of its own name,
log 25). -/
def Obligations.HungMachineIsStuck : Prop :=
  ∀ s : State, s.hung = true → step s = .fault .channelHung

/-- When a step stops, it is for one of the reasons named: a hung channel call, a `BUF` index outside the space, a
bridge sequence that is no command (R82: "a model of the bridge must refuse them"), or a byte that is no ROM command
(log 22, log 23). Every command of the table goes on: with a hard error, for which R207, U12 and U15 name a fault, and
into a call that never returns, which U14 calls stuck, that is the model's choice and no rule (DESIGN CHOICE, log 5,
log 25). -/
def Obligations.StepStopsOnlyWhereNamed : Prop :=
  (∀ (i : Instr) (s : State), goesOn (exec i s)) ∧
  ∀ s : State, ¬ goesOn (step s) →
    (s.hung = true ∧ step s = .fault .channelHung) ∨
    (∃ k rest, ((∃ v, s.requests = .bufWrite k v :: rest) ∨ s.requests = .bufRead k :: rest) ∧
      s.adapter.cfg.bufSize ≤ k ∧ step s = .fault (.bufIndexOutside k)) ∨
    (∃ bytes rest, s.requests = .bridge bytes :: rest ∧ (∀ i, decode .bridge bytes ≠ .ok i) ∧
      ((∃ b, step s = .refused (.unlistedOpcode b)) ∨ step s = .refused .malformedBridgeCommand)) ∨
    (∃ b rest, s.requests = .romCmd b :: rest ∧ (∀ i, decode .romCmd [b] ≠ .ok i) ∧
      step s = .refused (.unknownRomCommand b))

/-! The CRC unit. -/

/-- R190: `CRC.FOLD` and `CRC.COMPUTE`: `CRES` and `CAUSE` are written, every other register, `BUF`, the session and the
adapter are left as they are; a range outside `BUF`, its bounds added as naturals, is `MalformedInput` and leaves `CRES`
unchanged; `BLEN` = 0 gives `CSEED`. U15 and R207 name a fault for such a range; that the machine goes on with the state
R190 gives is the model's choice (DESIGN CHOICE, log 5). -/
def Obligations.CrcCommandsWriteResultAndCause : Prop :=
  (∀ s : State, exec .crcFold s = .next { s with cres := fold s.cseed s.cdata, cause := 0 }) ∧
  (∀ s : State, s.adapter.cfg.bufSize < s.boff.toNat + s.blen.toNat →
    exec .crcCompute s = .next { s with cause := 0x8 }) ∧
  (∀ s : State, s.boff.toNat + s.blen.toNat ≤ s.adapter.cfg.bufSize →
    exec .crcCompute s =
      .next { s with cres := foldBytes s.cseed ((List.range s.blen.toNat).map fun j => s.bufByte (s.boff.toNat + j)),
                     cause := 0 }) ∧
  (∀ s : State, s.blen = 0 → s.boff.toNat ≤ s.adapter.cfg.bufSize →
    exec .crcCompute s = .next { s with cres := s.cseed, cause := 0 })

/-- R182: the 256 entries of the table, written out; it is a permutation of 0..255. -/
def Obligations.CrcTableIsAsPrinted : Prop :=
  crcTable =
    [0x00, 0x5E, 0xBC, 0xE2, 0x61, 0x3F, 0xDD, 0x83, 0xC2, 0x9C, 0x7E, 0x20, 0xA3, 0xFD, 0x1F, 0x41] ++
    [0x9D, 0xC3, 0x21, 0x7F, 0xFC, 0xA2, 0x40, 0x1E, 0x5F, 0x01, 0xE3, 0xBD, 0x3E, 0x60, 0x82, 0xDC] ++
    [0x23, 0x7D, 0x9F, 0xC1, 0x42, 0x1C, 0xFE, 0xA0, 0xE1, 0xBF, 0x5D, 0x03, 0x80, 0xDE, 0x3C, 0x62] ++
    [0xBE, 0xE0, 0x02, 0x5C, 0xDF, 0x81, 0x63, 0x3D, 0x7C, 0x22, 0xC0, 0x9E, 0x1D, 0x43, 0xA1, 0xFF] ++
    [0x46, 0x18, 0xFA, 0xA4, 0x27, 0x79, 0x9B, 0xC5, 0x84, 0xDA, 0x38, 0x66, 0xE5, 0xBB, 0x59, 0x07] ++
    [0xDB, 0x85, 0x67, 0x39, 0xBA, 0xE4, 0x06, 0x58, 0x19, 0x47, 0xA5, 0xFB, 0x78, 0x26, 0xC4, 0x9A] ++
    [0x65, 0x3B, 0xD9, 0x87, 0x04, 0x5A, 0xB8, 0xE6, 0xA7, 0xF9, 0x1B, 0x45, 0xC6, 0x98, 0x7A, 0x24] ++
    [0xF8, 0xA6, 0x44, 0x1A, 0x99, 0xC7, 0x25, 0x7B, 0x3A, 0x64, 0x86, 0xD8, 0x5B, 0x05, 0xE7, 0xB9] ++
    [0x8C, 0xD2, 0x30, 0x6E, 0xED, 0xB3, 0x51, 0x0F, 0x4E, 0x10, 0xF2, 0xAC, 0x2F, 0x71, 0x93, 0xCD] ++
    [0x11, 0x4F, 0xAD, 0xF3, 0x70, 0x2E, 0xCC, 0x92, 0xD3, 0x8D, 0x6F, 0x31, 0xB2, 0xEC, 0x0E, 0x50] ++
    [0xAF, 0xF1, 0x13, 0x4D, 0xCE, 0x90, 0x72, 0x2C, 0x6D, 0x33, 0xD1, 0x8F, 0x0C, 0x52, 0xB0, 0xEE] ++
    [0x32, 0x6C, 0x8E, 0xD0, 0x53, 0x0D, 0xEF, 0xB1, 0xF0, 0xAE, 0x4C, 0x12, 0x91, 0xCF, 0x2D, 0x73] ++
    [0xCA, 0x94, 0x76, 0x28, 0xAB, 0xF5, 0x17, 0x49, 0x08, 0x56, 0xB4, 0xEA, 0x69, 0x37, 0xD5, 0x8B] ++
    [0x57, 0x09, 0xEB, 0xB5, 0x36, 0x68, 0x8A, 0xD4, 0x95, 0xCB, 0x29, 0x77, 0xF4, 0xAA, 0x48, 0x16] ++
    [0xE9, 0xB7, 0x55, 0x0B, 0x88, 0xD6, 0x34, 0x6A, 0x2B, 0x75, 0x97, 0xC9, 0x4A, 0x14, 0xF6, 0xA8] ++
    [0x74, 0x2A, 0xC8, 0x96, 0x15, 0x4B, 0xA9, 0xF7, 0xB6, 0xE8, 0x0A, 0x54, 0xD7, 0x89, 0x6B, (0x35 : Byte)] ∧
  crcTable.Nodup

/-- R187: the table form and the bit-serial form agree on every seed and byte. -/
def Obligations.FoldEqualsBitSerialForm : Prop :=
  ∀ seed byte : Byte, fold seed byte = foldSerial seed byte

/-- R184: a range outside the buffer is `MalformedInput`; `length` = 0 returns the seed; bytes are folded in ascending
order; a run may be fed back as the seed of the next; zero bytes keep a zero register. -/
def Obligations.ComputeFoldsSequentially : Prop :=
  (∀ buf off len seed, compute buf off len seed = none ↔ buf.length < off + len) ∧
  (∀ buf off seed, off ≤ buf.length → compute buf off 0 seed = some seed) ∧
  (∀ buf off len seed b, off + len < buf.length → buf[off]? = some b →
    compute buf off (len + 1) seed = compute buf (off + 1) len (crcTable.getD (seed ^^^ b).toNat 0)) ∧
  (∀ x y seed, compute (x ++ y) 0 (x.length + y.length) seed =
    (compute x 0 x.length seed).bind fun c => compute y 0 y.length c) ∧
  (∀ n, compute (List.replicate n 0) 0 n 0 = some 0)

/-- R188: (a) `fold(c, c)` is 0; (b) the CRC over all eight bytes is 0 exactly for a matching check byte; (c) seven zero
bytes give 0; (d) `fold` is a bijection in the seed, and two codes that differ in one byte of 0..6 (so in one bit) have
different CRCs. -/
def Obligations.CheckByteProperties : Prop :=
  (∀ c : Byte, fold c c = 0) ∧
  (∀ rom : Vector Byte 8, compute rom.toList 0 8 0 = some 0 ↔ compute rom.toList 0 7 0 = some (romByte rom 7)) ∧
  (compute [0, 0, 0, 0, 0, 0, 0] 0 7 0 = some 0) ∧
  (∀ byte : Byte, Function.Bijective fun seed => fold seed byte) ∧
  (∀ (x : List Byte) (k : Nat) (b v : Byte), x.length = 7 → x[k]? = some b → v ≠ b → crc8 (x.set k v) ≠ crc8 x)

/-! The exclusive-session marker. -/

/-- R28, R210: the marker is set and cleared, `CAUSE` is None, nothing else changes, whatever the marker was; and "no
rule reads `EXCL`": any other command runs the same whether it is 0 or 1. -/
def Obligations.ExclusiveMarkerIsAPlainFlag : Prop :=
  (∀ s : State, exec .exclBegin s = .next { s with excl := true, cause := 0 } ∧
    exec .exclEnd s = .next { s with excl := false, cause := 0 }) ∧
  (∀ (i : Instr) (s t : State) (b : Bool), i ≠ .exclBegin → i ≠ .exclEnd → exec i s = .next t →
    exec i { s with excl := b } = .next { t with excl := b })

/-! ROM bits. -/

/-- R51: index `i` names bit `(i-1) mod 8`, least significant first, of byte `(i-1) / 8`; `setBit` changes that bit and
no other. -/
def Obligations.RomBitIndexMap : Prop :=
  ∀ (rom : Vector Byte 8) (i : BitIndex) (v : Bool), 1 ≤ i → i ≤ 64 →
    getBit rom i = (romByte rom ((i.toNat - 1) / 8)).getLsbD ((i.toNat - 1) % 8) ∧
    getBit (setBit rom i v) i = v ∧
    (∀ j : BitIndex, 1 ≤ j → j ≤ 64 → j ≠ i → getBit (setBit rom i v) j = getBit rom j) ∧
    (∀ k, k < 8 → k ≠ (i.toNat - 1) / 8 → romByte (setBit rom i v) k = romByte rom k)

/-! The search, row by row. -/

/-- R142: a search entered with `LDF` set resets the session, writes `FOUND` 0 and `CAUSE` EnumerationDone, and makes no
link transaction; `ROM` and all else stay, but for the sequencer's registers, which hold nothing outside a search (R31,
R200, log 32). -/
def Obligations.SearchAfterLastDeviceEnds : Prop :=
  ∀ (s : State) (a : Bool), s.ldf = true →
    exec (.srchSearch a) s =
      .next { s.withoutSequencer with ld := 0, lfd := 0, ldf := false, found := false, cause := 0x9 }

/-- R140, R155: `SRCH.BEGIN` is the session reset, which leaves `ROM`, and then a normal search (the model's mark of an
earlier hard error is cleared with it, log 5). -/
def Obligations.BeginIsSessionResetThenSearch : Prop :=
  ∀ s : State, exec .srchBegin s =
    exec (.srchSearch false) { s with ld := 0, lfd := 0, ldf := false, faulted := false }

/-- R141: `SRCH.CONT` is `SRCH.SEARCH 0`, and with a session that is zero it behaves exactly like `SRCH.BEGIN`
(and with no earlier hard error marked, a field of the model, log 5). -/
def Obligations.ContinueIsNormalSearch : Prop :=
  (∀ s : State, exec .srchCont s = exec (.srchSearch false) s) ∧
  ∀ s : State, s.ld = 0 → s.lfd = 0 → s.ldf = false → s.faulted = false → exec .srchCont s = exec .srchBegin s

/-- R143: a bus reset that answers anything but a presence pulse ends the search: session reset, `FOUND` 0, `CAUSE`
BusFault or NoPresence, `ROM` untouched, no further request. The sequencer's registers have no meaning then (R31) and are
left out of the comparison. -/
def Obligations.FailedBusResetEndsTheSearch : Prop :=
  ∀ (s : State) (a : Bool) (r : BusResetResult) (ad : Adapter), s.hung = false → s.ldf = false →
    busReset s.adapter = .ok r ad → r ≠ .presenceDetected →
    ∃ t, exec (.srchSearch a) s = .next t ∧ t.phase = .idle ∧
      t.withoutSequencer = { s.withoutSequencer with
        ld := 0, lfd := 0, ldf := false, found := false,
        cause := if r = .shortDetected then 0x1 else 0x2,
        adapter := ad, linkLog := .busReset (some r) :: s.linkLog }

/-- R144, R145: after a presence pulse the command byte is 0xEC for the alarm variant and 0xF0 otherwise, and the loop
starts at index 1 with `lastZero` 0. -/
def Obligations.CommandByteAndLoopStart : Prop :=
  ∀ (s : State) (ad : Adapter), writeByte (if s.alarm then 0xEC else 0xF0) s.adapter = .ok () ad →
    cmdRow s =
      { s with adapter := ad, linkLog := .writeByte (if s.alarm then 0xEC else 0xF0) true :: s.linkLog,
               lastZero := 0, i := 1, dir := direction s.ld 1 s.rom, phase := .sBit }

/-- R146: below `LD` the stored bit, at `LD` 1, above it 0. -/
def Obligations.ProvisionalDirection : Prop :=
  ∀ (ld i : BitIndex) (rom : Vector Byte 8),
    (i.toNat < ld.toNat → direction ld i rom = getBit rom i) ∧
    (i = ld → direction ld i rom = true) ∧
    (ld.toNat < i.toNat → direction ld i rom = false)

/-- R147 to R150: what one triplet answer does: abort without storing when both read bits are set (`CAUSE`
NoResponse; the sequencer's registers, which have no meaning then, are left out of the comparison); otherwise record a
discrepancy resolved to 0 in `lastZero`, and in `LFD` for an index up to 8; store the bit taken; then the next index with
its direction, or the check after index 64. Bits 0 to 4 of the answer are not read. -/
def Obligations.TripletAnswerIsTaken : Prop :=
  (∀ (s : State) (st : Byte), st.getLsbD 5 = true → st.getLsbD 6 = true →
    (s.takeStatus st).phase = .idle ∧ (s.takeStatus st).withoutSequencer =
      { s.withoutSequencer with ld := 0, lfd := 0, ldf := false, found := false, cause := 0x3 }) ∧
  (∀ (s : State) (st : Byte), ¬ (st.getLsbD 5 = true ∧ st.getLsbD 6 = true) →
    let zero := st.getLsbD 5 = false ∧ st.getLsbD 6 = false ∧ st.getLsbD 7 = false
    let s1 : State :=
      { s with lastZero := if zero then s.i else s.lastZero
               lfd := if zero ∧ s.i ≤ 8 then s.i else s.lfd
               rom := setBit s.rom s.i (st.getLsbD 7) }
    (s.i = 64 → s.takeStatus st = { s1 with phase := .sCheck }) ∧
    (s.i ≠ 64 → s.takeStatus st =
      { s1 with i := s.i + 1, dir := direction s.ld (s.i + 1) s1.rom, phase := .sBit })) ∧
  (∀ (s : State) (st st' : Byte), st.extractLsb' 5 3 = st'.extractLsb' 5 3 → s.takeStatus st = s.takeStatus st')

/-- R151, R152, R153: after 64 bits, a check byte that does not match fails the search with IntegrityFailure; a matching
all-zero code fails it with AllZeroRom; otherwise `LD` is `lastZero`, `LDF` says whether that is 0, `FOUND` is 1 and
`CAUSE` None, and `LFD` stays. The sequencer is idle; its other registers have no meaning then (R31)
and are left out of the comparison. -/
def Obligations.CompletionConditions : Prop :=
  ∀ s : State,
    let t := checkRow s
    let failed (c : Nibble) : State :=
      { s.withoutSequencer with ld := 0, lfd := 0, ldf := false, found := false, cause := c }
    t.phase = .idle ∧
    (compute s.rom.toList 0 7 0 ≠ some (romByte s.rom 7) → t.withoutSequencer = failed 0x6) ∧
    (compute s.rom.toList 0 7 0 = some (romByte s.rom 7) → (∀ k, k < 8 → romByte s.rom k = 0) →
      t.withoutSequencer = failed 0xA) ∧
    (compute s.rom.toList 0 7 0 = some (romByte s.rom 7) → (∃ k, k < 8 ∧ romByte s.rom k ≠ 0) →
      t.withoutSequencer =
        { s.withoutSequencer with ld := s.lastZero, ldf := decide (s.lastZero = 0), found := true, cause := 0 })

/-- R161: a link request that ends in a hard error ends the search at its row: `FOUND` 0, `CAUSE` TransportError, no
session reset, everything else as it stood (the model marks the session faulted, log 5; the sequencer's registers hold
nothing afterwards, log 32). -/
def Obligations.HardErrorEndsTheRow : Prop :=
  ∀ (s : State) (ad : Adapter),
    let ended (e : LinkEvent) : State :=
      { s.withoutSequencer with
        found := false, cause := 0x7, faulted := true, adapter := ad, linkLog := e :: s.linkLog }
    (busReset s.adapter = .raised ad → resetRow s = ended (.busReset none)) ∧
    (writeByte (searchCommandByte s.alarm) s.adapter = .raised ad →
      cmdRow s = ended (.writeByte (searchCommandByte s.alarm) false)) ∧
    (triplet s.dir s.adapter = .raised ad → bitRow s = ended (.triplet s.dir none))

/-- R160, R105, R241, R242: a triplet that times out inside a search, whether or not its recovery times out too, answers
the sentinel 0x00, which the search takes as a discrepancy resolved to 0: `lastZero` (and `LFD` up to index 8) record the
index, its bit is cleared, and the search goes on. A command byte of step 3 that times out is silent: the search goes on to
its triplets. -/
def Obligations.TimeoutsInsideASearchAreNotFailures : Prop :=
  ∀ (s : State) (x : Byte) (bs : List Byte) (answers rest : List ChanAnswer) (n : Nat),
    s.adapter.chanOpen = true → bs.length = 16 → (∀ b ∈ bs, busy b = true) → RecoveryAnswers answers n →
    s.adapter.script = .done x :: bs.map .done ++ answers ++ rest →
    (let t := bitRow s
     t.linkLog = .triplet s.dir (some 0x00) :: s.linkLog ∧ t.lastZero = s.i ∧
      t.lfd = (if s.i ≤ 8 then s.i else s.lfd) ∧ t.rom = setBit s.rom s.i false ∧
      t.phase = (if s.i = 64 then .sCheck else .sBit) ∧ (s.i ≠ 64 → t.i = s.i + 1) ∧ t.hung = s.hung ∧
      t.found = s.found ∧ t.cause = s.cause ∧ t.ld = s.ld ∧ t.ldf = s.ldf ∧ t.adapter.script = rest) ∧
    (let t := cmdRow s
     t.phase = .sBit ∧ t.i = 1 ∧ t.lastZero = 0 ∧ t.hung = s.hung ∧ t.found = s.found ∧ t.cause = s.cause ∧
      t.adapter.script = rest ∧ t.linkLog = .writeByte (searchCommandByte s.alarm) true :: s.linkLog)

/-! The search as a whole. -/

/-- R246, R156: a search is over after its rows: the sequencer is idle, or a channel call never returned. It hangs only
on an answer that says so, one listed or a free one; over answers none of which does, 34 for each of its 66 link requests
(a write and 16 reads, and the same for a recovery), it is idle. That it goes on after a hard error (log 5) and into the
hang (log 25) is the model's choice. -/
def Obligations.EverySearchEnds : Prop :=
  ∀ (s : State) (a : Bool), s.hung = false →
    ∃ t, exec (.srchSearch a) s = .next t ∧ (t.hung = true ∨ t.phase = .idle) ∧
      (t.hung = true → .never ∈ s.adapter.script ∨ ∃ n, s.adapter.draws ≤ n ∧ Config.freeAnswer n = .never) ∧
      (66 * 34 ≤ s.adapter.script.length → .never ∉ s.adapter.script → t.hung = false ∧ t.phase = .idle)

/-- The frame of the search commands: the marker, the CRC registers, `BUF`, the parameters, the pending requests and the
host's records stay (R140 to R155 write none of them; R189: the check does not pass through the host latches). -/
def Obligations.SearchFrame : Prop :=
  ∀ (s t : State), ∀ i ∈ [Instr.srchBegin, Instr.srchSearch false, Instr.srchSearch true, Instr.srchCont],
    exec i s = .next t →
    t.excl = s.excl ∧ t.cseed = s.cseed ∧ t.cdata = s.cdata ∧ t.cres = s.cres ∧ t.boff = s.boff ∧ t.blen = s.blen ∧
      t.buf = s.buf ∧ t.bufEpoch = s.bufEpoch ∧ (∀ k, t.bufByte k = s.bufByte k) ∧ t.requests = s.requests ∧
      t.hostOut = s.hostOut ∧ t.draws = s.draws ∧ t.adapter.cfg = s.adapter.cfg ∧
      t.adapter.chanOpen = s.adapter.chanOpen ∧ t.adapter.result = s.adapter.result ∧ t.adapter.block = s.adapter.block

/-- R154, R205: a search that returns false without a hard error has reset the session, and its cause is one of the
six; a search that returns true has `CAUSE` None. Such a search leaves the model's mark of a hard error (log 5). -/
def Obligations.FailedSearchResetsTheSession : Prop :=
  ∀ (s t : State) (a : Bool), s.hung = false → exec (.srchSearch a) s = .next t → t.hung = false →
    (t.found = true ↔ t.cause = 0) ∧
    (t.found = false → t.cause ≠ 0x7 →
      t.ld = 0 ∧ t.lfd = 0 ∧ t.ldf = false ∧
        t.cause ∈ [0x1, 0x2, 0x3, 0x6, 0x9, (0xA : Nibble)] ∧ t.faulted = s.faulted)

/-- R161: a search that ends with TransportError keeps the `LD` and `LDF` it was entered with, and its last link
request got no answer (the model goes on after it and marks the session faulted, log 5). -/
def Obligations.HardErrorKeepsLdAndLdf : Prop :=
  ∀ (s t : State) (a : Bool), s.hung = false → exec (.srchSearch a) s = .next t → t.hung = false → t.cause = 0x7 →
    t.ld = s.ld ∧ t.ldf = s.ldf ∧ t.found = false ∧ t.faulted = true ∧ t.phase = .idle ∧
    (∃ log, t.linkLog = .busReset none :: log ∨ t.linkLog = .writeByte (searchCommandByte a) false :: log ∨
      ∃ d, t.linkLog = .triplet d none :: log)

/-- R62: the link transactions of one search command, in order; none when `LDF` is set on entry, which `SRCH.BEGIN`
clears first; the CRC and marker commands make none. -/
def Obligations.LinkTransactionsOfASearch : Prop :=
  (∀ (s t : State) (a : Bool), s.hung = false → exec (.srchSearch a) s = .next t →
    ∃ events, LinkRequests s t events ∧ (s.ldf = true → events = []) ∧ (s.ldf = false → SearchRun a events)) ∧
  (∀ (s t : State), s.hung = false → exec .srchCont s = .next t →
    ∃ events, LinkRequests s t events ∧ (s.ldf = true → events = []) ∧ (s.ldf = false → SearchRun false events)) ∧
  (∀ (s t : State), s.hung = false → exec .srchBegin s = .next t →
    ∃ events, LinkRequests s t events ∧ SearchRun false events) ∧
  (∀ (s t : State), ∀ i ∈ [Instr.crcFold, Instr.crcCompute, Instr.exclBegin, Instr.exclEnd],
    exec i s = .next t → t.linkLog = s.linkLog ∧ t.adapter = s.adapter)

/-- R158 (b): after `FOUND` = 1 the 64 triplets gave statuses such that ROM bit k is the bit taken by triplet k and `LD`
is the highest index resolved to 0, or 0; and `LDF` says whether that is 0. -/
def Obligations.FoundCodeIsWhatTheTripletsTook : Prop :=
  ∀ (s t : State) (a : Bool), s.hung = false → exec (.srchSearch a) s = .next t → t.hung = false → t.found = true →
    ∃ (dirs : List Bool) (sts : List Byte), dirs.length = 64 ∧ sts.length = 64 ∧
      LinkRequests s t (.busReset (some .presenceDetected) :: .writeByte (searchCommandByte a) true ::
        (dirs.zip sts).map fun p => .triplet p.1 (some p.2)) ∧
      RomIsTaken sts t.rom ∧ HighestZero sts t.ld ∧ t.ldf = decide (t.ld = 0)

/-- R158 (e), R146: the directions a search asks: below the `LD` it was entered with the bits of the `ROM` it was entered
with, 1 at `LD`, 0 above. -/
def Obligations.DirectionsReplayTheLastCode : Prop :=
  ∀ (s t : State) (a : Bool), s.hung = false → s.ldf = false → exec (.srchSearch a) s = .next t →
    ∃ events, LinkRequests s t events ∧
      ∀ k d st, events[k + 2]? = some (.triplet d st) →
        d = (if k + 1 < s.ld.toNat then getBit s.rom (BitVec.ofNat 7 (k + 1)) else decide (k + 1 = s.ld.toNat))

/-- R158 (d): two searches in a row cannot both end an enumeration. -/
def Obligations.EnumerationEndsOnceInARow : Prop :=
  ∀ (s t u : State) (a b : Bool), s.hung = false → exec (.srchSearch a) s = .next t → t.hung = false →
    exec (.srchSearch b) t = .next u → u.hung = false → t.cause = 0x9 → u.cause ≠ 0x9

/-- R37: the session invariant is kept by every step, from every state that meets it. "No hard error since" is read from the
model's mark `faulted` (log 5), and a hung machine is inside its command (log 25). -/
def Obligations.SessionInvariantIsKept : Prop :=
  ∀ s t : State, SessionInv s → step s = .next t → SessionInv t

/-- R37 at reset, for every draw, and at the model's reset state. -/
def Obligations.SessionInvariantAtReset : Prop :=
  (∀ rom epoch ad, SessionInv (State.resetFrom rom epoch ad)) ∧ SessionInv State.reset

/-- The sequencer is idle between requests, its registers hold nothing of the last search (R31, R200; zero, log 32), `BUF`
keeps its canonical form and lists no index outside the space (R50), and no step changes the parameters (R12, log 12). -/
def Obligations.QuietAndBufferInvariantsAreKept : Prop :=
  (∀ s t : State, QuietInv s → step s = .next t → QuietInv t) ∧
  (∀ s t : State, BufInv s → step s = .next t → BufInv t) ∧
  (∀ s t : State, step s = .next t → t.adapter.cfg = s.adapter.cfg) ∧
  (∀ rom epoch ad, QuietInv (State.resetFrom rom epoch ad) ∧ BufInv (State.resetFrom rom epoch ad))

/-- R22 to R25: `ROM`, `LD`, `LFD`, `LDF` and `FOUND` change in a step only when it runs a search command or a reset of
the block; the host port cannot write them. -/
def Obligations.OnlySearchesChangeTheSession : Prop :=
  ∀ s t : State, step s = .next t →
    (t.rom = s.rom ∧ t.ld = s.ld ∧ t.lfd = s.lfd ∧ t.ldf = s.ldf ∧ t.found = s.found) ∨
    (∃ rest, s.requests = .blockReset :: rest) ∨
    (∃ v rest, s.requests = .regWrite 0x00 v :: rest ∧ (v.setWidth 8 : Byte) ∈ [0x20, 0x22, (0x23 : Byte)])

/-- R140: what `SRCH.BEGIN` gives does not depend on the session or the `ROM` left before: two states that differ only
there get the same answers, the same requests, and, when the search finds a code, the same block. -/
def Obligations.BeginIgnoresWhatWasLeft : Prop :=
  ∀ (s t t' : State) (rom : Vector Byte 8) (ld lfd : BitIndex) (ldf faulted : Bool),
    exec .srchBegin s = .next t →
    exec .srchBegin { s with rom := rom, ld := ld, lfd := lfd, ldf := ldf, faulted := faulted } = .next t' →
    t.adapter = t'.adapter ∧ t.linkLog = t'.linkLog ∧ t.hung = t'.hung ∧
      (s.hung = false → t.hung = false →
        t.found = t'.found ∧ t.cause = t'.cause ∧ t.ld = t'.ld ∧ t.lfd = t'.lfd ∧ t.ldf = t'.ldf ∧
          (t.found = true → t.view = t'.view))

/-- R162: "The alarm variant differs from the normal search in the command byte of step 3 only": on the same channel
answers both leave the same block, use the same answers, and make the same link requests but for that byte. -/
def Obligations.AlarmVariantDiffersInOneByte : Prop :=
  ∀ s t t' : State, exec (.srchSearch false) s = .next t → exec (.srchSearch true) s = .next t' →
    t.view = t'.view ∧ t.hung = t'.hung ∧ t.faulted = t'.faulted ∧ t.adapter.script = t'.adapter.script ∧
      t.adapter.draws = t'.adapter.draws ∧
      ∃ events, LinkRequests s t' events ∧ LinkRequests s t (events.map withoutAlarm)

/-- R156: the walk of the sequencer is the assembled listing of section 5: the same end state, but for the sequencer's
own registers, which have no meaning outside a search. -/
def Obligations.SequencerRefinesTheListing : Prop :=
  ∀ (s t : State) (a : Bool), s.hung = false → exec (.srchSearch a) s = .next t →
    t.withoutSequencer = (listingSearch a s).withoutSequencer

/-- A search over channel answers that give a presence pulse and 64 clean statuses completes for each of the three
commands: it uses exactly those answers, ROM bit k is the bit taken by triplet k, and it returns true exactly when the
check byte matches and the code is not all zero (R140 to R153). -/
def Obligations.SearchOverCleanAnswersCompletes : Prop :=
  ∀ (s : State) (r w : Byte) (sts : List Byte) (rest : List ChanAnswer) (i : Instr),
    s.hung = false → s.adapter.chanOpen = true → s.adapter.script = searchAnswers r w sts ++ rest →
    busy r = false → presencePulse r = true → busy w = false → CleanStatuses sts →
    (i = .srchBegin ∨ (s.ldf = false ∧ (i = .srchCont ∨ ∃ a, i = .srchSearch a))) →
    ∃ t, exec i s = .next t ∧ t.hung = false ∧ t.phase = .idle ∧ t.adapter.script = rest ∧ RomIsTaken sts t.rom ∧
      (compute t.rom.toList 0 7 0 = some (romByte t.rom 7) → (∃ k, k < 8 ∧ romByte t.rom k ≠ 0) →
        t.found = true ∧ t.cause = 0 ∧ HighestZero sts t.ld ∧ t.ldf = decide (t.ld = 0)) ∧
      (compute t.rom.toList 0 7 0 ≠ some (romByte t.rom 7) → t.found = false ∧ t.cause = 0x6) ∧
      (compute t.rom.toList 0 7 0 = some (romByte t.rom 7) → (∀ k, k < 8 → romByte t.rom k = 0) →
        t.found = false ∧ t.cause = 0xA)

/-! The bridge command protocol and the one-wire link. -/

/-- R75, R83: the bridge and ROM commands leave the OWSC block as it is: all they may change is the adapter. That each of
them goes on, also with a TransportError, for which R207 names a fault (DESIGN CHOICE, log 5), and into a call that never
returns, which marks the machine hung (DESIGN CHOICE, log 25), is the model's choice. -/
def Obligations.BridgeAndRomCommandsLeaveTheBlock : Prop :=
  ∀ (i : Instr) (s : State), spaceOf i ≠ .host →
    ∃ t, exec i s = .next t ∧ t = { s with adapter := t.adapter, hung := t.hung } ∧
      t.adapter.cfg = s.adapter.cfg ∧ t.adapter.chanOpen = s.adapter.chanOpen ∧ t.adapter.block = s.adapter.block

/-- R100: PollLoop makes at least one and at most 16 reads; it returns the first byte read with busy clear, and
`PollTimeout` after exactly 16 busy ones; it writes nothing; a read that fails ends it with `TransportError`, even the
16th (R204 (d)). -/
def Obligations.PollLoopIsBounded : Prop :=
  (∀ (a a' : Adapter) (st : Byte), pollLoop a = .ok (some st) a' →
    busy st = false ∧ ∃ n, 1 ≤ n ∧ n ≤ 16 ∧ a'.chanLog = List.replicate n .read ++ a.chanLog) ∧
  (∀ a a' : Adapter, pollLoop a = .ok none a' → a'.chanLog = List.replicate 16 .read ++ a.chanLog) ∧
  (∀ (a : Adapter) (bs : List Byte) (st : Byte) (rest : List ChanAnswer), a.chanOpen = true → PollCompletes bs st →
    a.script = bs.map .done ++ .done st :: rest →
    ∃ a', pollLoop a = .ok (some st) a' ∧ a'.script = rest ∧
      a'.chanLog = List.replicate (bs.length + 1) .read ++ a.chanLog) ∧
  (∀ (a : Adapter) (bs : List Byte) (rest : List ChanAnswer), a.chanOpen = true → bs.length = 16 →
    (∀ b ∈ bs, busy b = true) → a.script = bs.map .done ++ rest →
    ∃ a', pollLoop a = .ok none a' ∧ a'.script = rest) ∧
  (∀ (a : Adapter) (bs : List Byte) (rest : List ChanAnswer), a.chanOpen = true → bs.length < 16 →
    (∀ b ∈ bs, busy b = true) → a.script = bs.map .done ++ .ioError :: rest →
    ∃ a', pollLoop a = .raised a' ∧ a'.script = rest ∧
      a'.chanLog = List.replicate (bs.length + 1) .read ++ a.chanLog)

/-- R120 to R122, R105, R123 phase 1, R83: each polled command whose poll completes: the bytes written, the status reads
made, the result. `BR.1WRS` classifies with `PPD` before `SD`; `BR.1WSB` gives `SBR`; `BR.1WT` gives the status byte;
a ROM command is sent with the opcode 0xA5. The model's reading, no rule: that the read pointer then stands at the status
register and BridgeStatus is the byte last polled (R35, R101; DEDUCED, log 17), that `BR.1WRB` alone is phase 1 of
readByte (log 19) and leaves the Read-Data register open (log 38), and that a command runs with any parameter byte
(log 14). -/
def Obligations.PolledCommandsComplete : Prop :=
  ∀ (s : State) (x : Byte) (bs : List Byte) (st p : Byte) (rest : List ChanAnswer), s.adapter.chanOpen = true →
    s.adapter.script = polledAnswers x bs st ++ rest → PollCompletes bs st →
    let after (bytes : List Byte) (r : AdapterResult) := s.afterPolled bytes (bs.length + 1) st rest r
    exec .br1wrs s = .next (after [0xB4] (.bus (if st.getLsbD 1 then .presenceDetected
      else if st.getLsbD 2 then .shortDetected else .noPresence))) ∧
    exec (.br1wsb p) s = .next (after [0x87, p] (.bit (st.getLsbD 5))) ∧
    exec (.br1wwb p) s = .next (after [0xA5, p] .done) ∧
    (∃ received : Byte, exec .br1wrb s = .next (let t := after [0x96] .done
      { t with adapter := { t.adapter with bridge := { t.adapter.bridge with readData := received } } })) ∧
    exec (.br1wt p) s = .next (after [0x78, p] (.byte st)) ∧
    exec .romSearch s = .next (after [0xA5, 0xF0] .done) ∧
    exec .romAlarm s = .next (after [0xA5, 0xEC] .done) ∧
    exec .romMatch s = .next (after [0xA5, 0x55] .done) ∧
    exec .romSkip s = .next (after [0xA5, 0xCC] .done) ∧
    exec .romRead s = .next (after [0xA5, 0x33] .done)

/-- R102, C9: device reset: one byte F0, PollLoop, `SD` before `RST`; its own timeout returns `PollTimeout` after 16
reads and nothing more is done. What the bridge's other registers hold after it is open (U7, log 16); that the read
pointer stands at the status register is the model's reading (DEDUCED, log 16, log 17). -/
def Obligations.DeviceResetClassifies : Prop :=
  (∀ (s : State) (x : Byte) (bs : List Byte) (st : Byte) (rest : List ChanAnswer), s.adapter.chanOpen = true →
    s.adapter.script = polledAnswers x bs st ++ rest → PollCompletes bs st →
    ∃ t, exec .brDrst s = .next t ∧ t = { s with adapter := t.adapter } ∧ t.adapter.script = rest ∧
      t.adapter.chanLog = polledLog [0xF0] (bs.length + 1) s.adapter.chanLog ∧
      t.adapter.result = .reset (if st.getLsbD 2 then .busFault else .ok (st.getLsbD 4)) ∧
      t.adapter.bridge.status = st ∧ t.adapter.bridge.pointer = .status) ∧
  (∀ (s : State) (x : Byte) (bs : List Byte) (rest : List ChanAnswer), s.adapter.chanOpen = true → bs.length = 16 →
    (∀ b ∈ bs, busy b = true) → s.adapter.script = .done x :: bs.map .done ++ rest →
    ∃ t, exec .brDrst s = .next t ∧ t = { s with adapter := t.adapter } ∧ t.adapter.script = rest ∧
      t.adapter.result = .reset .pollTimeout ∧ t.adapter.chanLog = polledLog [0xF0] 16 s.adapter.chanLog)

/-- R105, R125, R206: a polled command that times out runs resetBridge exactly once, whatever that answers (it may time
out itself), and ends with its sentinel: 0x00 for the triplet, NoPresence, 0, nothing, a free byte for each phase of the
read (log 19, log 20). -/
def Obligations.TimeoutRecoversOnceAndAnswersTheSentinel : Prop :=
  ∀ (s : State) (x p : Byte) (bs : List Byte) (answers rest : List ChanAnswer) (n : Nat),
    s.adapter.chanOpen = true → bs.length = 16 → (∀ b ∈ bs, busy b = true) → RecoveryAnswers answers n →
    s.adapter.script = .done x :: bs.map .done ++ answers ++ rest →
    let timedOut (i : Instr) (bytes : List Byte) (r : AdapterResult → Prop) := ∃ t, exec i s = .next t ∧
      t.hung = s.hung ∧ t.adapter.script = rest ∧ r t.adapter.result ∧
      t.adapter.chanLog = polledLog [0xF0] n (polledLog bytes 16 s.adapter.chanLog)
    timedOut (.br1wt p) [0x78, p] (· = .byte 0x00) ∧
    timedOut .br1wrs [0xB4] (· = .bus .noPresence) ∧
    timedOut (.br1wsb p) [0x87, p] (· = .bit false) ∧
    timedOut (.br1wwb p) [0xA5, p] (· = .done) ∧
    timedOut .br1wrb [0x96] (fun r => ∃ b, r = .byte b) ∧
    timedOut (.brSrp p) [0xE1, p] (fun r => ∃ b, r = .byte b)

/-- R125, R206: the same of the operations as their callers see them: each calls resetBridge exactly once and discards its
result, then triplet answers 0x00, busReset NoPresence, writeBit and touchBit 0, writeByte nothing, readByte an
unspecified byte with no further access, whichever of its two polls timed out; resetBridge returns its own timeout and
does nothing more. -/
def Obligations.OperationsEndWithTheirSentinels : Prop :=
  ∀ (s : State) (x : Byte) (bs : List Byte) (answers rest : List ChanAnswer) (n : Nat) (rq : List Request),
    s.hung = false → s.adapter.chanOpen = true → bs.length = 16 → (∀ b ∈ bs, busy b = true) →
    RecoveryAnswers answers n →
    let log := s.adapter.chanLog
    let endsWith (op : AdapterCall) (before : List ChanAnswer) (sent : List ChanAccess) (bytes : List Byte)
        (r : AdapterResult → Prop) :=
      s.requests = .call op :: rq → s.adapter.script = before ++ (.done x :: bs.map .done) ++ answers ++ rest →
      ∃ t, step s = .next t ∧ t.hung = false ∧ t.requests = rq ∧ t.adapter.script = rest ∧ r t.adapter.result ∧
        t.adapter.chanLog = polledLog [0xF0] n (polledLog bytes 16 sent)
    (∀ d, endsWith (.triplet d) [] log [0x78, if d then 0xFF else 0x00] (· = .byte 0x00)) ∧
    endsWith .busReset [] log [0xB4] (· = .bus .noPresence) ∧
    (∀ b, endsWith (.writeBit b) [] log [0x87, encodeSingleBit s.adapter.cfg b] (· = .bit false)) ∧
    (∀ b, endsWith (.touchBit b) [] log [0x87, encodeSingleBit s.adapter.cfg b] (· = .bit false)) ∧
    (∀ v, endsWith (.writeByte v) [] log [0xA5, v] (· = .done)) ∧
    endsWith .readByte [] log [0x96] (fun r => ∃ b, r = .byte b) ∧
    (∀ y cs st, PollCompletes cs st →
      endsWith .readByte (polledAnswers y cs st) (polledLog [0x96] (cs.length + 1) log)
        [0xE1, s.adapter.cfg.readDataCode] (fun r => ∃ b, r = .byte b)) ∧
    (s.requests = .call .resetBridge :: rq → s.adapter.script = .done x :: bs.map .done ++ rest →
      ∃ t, step s = .next t ∧ t.hung = false ∧ t.requests = rq ∧ t.adapter.script = rest ∧
        t.adapter.result = .reset .pollTimeout ∧ t.adapter.chanLog = polledLog [0xF0] 16 log)

/-- R103, R34: a configuration write is two bytes and one read, without PollLoop; the byte read back is returned. Where
the channel fails the write of a command, BridgeConfig, "written only by `writeConfig`", stays as it was, but for the
device reset, after which it may hold any value (U7), and for `BR.WCFG`, which the bridge may have taken. The model's
reading: the bridge takes the nibble when the high nibble is its complement, and keeps what it had otherwise (DEDUCED,
log 15); the read pointer then stands at the configuration register (log 17); a failed write leaves open whether the
bridge took it (DESIGN CHOICE, log 36), and the machine goes on after it (DESIGN CHOICE, log 5). -/
def Obligations.WriteConfigReadsBack : Prop :=
  (∀ (i : Instr) (s : State) (rest : List ChanAnswer), spaceOf i ≠ .host → i ≠ .brDrst → s.adapter.chanOpen = true →
    s.adapter.script = .ioError :: rest →
    ∃ t, exec i s = .next t ∧ t.adapter.result = .hardError .transportError ∧ t.adapter.script = rest ∧
      (t.adapter.bridge.config = s.adapter.bridge.config ∨
        ∃ p, i = .brWcfg p ∧ configAccepted p = true ∧ t.adapter.bridge.config = p.extractLsb' 0 4)) ∧
  ∀ (s : State) (p x v : Byte) (rest : List ChanAnswer), s.adapter.chanOpen = true →
    s.adapter.script = .done x :: .done v :: rest →
    exec (.brWcfg p) s = .next { s with
      adapter := { s.adapter with
        script := rest
        draws := s.adapter.draws + 1
        chanLog := .read :: .write [0xD2, p] :: s.adapter.chanLog
        bridge := { s.adapter.bridge with
          pointer := .config
          config := if configAccepted p then p.extractLsb' 0 4 else s.adapter.bridge.config }
        result := .byte v } }

/-- R76, R77: the parameter of writeConfig carries the nibble below and its complement above, and is the byte T1 prints;
the parameter of triplet is 0xFF or 0x00; these are the bytes the two operations write. -/
def Obligations.ParameterAssembly : Prop :=
  (∀ n : Nibble, (encodeConfig n).extractLsb' 0 4 = n ∧ (encodeConfig n).extractLsb' 4 4 = n ^^^ 0xF ∧
    configAccepted (encodeConfig n) = true) ∧
  ((List.range 16).map fun n => encodeConfig (BitVec.ofNat 4 n)) =
    [0xF0, 0xE1, 0xD2, 0xC3, 0xB4, 0xA5, 0x96, 0x87, 0x78, 0x69, 0x5A, 0x4B, 0x3C, 0x2D, 0x1E, 0x0F] ∧
  (∀ (n : Nibble) (a : Adapter), writeConfig n a = (chanWrite [0xD2, encodeConfig n] a).bind fun _ a1 => chanRead a1) ∧
  (∀ (d : Bool) (a : Adapter), triplet d a =
    (polledCommand [0x78, if d then 0xFF else 0x00] a).bind fun r a1 => .ok (r.getD 0x00) a1)

/-- R104: "`selectChannel(0)` sends `{0xC3, 0xF0}` and requires echo `0xB8`"; every channel of the table sends its select
byte, reads one byte, and succeeds iff that is its echo; a channel outside 0..7 is `MalformedInput` before any channel
access. The model's reading: the command itself, `BR.CHSL`, compares with the first channel that has its select byte, and
the channel asked is selected once its echo is seen (DEDUCED, log 18). U16 names a fault for a channel outside 0..7; that
the machine goes on, with the error as the result of the call, is the model's choice (DESIGN CHOICE, log 5). -/
def Obligations.SelectChannelComparesTheEcho : Prop :=
  (∀ (s : State) (ch : Int) (x v : Byte) (rest : List ChanAnswer) (rq : List Request), s.hung = false →
    s.adapter.chanOpen = true → s.adapter.script = .done x :: .done v :: rest →
    s.requests = .call (.selectChannel ch) :: rq → 0 ≤ ch → ch ≤ 7 →
    ∃ e t, (ch = 0 → e = ⟨0xF0, 0xB8⟩) ∧ (∀ k : Fin 7, ch = k + 1 → e = s.adapter.cfg.channelTable[k]) ∧
      step s = .next t ∧ t = { s with requests := rq, adapter := t.adapter } ∧ t.adapter.script = rest ∧
      t.adapter.chanLog = .read :: .write [0xC3, e.selectByte] :: s.adapter.chanLog ∧
      t.adapter.result = .bool (decide (v = e.echo)) ∧ (v = e.echo → (t.adapter.bridge.channel.toNat : Int) = ch)) ∧
  (∀ (s : State) (ch : Int) (rq : List Request), s.hung = false → ch < 0 ∨ 7 < ch →
    s.requests = .call (.selectChannel ch) :: rq →
    step s = .next { s with requests := rq, adapter := { s.adapter with result := .hardError .malformedInput } }) ∧
  (∀ (s : State) (p x v : Byte) (rest : List ChanAnswer), s.adapter.chanOpen = true →
    s.adapter.script = .done x :: .done v :: rest →
    ∃ t, exec (.brChsl p) s = .next t ∧ t = { s with adapter := t.adapter } ∧ t.adapter.script = rest ∧
      t.adapter.chanLog = .read :: .write [0xC3, p] :: s.adapter.chanLog ∧
      (p = 0xF0 → t.adapter.result = .bool (decide (v = 0xB8))) ∧
      (∀ ch echo, channelOfSelect s.adapter.cfg p = some (ch, echo) →
        t.adapter.result = .bool (decide (v = echo)) ∧ (v = echo → t.adapter.bridge.channel = ch)))

/-- R123, R244: the two phases of readByte as one call: 96, poll, E1 with the selector, poll, then one fetch, whose byte
is the result. The model's reading: `BR.SRP` alone is phase 2 (DESIGN CHOICE, log 19), and the Read-Data register then
holds the byte fetched (R35; DEDUCED, log 17, log 38). -/
def Obligations.ReadByteHasTwoPhases : Prop :=
  (∀ (s : State) (x y v : Byte) (bs cs : List Byte) (st st' : Byte) (rest : List ChanAnswer) (rq : List Request),
    s.hung = false → s.adapter.chanOpen = true → PollCompletes bs st → PollCompletes cs st' →
    s.requests = .call .readByte :: rq →
    s.adapter.script = polledAnswers x bs st ++ polledAnswers y cs st' ++ .done v :: rest →
    ∃ t, step s = .next t ∧ t.hung = false ∧ t.adapter.result = .byte v ∧ t.adapter.script = rest ∧
      t.adapter.bridge.readData = v ∧
      t.adapter.chanLog = .read :: polledLog [0xE1, s.adapter.cfg.readDataCode] (cs.length + 1)
        (polledLog [0x96] (bs.length + 1) s.adapter.chanLog)) ∧
  (∀ (s : State) (y v p : Byte) (cs : List Byte) (st : Byte) (rest : List ChanAnswer),
    s.adapter.chanOpen = true → PollCompletes cs st → s.adapter.script = polledAnswers y cs st ++ .done v :: rest →
    ∃ t, exec (.brSrp p) s = .next t ∧ t = { s with adapter := t.adapter } ∧ t.adapter.result = .byte v ∧
      t.adapter.script = rest ∧ t.adapter.chanLog = .read :: polledLog [0xE1, p] (cs.length + 1) s.adapter.chanLog ∧
      (p = s.adapter.cfg.readDataCode → t.adapter.bridge.readData = v))

/-- R124, R66: transferBlock. Over answers that complete it sends the bytes before the first 0xFF in order, each with
writeByte, and replaces every later position in order by the byte of one readByte, and makes no other access. However it
is answered it touches no byte outside its range and keeps the length; a non-sentinel byte before the first sentinel
stays; nothing at all is accessed for length 0 or for a range outside the buffer. U15 names a fault for such a range; that
the machine goes on, with the error as the result of the call (DESIGN CHOICE, log 5), and that `adapter.block` keeps the
caller's buffer as the operation left it (DESIGN CHOICE, log 26), is the model's choice. -/
def Obligations.TransferBlockStaysInItsRange : Prop :=
  (∀ (s : State) (pre post : List Byte) (ws : List (Byte × PollAnswer)) (rs : List (Byte × ReadAnswer))
      (rest : List ChanAnswer) (rq : List Request), s.hung = false → s.adapter.chanOpen = true →
    (∀ w ∈ ws, w.1 ≠ 0xFF ∧ w.2.completes) → (∀ r, rs.head? = some r → r.1 = 0xFF) → (∀ r ∈ rs, r.2.completes) →
    s.adapter.script = ws.flatMap (·.2.answers) ++ rs.flatMap (·.2.answers) ++ rest →
    s.requests =
      .call (.transferBlock (pre ++ ws.map (·.1) ++ rs.map (·.1) ++ post) pre.length (ws.length + rs.length)) :: rq →
    ∃ t, step s = .next t ∧ t = { s with requests := rq, adapter := t.adapter } ∧ t.adapter.result = .done ∧
      t.adapter.block = pre ++ ws.map (·.1) ++ rs.map (·.2.value) ++ post ∧ t.adapter.script = rest ∧
      t.adapter.chanLog =
        readsLog s.adapter.cfg.readDataCode (rs.map (·.2)) (writesLog ws s.adapter.chanLog)) ∧
  (∀ (buf : List Byte) (off len : Nat) (a : Adapter), off + len ≤ buf.length →
    let r := transferRange buf off len a
    r.1.length = buf.length ∧
    (∀ k, k < off ∨ off + len ≤ k → r.1[k]? = buf[k]?) ∧
    (∀ k, off ≤ k → (∀ j b, off ≤ j → j ≤ k → buf[j]? = some b → b ≠ 0xFF) → r.1[k]? = buf[k]?)) ∧
  (∀ (buf : List Byte) (off : Nat) (a : Adapter), off ≤ buf.length → transferRange buf off 0 a = (buf, .ok () a)) ∧
  (∀ (s : State) (buf : List Byte) (off len : Nat) (rest : List Request), s.hung = false → buf.length < off + len →
    s.requests = .call (.transferBlock buf off len) :: rest →
    step s = .next { s with requests := rest, adapter := { s.adapter with result := .hardError .malformedInput } })

/-- R107, R207: a channel access that fails ends the bridge command at once with TransportError: no recovery and no
further channel access. R207 names a fault; that the machine goes on, with the error as the result of the command, is the
model's choice (DESIGN CHOICE, log 5). -/
def Obligations.TransportErrorEndsTheCommand : Prop :=
  ∀ (i : Instr) (s t : State) (oks : List Byte) (rest : List ChanAnswer), spaceOf i ≠ .host →
    s.adapter.chanOpen = true → s.adapter.script = oks.map .done ++ .ioError :: rest →
    exec i s = .next t → t.adapter.script.length ≤ rest.length →
    t.adapter.result = .hardError .transportError ∧ t.adapter.script = rest ∧ t.hung = s.hung ∧
      t.adapter.chanLog.length = s.adapter.chanLog.length + oks.length + 1

/-- R107, R232 (1): open and close are channel calls, and either may fail, which is a TransportError of that call; after
a failed open "no operation can be issued", nor after a close of a closed channel, completed or failed. That a bridge or
ROM command on a closed channel is a TransportError without any channel access, until an open completes, is the model's
reading (DEDUCED, log 27). R207 names a fault for these errors; that the machine goes on, with the error as the result of
the call, is the model's choice (DESIGN CHOICE, log 5). -/
def Obligations.ClosedChannelIsATransportError : Prop :=
  (∀ (s : State) (x : Byte) (rest : List ChanAnswer) (rq : List Request), s.hung = false →
    s.requests = .call .closeChannel :: rq → s.adapter.script = .done x :: rest →
    ∃ t, step s = .next t ∧ t = { s with requests := rq, adapter := t.adapter } ∧ t.adapter.chanOpen = false ∧
      t.adapter.result = .done ∧ t.adapter.chanLog = .closed :: s.adapter.chanLog) ∧
  (∀ (s : State) (op : AdapterCall) (rest : List ChanAnswer) (rq : List Request), s.hung = false →
    op = .closeChannel ∨ op = .openChannel → s.requests = .call op :: rq → s.adapter.script = .ioError :: rest →
    ∃ t, step s = .next t ∧ t = { s with requests := rq, adapter := t.adapter } ∧ t.adapter.script = rest ∧
      t.adapter.result = .hardError .transportError ∧
      (op = .openChannel ∨ s.adapter.chanOpen = false → t.adapter.chanOpen = false)) ∧
  (∀ (i : Instr) (s : State), spaceOf i ≠ .host → s.adapter.chanOpen = false →
    exec i s = .next { s with adapter := { s.adapter with result := .hardError .transportError } }) ∧
  (∀ (s : State) (x : Byte) (rest : List ChanAnswer) (rq : List Request), s.hung = false →
    s.requests = .call .openChannel :: rq → s.adapter.script = .done x :: rest →
    ∃ t, step s = .next t ∧ t.adapter.chanOpen = true ∧ t.adapter.result = .done ∧
      t.adapter.chanLog = .opened s.adapter.cfg.busId s.adapter.cfg.bridgeAddress 7 s.adapter.cfg.clockSpeed ::
        s.adapter.chanLog)

/-- R200: the codes that a step may write to `CAUSE`: PollTimeout and ChannelMismatch are "never in `CAUSE`", and "Codes
0xC to 0xF are never written". -/
def Obligations.CauseCodesWritten : Prop :=
  ∀ s t : State, step s = .next t →
    t.cause = s.cause ∨ t.cause ∈ [0x0, 0x1, 0x2, 0x3, 0x6, 0x7, 0x8, 0x9, 0xA, (0xB : Nibble)]
end

