-- ==== Sys2Proof/Laws/State.lean ====
section
/-! SUPPORT. One lemma per field for each named update of State in Machine/Ops.lean: what it writes and what it leaves. -/

namespace Sys2Proof.Machine

/-! `State.sessionReset`. -/

@[simp] theorem State.sessionReset_rom (s : State) : (s.sessionReset).rom = s.rom := rfl
@[simp] theorem State.sessionReset_ld (s : State) : (s.sessionReset).ld = 0 := rfl
@[simp] theorem State.sessionReset_lfd (s : State) : (s.sessionReset).lfd = 0 := rfl
@[simp] theorem State.sessionReset_ldf (s : State) : (s.sessionReset).ldf = false := rfl
@[simp] theorem State.sessionReset_found (s : State) : (s.sessionReset).found = s.found := rfl
@[simp] theorem State.sessionReset_cause (s : State) : (s.sessionReset).cause = s.cause := rfl
@[simp] theorem State.sessionReset_excl (s : State) : (s.sessionReset).excl = s.excl := rfl
@[simp] theorem State.sessionReset_cseed (s : State) : (s.sessionReset).cseed = s.cseed := rfl
@[simp] theorem State.sessionReset_cdata (s : State) : (s.sessionReset).cdata = s.cdata := rfl
@[simp] theorem State.sessionReset_cres (s : State) : (s.sessionReset).cres = s.cres := rfl
@[simp] theorem State.sessionReset_boff (s : State) : (s.sessionReset).boff = s.boff := rfl
@[simp] theorem State.sessionReset_blen (s : State) : (s.sessionReset).blen = s.blen := rfl
@[simp] theorem State.sessionReset_buf (s : State) : (s.sessionReset).buf = s.buf := rfl
@[simp] theorem State.sessionReset_bufEpoch (s : State) : (s.sessionReset).bufEpoch = s.bufEpoch := rfl
@[simp] theorem State.sessionReset_phase (s : State) : (s.sessionReset).phase = s.phase := rfl
@[simp] theorem State.sessionReset_i (s : State) : (s.sessionReset).i = s.i := rfl
@[simp] theorem State.sessionReset_lastZero (s : State) : (s.sessionReset).lastZero = s.lastZero := rfl
@[simp] theorem State.sessionReset_dir (s : State) : (s.sessionReset).dir = s.dir := rfl
@[simp] theorem State.sessionReset_alarm (s : State) : (s.sessionReset).alarm = s.alarm := rfl
@[simp] theorem State.sessionReset_adapter (s : State) : (s.sessionReset).adapter = s.adapter := rfl
@[simp] theorem State.sessionReset_linkLog (s : State) : (s.sessionReset).linkLog = s.linkLog := rfl
@[simp] theorem State.sessionReset_hostOut (s : State) : (s.sessionReset).hostOut = s.hostOut := rfl
@[simp] theorem State.sessionReset_requests (s : State) : (s.sessionReset).requests = s.requests := rfl
@[simp] theorem State.sessionReset_draws (s : State) : (s.sessionReset).draws = s.draws := rfl
@[simp] theorem State.sessionReset_hung (s : State) : (s.sessionReset).hung = s.hung := rfl
@[simp] theorem State.sessionReset_faulted (s : State) : (s.sessionReset).faulted = s.faulted := rfl

/-! `State.leaveSearch`. -/

@[simp] theorem State.leaveSearch_rom (s : State) : (s.leaveSearch).rom = s.rom := rfl
@[simp] theorem State.leaveSearch_ld (s : State) : (s.leaveSearch).ld = s.ld := rfl
@[simp] theorem State.leaveSearch_lfd (s : State) : (s.leaveSearch).lfd = s.lfd := rfl
@[simp] theorem State.leaveSearch_ldf (s : State) : (s.leaveSearch).ldf = s.ldf := rfl
@[simp] theorem State.leaveSearch_found (s : State) : (s.leaveSearch).found = s.found := rfl
@[simp] theorem State.leaveSearch_cause (s : State) : (s.leaveSearch).cause = s.cause := rfl
@[simp] theorem State.leaveSearch_excl (s : State) : (s.leaveSearch).excl = s.excl := rfl
@[simp] theorem State.leaveSearch_cseed (s : State) : (s.leaveSearch).cseed = s.cseed := rfl
@[simp] theorem State.leaveSearch_cdata (s : State) : (s.leaveSearch).cdata = s.cdata := rfl
@[simp] theorem State.leaveSearch_cres (s : State) : (s.leaveSearch).cres = s.cres := rfl
@[simp] theorem State.leaveSearch_boff (s : State) : (s.leaveSearch).boff = s.boff := rfl
@[simp] theorem State.leaveSearch_blen (s : State) : (s.leaveSearch).blen = s.blen := rfl
@[simp] theorem State.leaveSearch_buf (s : State) : (s.leaveSearch).buf = s.buf := rfl
@[simp] theorem State.leaveSearch_bufEpoch (s : State) : (s.leaveSearch).bufEpoch = s.bufEpoch := rfl
@[simp] theorem State.leaveSearch_phase (s : State) : (s.leaveSearch).phase = .idle := rfl
@[simp] theorem State.leaveSearch_i (s : State) : (s.leaveSearch).i = 0 := rfl
@[simp] theorem State.leaveSearch_lastZero (s : State) : (s.leaveSearch).lastZero = 0 := rfl
@[simp] theorem State.leaveSearch_dir (s : State) : (s.leaveSearch).dir = false := rfl
@[simp] theorem State.leaveSearch_alarm (s : State) : (s.leaveSearch).alarm = false := rfl
@[simp] theorem State.leaveSearch_adapter (s : State) : (s.leaveSearch).adapter = s.adapter := rfl
@[simp] theorem State.leaveSearch_linkLog (s : State) : (s.leaveSearch).linkLog = s.linkLog := rfl
@[simp] theorem State.leaveSearch_hostOut (s : State) : (s.leaveSearch).hostOut = s.hostOut := rfl
@[simp] theorem State.leaveSearch_requests (s : State) : (s.leaveSearch).requests = s.requests := rfl
@[simp] theorem State.leaveSearch_draws (s : State) : (s.leaveSearch).draws = s.draws := rfl
@[simp] theorem State.leaveSearch_hung (s : State) : (s.leaveSearch).hung = s.hung := rfl
@[simp] theorem State.leaveSearch_faulted (s : State) : (s.leaveSearch).faulted = s.faulted := rfl

/-! `State.enterFailure .soft c`. -/

@[simp] theorem State.soft_rom (s : State) (c : Cause) : (s.enterFailure .soft c).rom = s.rom := rfl
@[simp] theorem State.soft_ld (s : State) (c : Cause) : (s.enterFailure .soft c).ld = 0 := rfl
@[simp] theorem State.soft_lfd (s : State) (c : Cause) : (s.enterFailure .soft c).lfd = 0 := rfl
@[simp] theorem State.soft_ldf (s : State) (c : Cause) : (s.enterFailure .soft c).ldf = false := rfl
@[simp] theorem State.soft_found (s : State) (c : Cause) : (s.enterFailure .soft c).found = false := rfl
@[simp] theorem State.soft_cause (s : State) (c : Cause) : (s.enterFailure .soft c).cause = c.code := rfl
@[simp] theorem State.soft_excl (s : State) (c : Cause) : (s.enterFailure .soft c).excl = s.excl := rfl
@[simp] theorem State.soft_cseed (s : State) (c : Cause) : (s.enterFailure .soft c).cseed = s.cseed := rfl
@[simp] theorem State.soft_cdata (s : State) (c : Cause) : (s.enterFailure .soft c).cdata = s.cdata := rfl
@[simp] theorem State.soft_cres (s : State) (c : Cause) : (s.enterFailure .soft c).cres = s.cres := rfl
@[simp] theorem State.soft_boff (s : State) (c : Cause) : (s.enterFailure .soft c).boff = s.boff := rfl
@[simp] theorem State.soft_blen (s : State) (c : Cause) : (s.enterFailure .soft c).blen = s.blen := rfl
@[simp] theorem State.soft_buf (s : State) (c : Cause) : (s.enterFailure .soft c).buf = s.buf := rfl
@[simp] theorem State.soft_bufEpoch (s : State) (c : Cause) : (s.enterFailure .soft c).bufEpoch = s.bufEpoch := rfl
@[simp] theorem State.soft_phase (s : State) (c : Cause) : (s.enterFailure .soft c).phase = .idle := rfl
@[simp] theorem State.soft_i (s : State) (c : Cause) : (s.enterFailure .soft c).i = 0 := rfl
@[simp] theorem State.soft_lastZero (s : State) (c : Cause) : (s.enterFailure .soft c).lastZero = 0 := rfl
@[simp] theorem State.soft_dir (s : State) (c : Cause) : (s.enterFailure .soft c).dir = false := rfl
@[simp] theorem State.soft_alarm (s : State) (c : Cause) : (s.enterFailure .soft c).alarm = false := rfl
@[simp] theorem State.soft_adapter (s : State) (c : Cause) : (s.enterFailure .soft c).adapter = s.adapter := rfl
@[simp] theorem State.soft_linkLog (s : State) (c : Cause) : (s.enterFailure .soft c).linkLog = s.linkLog := rfl
@[simp] theorem State.soft_hostOut (s : State) (c : Cause) : (s.enterFailure .soft c).hostOut = s.hostOut := rfl
@[simp] theorem State.soft_requests (s : State) (c : Cause) : (s.enterFailure .soft c).requests = s.requests := rfl
@[simp] theorem State.soft_draws (s : State) (c : Cause) : (s.enterFailure .soft c).draws = s.draws := rfl
@[simp] theorem State.soft_hung (s : State) (c : Cause) : (s.enterFailure .soft c).hung = s.hung := rfl
@[simp] theorem State.soft_faulted (s : State) (c : Cause) : (s.enterFailure .soft c).faulted = s.faulted := rfl

/-! `State.enterFailure .hardSearch c`. -/

@[simp] theorem State.hardSearch_rom (s : State) (c : Cause) : (s.enterFailure .hardSearch c).rom = s.rom := rfl
@[simp] theorem State.hardSearch_ld (s : State) (c : Cause) : (s.enterFailure .hardSearch c).ld = s.ld := rfl
@[simp] theorem State.hardSearch_lfd (s : State) (c : Cause) : (s.enterFailure .hardSearch c).lfd = s.lfd := rfl
@[simp] theorem State.hardSearch_ldf (s : State) (c : Cause) : (s.enterFailure .hardSearch c).ldf = s.ldf := rfl
@[simp] theorem State.hardSearch_found (s : State) (c : Cause) : (s.enterFailure .hardSearch c).found = false := rfl
@[simp] theorem State.hardSearch_cause (s : State) (c : Cause) : (s.enterFailure .hardSearch c).cause = c.code := rfl
@[simp] theorem State.hardSearch_excl (s : State) (c : Cause) : (s.enterFailure .hardSearch c).excl = s.excl := rfl
@[simp] theorem State.hardSearch_cseed (s : State) (c : Cause) : (s.enterFailure .hardSearch c).cseed = s.cseed := rfl
@[simp] theorem State.hardSearch_cdata (s : State) (c : Cause) : (s.enterFailure .hardSearch c).cdata = s.cdata := rfl
@[simp] theorem State.hardSearch_cres (s : State) (c : Cause) : (s.enterFailure .hardSearch c).cres = s.cres := rfl
@[simp] theorem State.hardSearch_boff (s : State) (c : Cause) : (s.enterFailure .hardSearch c).boff = s.boff := rfl
@[simp] theorem State.hardSearch_blen (s : State) (c : Cause) : (s.enterFailure .hardSearch c).blen = s.blen := rfl
@[simp] theorem State.hardSearch_buf (s : State) (c : Cause) : (s.enterFailure .hardSearch c).buf = s.buf := rfl
@[simp] theorem State.hardSearch_bufEpoch (s : State) (c : Cause) : (s.enterFailure .hardSearch c).bufEpoch = s.bufEpoch := rfl
@[simp] theorem State.hardSearch_phase (s : State) (c : Cause) : (s.enterFailure .hardSearch c).phase = .idle := rfl
@[simp] theorem State.hardSearch_i (s : State) (c : Cause) : (s.enterFailure .hardSearch c).i = 0 := rfl
@[simp] theorem State.hardSearch_lastZero (s : State) (c : Cause) : (s.enterFailure .hardSearch c).lastZero = 0 := rfl
@[simp] theorem State.hardSearch_dir (s : State) (c : Cause) : (s.enterFailure .hardSearch c).dir = false := rfl
@[simp] theorem State.hardSearch_alarm (s : State) (c : Cause) : (s.enterFailure .hardSearch c).alarm = false := rfl
@[simp] theorem State.hardSearch_adapter (s : State) (c : Cause) : (s.enterFailure .hardSearch c).adapter = s.adapter := rfl
@[simp] theorem State.hardSearch_linkLog (s : State) (c : Cause) : (s.enterFailure .hardSearch c).linkLog = s.linkLog := rfl
@[simp] theorem State.hardSearch_hostOut (s : State) (c : Cause) : (s.enterFailure .hardSearch c).hostOut = s.hostOut := rfl
@[simp] theorem State.hardSearch_requests (s : State) (c : Cause) : (s.enterFailure .hardSearch c).requests = s.requests := rfl
@[simp] theorem State.hardSearch_draws (s : State) (c : Cause) : (s.enterFailure .hardSearch c).draws = s.draws := rfl
@[simp] theorem State.hardSearch_hung (s : State) (c : Cause) : (s.enterFailure .hardSearch c).hung = s.hung := rfl
@[simp] theorem State.hardSearch_faulted (s : State) (c : Cause) : (s.enterFailure .hardSearch c).faulted = true := rfl

/-! `State.enterFailure .hardCrc c`. -/

@[simp] theorem State.hardCrc_rom (s : State) (c : Cause) : (s.enterFailure .hardCrc c).rom = s.rom := rfl
@[simp] theorem State.hardCrc_ld (s : State) (c : Cause) : (s.enterFailure .hardCrc c).ld = s.ld := rfl
@[simp] theorem State.hardCrc_lfd (s : State) (c : Cause) : (s.enterFailure .hardCrc c).lfd = s.lfd := rfl
@[simp] theorem State.hardCrc_ldf (s : State) (c : Cause) : (s.enterFailure .hardCrc c).ldf = s.ldf := rfl
@[simp] theorem State.hardCrc_found (s : State) (c : Cause) : (s.enterFailure .hardCrc c).found = s.found := rfl
@[simp] theorem State.hardCrc_cause (s : State) (c : Cause) : (s.enterFailure .hardCrc c).cause = c.code := rfl
@[simp] theorem State.hardCrc_excl (s : State) (c : Cause) : (s.enterFailure .hardCrc c).excl = s.excl := rfl
@[simp] theorem State.hardCrc_cseed (s : State) (c : Cause) : (s.enterFailure .hardCrc c).cseed = s.cseed := rfl
@[simp] theorem State.hardCrc_cdata (s : State) (c : Cause) : (s.enterFailure .hardCrc c).cdata = s.cdata := rfl
@[simp] theorem State.hardCrc_cres (s : State) (c : Cause) : (s.enterFailure .hardCrc c).cres = s.cres := rfl
@[simp] theorem State.hardCrc_boff (s : State) (c : Cause) : (s.enterFailure .hardCrc c).boff = s.boff := rfl
@[simp] theorem State.hardCrc_blen (s : State) (c : Cause) : (s.enterFailure .hardCrc c).blen = s.blen := rfl
@[simp] theorem State.hardCrc_buf (s : State) (c : Cause) : (s.enterFailure .hardCrc c).buf = s.buf := rfl
@[simp] theorem State.hardCrc_bufEpoch (s : State) (c : Cause) : (s.enterFailure .hardCrc c).bufEpoch = s.bufEpoch := rfl
@[simp] theorem State.hardCrc_phase (s : State) (c : Cause) : (s.enterFailure .hardCrc c).phase = s.phase := rfl
@[simp] theorem State.hardCrc_i (s : State) (c : Cause) : (s.enterFailure .hardCrc c).i = s.i := rfl
@[simp] theorem State.hardCrc_lastZero (s : State) (c : Cause) : (s.enterFailure .hardCrc c).lastZero = s.lastZero := rfl
@[simp] theorem State.hardCrc_dir (s : State) (c : Cause) : (s.enterFailure .hardCrc c).dir = s.dir := rfl
@[simp] theorem State.hardCrc_alarm (s : State) (c : Cause) : (s.enterFailure .hardCrc c).alarm = s.alarm := rfl
@[simp] theorem State.hardCrc_adapter (s : State) (c : Cause) : (s.enterFailure .hardCrc c).adapter = s.adapter := rfl
@[simp] theorem State.hardCrc_linkLog (s : State) (c : Cause) : (s.enterFailure .hardCrc c).linkLog = s.linkLog := rfl
@[simp] theorem State.hardCrc_hostOut (s : State) (c : Cause) : (s.enterFailure .hardCrc c).hostOut = s.hostOut := rfl
@[simp] theorem State.hardCrc_requests (s : State) (c : Cause) : (s.enterFailure .hardCrc c).requests = s.requests := rfl
@[simp] theorem State.hardCrc_draws (s : State) (c : Cause) : (s.enterFailure .hardCrc c).draws = s.draws := rfl
@[simp] theorem State.hardCrc_hung (s : State) (c : Cause) : (s.enterFailure .hardCrc c).hung = s.hung := rfl
@[simp] theorem State.hardCrc_faulted (s : State) (c : Cause) : (s.enterFailure .hardCrc c).faulted = s.faulted := rfl

/-! `State.succeed`. -/

@[simp] theorem State.succeed_rom (s : State) : (s.succeed).rom = s.rom := rfl
@[simp] theorem State.succeed_ld (s : State) : (s.succeed).ld = s.ld := rfl
@[simp] theorem State.succeed_lfd (s : State) : (s.succeed).lfd = s.lfd := rfl
@[simp] theorem State.succeed_ldf (s : State) : (s.succeed).ldf = s.ldf := rfl
@[simp] theorem State.succeed_found (s : State) : (s.succeed).found = s.found := rfl
@[simp] theorem State.succeed_cause (s : State) : (s.succeed).cause = 0 := rfl
@[simp] theorem State.succeed_excl (s : State) : (s.succeed).excl = s.excl := rfl
@[simp] theorem State.succeed_cseed (s : State) : (s.succeed).cseed = s.cseed := rfl
@[simp] theorem State.succeed_cdata (s : State) : (s.succeed).cdata = s.cdata := rfl
@[simp] theorem State.succeed_cres (s : State) : (s.succeed).cres = s.cres := rfl
@[simp] theorem State.succeed_boff (s : State) : (s.succeed).boff = s.boff := rfl
@[simp] theorem State.succeed_blen (s : State) : (s.succeed).blen = s.blen := rfl
@[simp] theorem State.succeed_buf (s : State) : (s.succeed).buf = s.buf := rfl
@[simp] theorem State.succeed_bufEpoch (s : State) : (s.succeed).bufEpoch = s.bufEpoch := rfl
@[simp] theorem State.succeed_phase (s : State) : (s.succeed).phase = s.phase := rfl
@[simp] theorem State.succeed_i (s : State) : (s.succeed).i = s.i := rfl
@[simp] theorem State.succeed_lastZero (s : State) : (s.succeed).lastZero = s.lastZero := rfl
@[simp] theorem State.succeed_dir (s : State) : (s.succeed).dir = s.dir := rfl
@[simp] theorem State.succeed_alarm (s : State) : (s.succeed).alarm = s.alarm := rfl
@[simp] theorem State.succeed_adapter (s : State) : (s.succeed).adapter = s.adapter := rfl
@[simp] theorem State.succeed_linkLog (s : State) : (s.succeed).linkLog = s.linkLog := rfl
@[simp] theorem State.succeed_hostOut (s : State) : (s.succeed).hostOut = s.hostOut := rfl
@[simp] theorem State.succeed_requests (s : State) : (s.succeed).requests = s.requests := rfl
@[simp] theorem State.succeed_draws (s : State) : (s.succeed).draws = s.draws := rfl
@[simp] theorem State.succeed_hung (s : State) : (s.succeed).hung = s.hung := rfl
@[simp] theorem State.succeed_faulted (s : State) : (s.succeed).faulted = s.faulted := rfl

/-! `State.illegalCommand`. -/

@[simp] theorem State.illegalCommand_rom (s : State) : (s.illegalCommand).rom = s.rom := rfl
@[simp] theorem State.illegalCommand_ld (s : State) : (s.illegalCommand).ld = s.ld := rfl
@[simp] theorem State.illegalCommand_lfd (s : State) : (s.illegalCommand).lfd = s.lfd := rfl
@[simp] theorem State.illegalCommand_ldf (s : State) : (s.illegalCommand).ldf = s.ldf := rfl
@[simp] theorem State.illegalCommand_found (s : State) : (s.illegalCommand).found = s.found := rfl
@[simp] theorem State.illegalCommand_cause (s : State) : (s.illegalCommand).cause = 0xB := rfl
@[simp] theorem State.illegalCommand_excl (s : State) : (s.illegalCommand).excl = s.excl := rfl
@[simp] theorem State.illegalCommand_cseed (s : State) : (s.illegalCommand).cseed = s.cseed := rfl
@[simp] theorem State.illegalCommand_cdata (s : State) : (s.illegalCommand).cdata = s.cdata := rfl
@[simp] theorem State.illegalCommand_cres (s : State) : (s.illegalCommand).cres = s.cres := rfl
@[simp] theorem State.illegalCommand_boff (s : State) : (s.illegalCommand).boff = s.boff := rfl
@[simp] theorem State.illegalCommand_blen (s : State) : (s.illegalCommand).blen = s.blen := rfl
@[simp] theorem State.illegalCommand_buf (s : State) : (s.illegalCommand).buf = s.buf := rfl
@[simp] theorem State.illegalCommand_bufEpoch (s : State) : (s.illegalCommand).bufEpoch = s.bufEpoch := rfl
@[simp] theorem State.illegalCommand_phase (s : State) : (s.illegalCommand).phase = s.phase := rfl
@[simp] theorem State.illegalCommand_i (s : State) : (s.illegalCommand).i = s.i := rfl
@[simp] theorem State.illegalCommand_lastZero (s : State) : (s.illegalCommand).lastZero = s.lastZero := rfl
@[simp] theorem State.illegalCommand_dir (s : State) : (s.illegalCommand).dir = s.dir := rfl
@[simp] theorem State.illegalCommand_alarm (s : State) : (s.illegalCommand).alarm = s.alarm := rfl
@[simp] theorem State.illegalCommand_adapter (s : State) : (s.illegalCommand).adapter = s.adapter := rfl
@[simp] theorem State.illegalCommand_linkLog (s : State) : (s.illegalCommand).linkLog = s.linkLog := rfl
@[simp] theorem State.illegalCommand_hostOut (s : State) : (s.illegalCommand).hostOut = s.hostOut := rfl
@[simp] theorem State.illegalCommand_requests (s : State) : (s.illegalCommand).requests = s.requests := rfl
@[simp] theorem State.illegalCommand_draws (s : State) : (s.illegalCommand).draws = s.draws := rfl
@[simp] theorem State.illegalCommand_hung (s : State) : (s.illegalCommand).hung = s.hung := rfl
@[simp] theorem State.illegalCommand_faulted (s : State) : (s.illegalCommand).faulted = s.faulted := rfl

end Sys2Proof.Machine
end

