-- ==== Sys2Proof/Laws/Ops.lean ====
section
/-! SUPPORT. The laws of the shared operations: ROM bits (R51), `BUF` (R50), the CRC function (R184), and operations
that may end in a hard error. -/

namespace Sys2Proof.Machine

/-! ROM bits. -/

theorem byteOf_lt (i : BitIndex) (h1 : 1 ≤ i) (h2 : i ≤ 64) : byteOf i < 8 := by
  revert i; decide +kernel

/-- Two indices of 1..64 in the same byte have different masks unless they are equal. -/
theorem maskOf_disjoint : ∀ i j : BitIndex, 1 ≤ i → i ≤ 64 → 1 ≤ j → j ≤ 64 → byteOf i = byteOf j → i ≠ j →
    maskOf j &&& ~~~(maskOf i) = maskOf j ∧ maskOf i &&& maskOf j = 0 := by
  decide +kernel

theorem maskOf_ne_zero : ∀ i : BitIndex, maskOf i ≠ 0 := by decide +kernel

theorem romByte_setBit (rom : Vector Byte 8) (i : BitIndex) (v : Bool) (k : Nat) (hk : k < 8) :
    romByte (setBit rom i v) k =
      if byteOf i = k then
        (if v then romByte rom k ||| maskOf i else romByte rom k &&& ~~~(maskOf i))
      else romByte rom k := by
  unfold setBit romByte
  simp only [Vector.toList_setIfInBounds, List.getD_eq_getElem?_getD, List.getElem?_set]
  by_cases h : byteOf i = k
  · subst h; simp [hk]
  · simp [h]

theorem getBit_setBit_same (rom : Vector Byte 8) (i : BitIndex) (v : Bool) (h1 : 1 ≤ i) (h2 : i ≤ 64) :
    getBit (setBit rom i v) i = v := by
  unfold getBit
  rw [romByte_setBit _ _ _ _ (byteOf_lt i h1 h2)]
  have hm := maskOf_ne_zero i
  cases v
  · simp [BitVec.and_assoc]
  · simp only [bne_iff_ne, ne_eq, if_pos]
    intro h
    apply hm
    have : (romByte rom (byteOf i) ||| maskOf i) &&& maskOf i = maskOf i := by
      ext k; simp; exact fun hx => Or.inr hx
    exact this.symm.trans h

theorem getBit_setBit_other (rom : Vector Byte 8) (i j : BitIndex) (v : Bool) (hi1 : 1 ≤ i) (hi2 : i ≤ 64)
    (hj1 : 1 ≤ j) (hj2 : j ≤ 64) (hne : i ≠ j) : getBit (setBit rom i v) j = getBit rom j := by
  unfold getBit
  rw [romByte_setBit _ _ _ _ (byteOf_lt j hj1 hj2)]
  split
  · rename_i hb
    obtain ⟨hd1, hd2⟩ := maskOf_disjoint i j hi1 hi2 hj1 hj2 hb hne
    cases v
    · simp only [Bool.false_eq_true, if_false]
      rw [BitVec.and_assoc, BitVec.and_comm (~~~maskOf i), hd1]
    · simp only [if_true]
      have : (romByte rom (byteOf j) ||| maskOf i) &&& maskOf j = romByte rom (byteOf j) &&& maskOf j := by
        rw [BitVec.and_comm, BitVec.and_or_distrib_left, BitVec.and_comm _ (maskOf i), hd2]
        simp [BitVec.and_comm]
      rw [this]
  · rfl

/-! `BUF`. -/

theorem Memory.cell?_write_same (m : Memory) (k : Nat) (v : Byte) : (m.write k v).cell? k = some v := by
  induction m with
  | nil => simp [Memory.write, Memory.cell?]
  | cons c m ih =>
    obtain ⟨a, b⟩ := c
    unfold Memory.write
    split
    · simp [Memory.cell?]
    · split
      · simp [Memory.cell?]
      · rename_i h1 h2
        simp [Memory.cell?, Ne.symm h2, ih]

theorem Memory.cell?_write_other (m : Memory) (k j : Nat) (v : Byte) (h : j ≠ k) :
    (m.write k v).cell? j = m.cell? j := by
  induction m with
  | nil => simp [Memory.write, Memory.cell?, Ne.symm h]
  | cons c m ih =>
    obtain ⟨a, b⟩ := c
    unfold Memory.write
    split
    · simp [Memory.cell?, Ne.symm h]
    · split
      · rename_i h1 h2
        subst h2
        simp [Memory.cell?, Ne.symm h]
      · simp [Memory.cell?, ih]

/-- What a write lists: the cell written, or a cell listed before. -/
theorem Memory.mem_write (m : Memory) (k : Nat) (v : Byte) (c : Host.Cell) (h : c ∈ m.write k v) :
    c = (k, v) ∨ c ∈ m := by
  induction m with
  | nil => simpa [Memory.write] using h
  | cons d m ih =>
    obtain ⟨a, b⟩ := d
    unfold Memory.write at h
    split at h
    · simpa using h
    · split at h
      · rcases List.mem_cons.1 h with h | h
        · exact .inl h
        · exact .inr (List.mem_cons_of_mem _ h)
      · rcases List.mem_cons.1 h with h | h
        · exact .inr (h ▸ List.mem_cons_self)
        · exact (ih h).imp id (List.mem_cons_of_mem _)

theorem Memory.rising_write (m : Memory) (k : Nat) (v : Byte) (h : m.Pairwise (fun x y => x.1 < y.1)) :
    (m.write k v).Pairwise (fun x y => x.1 < y.1) := by
  induction m with
  | nil => simp [Memory.write]
  | cons d m ih =>
    obtain ⟨a, b⟩ := d
    obtain ⟨h1, h2⟩ := List.pairwise_cons.1 h
    unfold Memory.write
    split
    · rename_i hk
      refine List.pairwise_cons.2 ⟨fun c hc => ?_, h⟩
      rcases List.mem_cons.1 hc with rfl | hc
      · exact hk
      · exact lt_trans hk (h1 c hc)
    · split
      · rename_i _ hk
        subst hk
        exact List.pairwise_cons.2 ⟨h1, h2⟩
      · rename_i hk1 hk2
        refine List.pairwise_cons.2 ⟨fun c hc => ?_, ih h2⟩
        rcases Memory.mem_write m k v c hc with rfl | hc
        · exact lt_of_le_of_ne (Nat.le_of_not_lt hk1) (Ne.symm hk2)
        · exact h1 c hc

/-- The only operation that changes `BUF` keeps its canonical form. -/
theorem Memory.wf_write (size : Nat) (m : Memory) (k : Nat) (v : Byte) (h : m.wf size) (hk : k < size) :
    (m.write k v).wf size :=
  ⟨m.rising_write k v h.1, fun c hc => (m.mem_write k v c hc).elim (fun e => e ▸ hk) (h.2 c)⟩

/-! The CRC function. -/

theorem foldBytes_append (seed : Byte) (x y : List Byte) : foldBytes seed (x ++ y) = foldBytes (foldBytes seed x) y :=
  List.foldl_append

theorem crcTable_length : crcTable.length = 256 := by simp [crcTable]

/-- `fold` is the table entry, which is the shifts of R181. -/
theorem fold_eq_tableEntry (seed byte : Byte) : fold seed byte = tableEntry (seed ^^^ byte) := by
  have h : (seed ^^^ byte).toNat < 256 := (seed ^^^ byte).isLt
  have hm : seed.toNat ^^^ byte.toNat < 256 := by simpa using h
  simp [fold, crcTable, hm]

/-! Operations that may end in a hard error. -/

@[simp] theorem Res.bind_ok {σ α β : Type} (v : α) (s : σ) (f : α → σ → Res σ β) : (Res.ok v s).bind f = f v s := rfl
@[simp] theorem Res.bind_raised {σ α β : Type} (s : σ) (f : α → σ → Res σ β) : (Res.raised s).bind f = .raised s := rfl
@[simp] theorem Res.bind_hung {σ α β : Type} (s : σ) (f : α → σ → Res σ β) : (Res.hung s).bind f = .hung s := rfl

/-- If an operation keeps a relation to its start, and what follows keeps it, the whole keeps it. -/
theorem Res.after_bind {σ α β : Type} (P : σ → Prop) (r : Res σ α) (f : α → σ → Res σ β) (hr : P r.after)
    (hf : ∀ v s, P s → P (f v s).after) : P (r.bind f).after := by
  cases r with
  | ok v s => exact hf v s hr
  | raised s => exact hr
  | hung s => exact hr

end Sys2Proof.Machine
end

