-- ==== Sys2Proof/Laws/Adapter.lean ====
section
/-! SUPPORT. What one channel access, a PollLoop and a polled command do: on given answers, and in general (the
parameters and the openness of the channel stay). -/

namespace Sys2Proof.Machine

/-! One access. -/

/-- A write that completes: the answer is used, the access recorded, the bridge's registers follow. -/
theorem chanWrite_done (bytes : List Byte) (a : Adapter) (x : Byte) (rest : List ChanAnswer) (ho : a.chanOpen = true)
    (hs : a.script = .done x :: rest) :
    chanWrite bytes a =
      .ok () { a with script := rest, draws := a.draws + 1, chanLog := .write bytes :: a.chanLog,
                      bridge := a.bridge.afterWrite a.cfg a.draws bytes } := by
  simp [chanWrite, Adapter.call, Adapter.nextAnswer, ho, hs]

/-- A write that fails: the answer is used, the access recorded, and open what the bridge took of it. -/
theorem chanWrite_ioError (bytes : List Byte) (a : Adapter) (rest : List ChanAnswer) (ho : a.chanOpen = true)
    (hs : a.script = .ioError :: rest) :
    chanWrite bytes a =
      .raised { a with script := rest, draws := a.draws + 1, chanLog := .write bytes :: a.chanLog,
                       bridge := a.bridge.afterFailedWrite a.cfg a.draws bytes } := by
  simp [chanWrite, Adapter.call, Adapter.nextAnswer, Adapter.afterFailedWrite, ho, hs]

/-- BridgeConfig is written only by a configuration write, and open only after a device reset (R34, U7). -/
theorem Bridge.afterWrite_config (cfg : Params) (n : Nat) (op : Byte) (ps : List Byte) (b : Bridge) (hd : op ≠ 0xD2)
    (hr : op ≠ 0xF0) : (b.afterWrite cfg n (op :: ps)).config = b.config := by
  rcases ps with _ | ⟨p, _ | ⟨q, ps⟩⟩
  · simp only [Bridge.afterWrite, if_neg hr]; split <;> rfl
  · simp only [Bridge.afterWrite, if_neg hd]; repeat' split
    all_goals rfl
  · rfl

/-- The same of a write that failed or never returned (log 36). -/
theorem Bridge.afterFailedWrite_config (cfg : Params) (n : Nat) (op : Byte) (ps : List Byte) (b : Bridge)
    (hd : op ≠ 0xD2) (hr : op ≠ 0xF0) : (b.afterFailedWrite cfg n (op :: ps)).config = b.config := by
  simp only [Bridge.afterFailedWrite, b.afterWrite_config cfg n op ps hd hr, ite_self]

/-- A configuration write that failed leaves the configuration as it was, or the nibble of a byte that carries its
complement. -/
theorem Bridge.afterFailedWrite_setConfig (cfg : Params) (n : Nat) (p : Byte) (b : Bridge) :
    (b.afterFailedWrite cfg n [0xD2, p]).config = b.config ∨
      configAccepted p = true ∧ (b.afterFailedWrite cfg n [0xD2, p]).config = p.extractLsb' 0 4 := by
  cases ht : Config.freeTaken n <;> cases hp : configAccepted p <;> simp [Bridge.afterFailedWrite, Bridge.afterWrite, ht, hp]

/-- A write on a closed channel raises without an access. -/
theorem chanWrite_closed (bytes : List Byte) (a : Adapter) (ho : a.chanOpen = false) : chanWrite bytes a = .raised a := by
  simp [chanWrite, ho]

/-- A read that completes gives the answer's byte. -/
theorem chanReadAs_done (f : Byte → Bridge → Bridge) (a : Adapter) (x : Byte) (rest : List ChanAnswer)
    (ho : a.chanOpen = true) (hs : a.script = .done x :: rest) :
    chanReadAs f a = .ok x { a with script := rest, chanLog := .read :: a.chanLog, bridge := f x a.bridge } := by
  simp [chanReadAs, Adapter.access, Adapter.call, Adapter.nextAnswer, ho, hs]

theorem chanRead_done (a : Adapter) (x : Byte) (rest : List ChanAnswer) (ho : a.chanOpen = true)
    (hs : a.script = .done x :: rest) :
    chanRead a =
      .ok x { a with script := rest, chanLog := .read :: a.chanLog, bridge := a.bridge.afterFetch x } :=
  chanReadAs_done _ a x rest ho hs

theorem statusRead_done (a : Adapter) (x : Byte) (rest : List ChanAnswer) (ho : a.chanOpen = true)
    (hs : a.script = .done x :: rest) :
    statusRead a =
      .ok x { a with script := rest, chanLog := .read :: a.chanLog, bridge := a.bridge.afterStatus x } :=
  chanReadAs_done _ a x rest ho hs

/-- A write and then a read, both completing. -/
theorem writeRead_done (bytes : List Byte) (a : Adapter) (x v : Byte) (rest : List ChanAnswer) (ho : a.chanOpen = true)
    (hs : a.script = .done x :: .done v :: rest) :
    ((chanWrite bytes a).bind fun _ a1 => chanRead a1) =
      .ok v { a with script := rest, draws := a.draws + 1, chanLog := .read :: .write bytes :: a.chanLog,
                     bridge := (a.bridge.afterWrite a.cfg a.draws bytes).afterFetch v } := by
  rw [chanWrite_done bytes a x _ ho hs]
  exact chanRead_done _ v rest ho rfl

/-- A failing access of any kind consumes its answer, is recorded, and raises. -/
theorem access_ioError (acc : ChanAccess) (a : Adapter) (rest : List ChanAnswer) (ho : a.chanOpen = true)
    (hs : a.script = .ioError :: rest) :
    a.access acc = .raised { a with script := rest, chanLog := acc :: a.chanLog } := by
  simp [Adapter.access, Adapter.call, Adapter.nextAnswer, ho, hs]

/-- A closed channel raises without an access. -/
theorem access_closed (acc : ChanAccess) (a : Adapter) (ho : a.chanOpen = false) : a.access acc = .raised a := by
  simp [Adapter.access, ho]

/-! The bridge registers after reads. -/

/-- The bridge after the status reads `bs` in order. -/
def Bridge.afterReads (bs : List Byte) (b : Bridge) : Bridge := bs.foldl (fun b v => b.afterStatus v) b

theorem Bridge.afterReads_status (bs : List Byte) (st : Byte) (b : Bridge) :
    b.afterReads (bs ++ [st]) = { b with status := st } := by
  induction bs generalizing b with
  | nil => rfl
  | cons v bs ih => exact ih (b.afterStatus v)

/-- The bridge after a 1-Wire reset and its status reads: a one-byte command that draws nothing. -/
theorem Bridge.afterPolled_one (b : Bridge) (cfg : Params) (n : Nat) (op : Byte) (h : op ≠ 0xF0) (h' : op ≠ 0x96) (bs : List Byte)
    (st : Byte) : (b.afterWrite cfg n [op]).afterReads (bs ++ [st]) = { b with pointer := .status, status := st } := by
  have h1 : b.afterWrite cfg n [op] = { b with pointer := .status } := by simp only [Bridge.afterWrite]; rw [if_neg h, if_neg h']
  rw [h1, Bridge.afterReads_status]

/-- The bridge after a two-byte 1-Wire command and its status reads. -/
theorem Bridge.afterPolled_two (b : Bridge) (cfg : Params) (n : Nat) (op p : Byte) (h1 : op ≠ 0xE1) (h2 : op ≠ 0xD2)
    (h3 : op ≠ 0xC3) (bs : List Byte) (st : Byte) :
    (b.afterWrite cfg n [op, p]).afterReads (bs ++ [st]) = { b with pointer := .status, status := st } := by
  have h4 : b.afterWrite cfg n [op, p] = { b with pointer := .status } := by
    simp only [Bridge.afterWrite]; rw [if_neg h1, if_neg h2, if_neg h3]
  rw [h4, Bridge.afterReads_status]

theorem Bridge.afterReads_pointer (bs : List Byte) (b : Bridge) : (b.afterReads bs).pointer = b.pointer := by
  induction bs generalizing b with
  | nil => rfl
  | cons v bs ih => exact ih (b.afterStatus v)

/-! PollLoop. -/

/-- PollLoop over fewer busy answers than it has reads, then one that is not busy. -/
theorem pollReads_completes (bs : List Byte) (st : Byte) (rest : List ChanAnswer) (n : Nat) (a : Adapter)
    (hn : bs.length < n) (hb : ∀ b ∈ bs, busy b = true) (hst : busy st = false) (ho : a.chanOpen = true)
    (hs : a.script = bs.map .done ++ .done st :: rest) :
    pollReads n a =
      .ok (some st) { a with script := rest, chanLog := List.replicate (bs.length + 1) .read ++ a.chanLog,
                             bridge := a.bridge.afterReads (bs ++ [st]) } := by
  induction bs generalizing n a with
  | nil =>
    obtain ⟨n, rfl⟩ : ∃ k, n = k + 1 := ⟨n - 1, by simp at hn; omega⟩
    simp [pollReads, statusRead_done a st rest ho (by simpa using hs), hst, Bridge.afterReads]
  | cons b bs ih =>
    obtain ⟨n, rfl⟩ : ∃ k, n = k + 1 := ⟨n - 1, by simp at hn; omega⟩
    have hbb : busy b = true := hb b (by simp)
    rw [pollReads, statusRead_done a b (bs.map .done ++ .done st :: rest) ho (by simpa using hs)]
    simp only [Res.bind_ok, hbb, if_true]
    rw [ih n _ (by simpa using hn) (fun c hc => hb c (List.mem_cons_of_mem _ hc))]
    · simp [Bridge.afterReads, List.replicate_succ']
    · exact ho
    · rfl

/-- PollLoop over as many busy answers as it has reads. -/
theorem pollReads_timesOut (bs : List Byte) (rest : List ChanAnswer) (a : Adapter)
    (hb : ∀ b ∈ bs, busy b = true) (ho : a.chanOpen = true) (hs : a.script = bs.map .done ++ rest) :
    pollReads bs.length a =
      .ok none { a with script := rest, chanLog := List.replicate bs.length .read ++ a.chanLog,
                        bridge := a.bridge.afterReads bs } := by
  induction bs generalizing a with
  | nil => cases a; simp at hs; simp [pollReads, Bridge.afterReads, hs]
  | cons b bs ih =>
    have hbb : busy b = true := hb b (by simp)
    rw [List.length_cons, pollReads, statusRead_done a b (bs.map .done ++ rest) ho (by simpa using hs)]
    simp only [Res.bind_ok, hbb, if_true]
    rw [ih _ (fun c hc => hb c (List.mem_cons_of_mem _ hc))]
    · simp [Bridge.afterReads, List.replicate_succ']
    · exact ho
    · rfl

/-- A polled command whose poll completes. -/
theorem polledCommand_completes (bytes : List Byte) (a : Adapter) (x : Byte) (bs : List Byte) (st : Byte)
    (rest : List ChanAnswer) (ho : a.chanOpen = true) (hs : a.script = polledAnswers x bs st ++ rest)
    (hp : PollCompletes bs st) :
    polledCommand bytes a =
      .ok (some st) { a with script := rest, draws := a.draws + 1,
                             chanLog := polledLog bytes (bs.length + 1) a.chanLog,
                             bridge := (a.bridge.afterWrite a.cfg a.draws bytes).afterReads (bs ++ [st]) } := by
  obtain ⟨h1, h2, h3⟩ := hp
  rw [polledCommand, chanWrite_done bytes a x (bs.map .done ++ .done st :: rest) ho (by simpa [polledAnswers] using hs)]
  simp only [Res.bind_ok, pollLoop, Config.maxPollAttempts]
  rw [pollReads_completes bs st rest 16 _ h1 h2 h3]
  · rfl
  · exact ho
  · rfl

/-- The device reset whose poll completes. -/
theorem resetBridge_completes (a : Adapter) (x : Byte) (bs : List Byte) (st : Byte)
    (rest : List ChanAnswer) (ho : a.chanOpen = true) (hs : a.script = polledAnswers x bs st ++ rest)
    (hp : PollCompletes bs st) :
    resetBridge a =
      .ok (classifyReset st) { a with script := rest, draws := a.draws + 1,
                                      chanLog := polledLog [0xF0] (bs.length + 1) a.chanLog,
                                      bridge := (a.bridge.afterWrite a.cfg a.draws [0xF0]).afterReads (bs ++ [st]) } := by
  obtain ⟨h1, h2, h3⟩ := hp
  rw [resetBridge, chanWrite_done [0xF0] a x (bs.map .done ++ .done st :: rest) ho (by simpa [polledAnswers] using hs)]
  simp only [Res.bind_ok, pollLoop, Config.maxPollAttempts]
  rw [pollReads_completes bs st rest 16 _ h1 h2 h3]
  · rfl
  · exact ho
  · rfl

/-- A polled command whose poll times out and whose recovery completes. -/
theorem polledCommand_timesOut (bytes : List Byte) (a : Adapter) (x y : Byte) (bs cs : List Byte) (st : Byte)
    (rest : List ChanAnswer) (ho : a.chanOpen = true) (hl : bs.length = 16) (hb : ∀ b ∈ bs, busy b = true)
    (hp : PollCompletes cs st) (hs : a.script = .done x :: bs.map .done ++ polledAnswers y cs st ++ rest) :
    polledCommand bytes a =
      .ok none { a with script := rest, draws := a.draws + 2,
                        chanLog := polledLog [0xF0] (cs.length + 1) (polledLog bytes 16 a.chanLog),
                        bridge := (((a.bridge.afterWrite a.cfg a.draws bytes).afterReads bs).afterWrite a.cfg
                          (a.draws + 1) [0xF0]).afterReads (cs ++ [st]) } := by
  rw [polledCommand, chanWrite_done bytes a x (bs.map .done ++ (polledAnswers y cs st ++ rest)) ho (by simpa using hs)]
  simp only [Res.bind_ok, pollLoop, Config.maxPollAttempts]
  have h := pollReads_timesOut bs (polledAnswers y cs st ++ rest)
    { a with script := bs.map .done ++ (polledAnswers y cs st ++ rest), draws := a.draws + 1,
             chanLog := .write bytes :: a.chanLog, bridge := a.bridge.afterWrite a.cfg a.draws bytes } hb ho rfl
  rw [hl] at h
  rw [h]
  simp only [Res.bind_ok]
  rw [resetBridge_completes _ y cs st rest _ _ hp]
  · rfl
  · exact ho
  · rfl

/-- PollLoop over fewer busy answers than it has reads, then a read that fails. -/
theorem pollReads_raises (bs : List Byte) (rest : List ChanAnswer) (n : Nat) (a : Adapter) (hn : bs.length < n)
    (hb : ∀ b ∈ bs, busy b = true) (ho : a.chanOpen = true) (hs : a.script = bs.map .done ++ .ioError :: rest) :
    pollReads n a =
      .raised { a with script := rest, chanLog := List.replicate (bs.length + 1) .read ++ a.chanLog,
                       bridge := a.bridge.afterReads bs } := by
  induction bs generalizing n a with
  | nil =>
    obtain ⟨n, rfl⟩ : ∃ k, n = k + 1 := ⟨n - 1, by simp at hn; omega⟩
    simp [pollReads, statusRead, chanReadAs, access_ioError .read a rest ho (by simpa using hs), Bridge.afterReads]
  | cons b bs ih =>
    obtain ⟨n, rfl⟩ : ∃ k, n = k + 1 := ⟨n - 1, by simp at hn; omega⟩
    have hbb : busy b = true := hb b (by simp)
    rw [pollReads, statusRead_done a b (bs.map .done ++ .ioError :: rest) ho (by simpa using hs)]
    simp only [Res.bind_ok, hbb, if_true]
    rw [ih n _ (by simpa using hn) (fun c hc => hb c (List.mem_cons_of_mem _ hc))]
    · simp [Bridge.afterReads, List.replicate_succ']
    · exact ho
    · rfl

/-- The device reset whose poll times out. -/
theorem resetBridge_timesOut (a : Adapter) (x : Byte) (bs : List Byte) (rest : List ChanAnswer)
    (ho : a.chanOpen = true) (hl : bs.length = 16) (hb : ∀ b ∈ bs, busy b = true)
    (hs : a.script = .done x :: bs.map .done ++ rest) :
    resetBridge a =
      .ok .pollTimeout { a with script := rest, draws := a.draws + 1, chanLog := polledLog [0xF0] 16 a.chanLog,
                                bridge := (a.bridge.afterWrite a.cfg a.draws [0xF0]).afterReads bs } := by
  rw [resetBridge, chanWrite_done [0xF0] a x (bs.map .done ++ rest) ho (by simpa using hs)]
  simp only [Res.bind_ok, pollLoop, Config.maxPollAttempts]
  have h := pollReads_timesOut bs rest
    { a with script := bs.map .done ++ rest, draws := a.draws + 1, chanLog := .write [0xF0] :: a.chanLog,
             bridge := a.bridge.afterWrite a.cfg a.draws [0xF0] } hb ho rfl
  rw [hl] at h
  rw [h]
  rfl

/-- The device reset run as a recovery, however it goes. -/
theorem resetBridge_recovers (a : Adapter) (answers rest : List ChanAnswer) (n : Nat) (ho : a.chanOpen = true)
    (hr : RecoveryAnswers answers n) (hs : a.script = answers ++ rest) :
    ∃ v b, resetBridge a =
      .ok v { a with script := rest, draws := a.draws + 1, chanLog := polledLog [0xF0] n a.chanLog, bridge := b } := by
  rcases hr with ⟨y, cs, st, hp, rfl, rfl⟩ | ⟨y, cs, hl, hb, rfl, rfl⟩
  · exact ⟨_, _, resetBridge_completes a y cs st rest ho hs hp⟩
  · exact ⟨_, _, resetBridge_timesOut a y cs rest ho hl hb hs⟩

/-- A polled command whose poll times out, however its recovery goes. -/
theorem polledCommand_recovers (bytes : List Byte) (a : Adapter) (x : Byte) (bs : List Byte)
    (answers rest : List ChanAnswer) (n : Nat) (ho : a.chanOpen = true) (hl : bs.length = 16)
    (hb : ∀ b ∈ bs, busy b = true) (hr : RecoveryAnswers answers n)
    (hs : a.script = .done x :: bs.map .done ++ answers ++ rest) :
    ∃ b, polledCommand bytes a =
      .ok none { a with script := rest, draws := a.draws + 2,
                        chanLog := polledLog [0xF0] n (polledLog bytes 16 a.chanLog), bridge := b } := by
  rw [polledCommand, chanWrite_done bytes a x (bs.map .done ++ (answers ++ rest)) ho (by simpa using hs)]
  simp only [Res.bind_ok, pollLoop, Config.maxPollAttempts]
  have h := pollReads_timesOut bs (answers ++ rest)
    { a with script := bs.map .done ++ (answers ++ rest), draws := a.draws + 1,
             chanLog := .write bytes :: a.chanLog, bridge := a.bridge.afterWrite a.cfg a.draws bytes } hb ho rfl
  rw [hl] at h
  rw [h]
  simp only [Res.bind_ok]
  obtain ⟨v, b, hv⟩ := resetBridge_recovers
    { a with script := answers ++ rest, draws := a.draws + 1, chanLog := List.replicate 16 .read ++ .write bytes :: a.chanLog,
             bridge := (a.bridge.afterWrite a.cfg a.draws bytes).afterReads bs } answers rest n ho hr rfl
  exact ⟨b, by rw [hv]; rfl⟩

/-! Transfers over answers that complete: the draws and the bridge's registers are left open here. -/

theorem writeByte_answered (v : Byte) (p : PollAnswer) (a : Adapter) (rest : List ChanAnswer) (ho : a.chanOpen = true)
    (hp : p.completes) (hs : a.script = p.answers ++ rest) :
    ∃ n b, writeByte v a =
      .ok () { a with script := rest, draws := n, bridge := b, chanLog := p.log [0xA5, v] a.chanLog } :=
  ⟨_, _, by rw [writeByte, polledCommand_completes _ a p.ack p.busyBytes p.status rest ho hs hp]; rfl⟩

theorem readByte_answered (r : ReadAnswer) (a : Adapter) (rest : List ChanAnswer) (ho : a.chanOpen = true)
    (hr : r.completes) (hs : a.script = r.answers ++ rest) :
    ∃ n b, readByte a = .ok r.value { a with
      script := rest, draws := n, bridge := b,
      chanLog := .read :: r.second.log [0xE1, a.cfg.readDataCode] (r.first.log [0x96] a.chanLog) } := by
  rw [readByte, readPhase1, polledCommand_completes [0x96] a r.first.ack r.first.busyBytes r.first.status
    (r.second.answers ++ .done r.value :: rest) ho (by simpa [ReadAnswer.answers, PollAnswer.answers] using hs) hr.1]
  simp only [Res.bind_ok, Option.isSome_some, if_true]
  have h := fun a1 (ho : a1.chanOpen = true) hs => polledCommand_completes [0xE1, a.cfg.readDataCode] a1 r.second.ack
    r.second.busyBytes r.second.status (.done r.value :: rest) ho hs hr.2
  rw [readPhase2, h _ (by exact ho) (by rfl)]
  simp only [Res.bind_ok]
  rw [chanRead_done _ r.value rest (by exact ho) (by rfl)]
  exact ⟨_, _, rfl⟩

/-- The read part of a transfer: every position gets the byte of one readByte (R124). -/
theorem fillReads_answered (rs : List (Byte × ReadAnswer)) (a : Adapter) (rest : List ChanAnswer)
    (ho : a.chanOpen = true) (hr : ∀ r ∈ rs, r.2.completes) (hs : a.script = rs.flatMap (·.2.answers) ++ rest) :
    ∃ n b, fillReads (rs.map (·.1)) a =
      (rs.map (·.2.value), .ok () { a with
        script := rest, draws := n, bridge := b,
        chanLog := readsLog a.cfg.readDataCode (rs.map (·.2)) a.chanLog }) := by
  induction rs generalizing a with
  | nil => exact ⟨a.draws, a.bridge, by cases a; simp at hs; simp [fillReads, readsLog, hs]⟩
  | cons r rs ih =>
    obtain ⟨n, b, h⟩ := readByte_answered r.2 a (rs.flatMap (·.2.answers) ++ rest) ho (hr r (by simp))
      (by simpa using hs)
    obtain ⟨n', b', h'⟩ := ih
      { a with script := rs.flatMap (·.2.answers) ++ rest, draws := n, bridge := b,
               chanLog := .read :: r.2.second.log [0xE1, a.cfg.readDataCode] (r.2.first.log [0x96] a.chanLog) }
      ho (fun x hx => hr x (List.mem_cons_of_mem _ hx)) rfl
    exact ⟨n', b', by simp only [List.map_cons, fillReads, h, h']; rfl⟩

/-- A transfer: the bytes before the first 0xFF are sent, every later position is read (R124). -/
theorem sendThenFill_answered (ws : List (Byte × PollAnswer)) (rs : List (Byte × ReadAnswer)) (a : Adapter)
    (rest : List ChanAnswer) (ho : a.chanOpen = true) (hw : ∀ w ∈ ws, w.1 ≠ 0xFF ∧ w.2.completes)
    (hf : ∀ r, rs.head? = some r → r.1 = 0xFF) (hr : ∀ r ∈ rs, r.2.completes)
    (hs : a.script = ws.flatMap (·.2.answers) ++ rs.flatMap (·.2.answers) ++ rest) :
    ∃ n b, sendThenFill (ws.map (·.1) ++ rs.map (·.1)) a =
      (ws.map (·.1) ++ rs.map (·.2.value), .ok () { a with
        script := rest, draws := n, bridge := b,
        chanLog := readsLog a.cfg.readDataCode (rs.map (·.2)) (writesLog ws a.chanLog) }) := by
  induction ws generalizing a with
  | nil =>
    cases rs with
    | nil => exact ⟨a.draws, a.bridge, by cases a; simp at hs; simp [sendThenFill, readsLog, writesLog, hs]⟩
    | cons r rs =>
      have h : sendThenFill ((r :: rs).map (·.1)) a = fillReads ((r :: rs).map (·.1)) a := by
        rw [List.map_cons, sendThenFill, if_pos (show r.1 = Config.blockSentinel from hf r rfl)]
      simp only [List.map_nil, List.nil_append, h]
      exact fillReads_answered (r :: rs) a rest ho hr (by simpa using hs)
  | cons w ws ih =>
    obtain ⟨h1, h2⟩ := hw w (by simp)
    obtain ⟨n, b, h⟩ := writeByte_answered w.1 w.2 a (ws.flatMap (·.2.answers) ++ rs.flatMap (·.2.answers) ++ rest) ho h2
      (by simpa using hs)
    obtain ⟨n', b', h'⟩ := ih
      { a with script := ws.flatMap (·.2.answers) ++ rs.flatMap (·.2.answers) ++ rest, draws := n, bridge := b,
               chanLog := w.2.log [0xA5, w.1] a.chanLog }
      ho (fun x hx => hw x (List.mem_cons_of_mem _ hx)) rfl
    refine ⟨n', b', ?_⟩
    rw [List.map_cons, List.cons_append, sendThenFill, if_neg (show w.1 ≠ Config.blockSentinel from h1), h]
    simp only [h']; rfl

/-! What every adapter operation leaves alone. -/

/-- The parameters, the openness of the channel, the last result and the caller's buffer are as in `a`. -/
def SameSetting (a a' : Adapter) : Prop :=
  a'.cfg = a.cfg ∧ a'.chanOpen = a.chanOpen ∧ a'.result = a.result ∧ a'.block = a.block

theorem SameSetting.refl (a : Adapter) : SameSetting a a := ⟨rfl, rfl, rfl, rfl⟩

theorem SameSetting.trans {a b c : Adapter} (h : SameSetting a b) (h' : SameSetting b c) : SameSetting a c :=
  ⟨h'.1.trans h.1, h'.2.1.trans h.2.1, h'.2.2.1.trans h.2.2.1, h'.2.2.2.trans h.2.2.2⟩

theorem nextAnswer_setting (a : Adapter) : SameSetting a a.nextAnswer.2 := by
  unfold Adapter.nextAnswer; split <;> exact ⟨rfl, rfl, rfl, rfl⟩

theorem call_setting (acc : ChanAccess) (a : Adapter) : SameSetting a (a.call acc).after := by
  unfold Adapter.call
  have h := nextAnswer_setting a
  split <;> (rename_i e; rw [e] at h; exact h)

theorem access_setting (acc : ChanAccess) (a : Adapter) : SameSetting a (a.access acc).after := by
  unfold Adapter.access
  split
  · exact call_setting acc a
  · exact SameSetting.refl a

theorem chanWrite_setting (bytes : List Byte) (a : Adapter) : SameSetting a (chanWrite bytes a).after := by
  unfold chanWrite
  have h := call_setting (.write bytes) a
  split
  · split <;> (rename_i e; rw [e] at h; exact h)
  · exact SameSetting.refl a

theorem chanReadAs_setting (f : Byte → Bridge → Bridge) (a : Adapter) : SameSetting a (chanReadAs f a).after :=
  Res.after_bind (SameSetting a) _ _ (access_setting _ a) fun _ _ h => h

theorem chanRead_setting (a : Adapter) : SameSetting a (chanRead a).after := chanReadAs_setting _ a

theorem statusRead_setting (a : Adapter) : SameSetting a (statusRead a).after := chanReadAs_setting _ a

theorem pollReads_setting (n : Nat) (a : Adapter) : SameSetting a (pollReads n a).after := by
  induction n generalizing a with
  | zero => exact SameSetting.refl a
  | succ n ih =>
    refine Res.after_bind (SameSetting a) _ _ (statusRead_setting a) fun v s h => ?_
    split
    · exact h.trans (ih s)
    · exact h

theorem resetBridge_setting (a : Adapter) : SameSetting a (resetBridge a).after := by
  refine Res.after_bind (SameSetting a) _ _ (chanWrite_setting _ a) fun _ s h => ?_
  refine Res.after_bind (SameSetting a) _ _ (h.trans (pollReads_setting _ s)) fun r s h => ?_
  split <;> exact h

theorem polledCommand_setting (bytes : List Byte) (a : Adapter) : SameSetting a (polledCommand bytes a).after := by
  refine Res.after_bind (SameSetting a) _ _ (chanWrite_setting _ a) fun _ s h => ?_
  refine Res.after_bind (SameSetting a) _ _ (h.trans (pollReads_setting _ s)) fun r s h => ?_
  split
  · exact Res.after_bind (SameSetting a) _ _ (h.trans (resetBridge_setting s)) fun _ _ h => h
  · exact h

theorem writeConfigByte_setting (p : Byte) (a : Adapter) : SameSetting a (writeConfigByte p a).after :=
  Res.after_bind (SameSetting a) _ _ (chanWrite_setting _ a) fun _ s h => h.trans (chanRead_setting s)

theorem selectWith_setting (p : Byte) (want : Option (BitVec 3 × Byte)) (a : Adapter) :
    SameSetting a (selectWith p want a).after := by
  refine Res.after_bind (SameSetting a) _ _ (chanWrite_setting _ a) fun _ s h => ?_
  refine Res.after_bind (SameSetting a) _ _ (h.trans (chanRead_setting s)) fun v s h => ?_
  split
  · split <;> exact h
  · exact h

theorem tripletByte_setting (p : Byte) (a : Adapter) : SameSetting a (tripletByte p a).after :=
  Res.after_bind (SameSetting a) _ _ (polledCommand_setting _ a) fun _ _ h => h

theorem busReset_setting (a : Adapter) : SameSetting a (busReset a).after :=
  Res.after_bind (SameSetting a) _ _ (polledCommand_setting _ a) fun _ _ h => h

theorem singleBitByte_setting (p : Byte) (a : Adapter) : SameSetting a (singleBitByte p a).after :=
  Res.after_bind (SameSetting a) _ _ (polledCommand_setting _ a) fun _ _ h => h

theorem writeByte_setting (v : Byte) (a : Adapter) : SameSetting a (writeByte v a).after :=
  Res.after_bind (SameSetting a) _ _ (polledCommand_setting _ a) fun _ _ h => h

theorem readPhase1_setting (a : Adapter) : SameSetting a (readPhase1 a).after :=
  Res.after_bind (SameSetting a) _ _ (polledCommand_setting _ a) fun _ _ h => h

theorem readPhase2_setting (p : Byte) (a : Adapter) : SameSetting a (readPhase2 p a).after := by
  refine Res.after_bind (SameSetting a) _ _ (polledCommand_setting _ a) fun r s h => ?_
  split
  · exact h
  · exact h.trans (chanRead_setting s)

theorem readPhase1Alone_setting (a : Adapter) : SameSetting a (readPhase1Alone a).after := by
  refine Res.after_bind (SameSetting a) _ _ (readPhase1_setting a) fun c s h => ?_
  split <;> exact h

theorem readByte_setting (a : Adapter) : SameSetting a (readByte a).after := by
  refine Res.after_bind (SameSetting a) _ _ (readPhase1_setting a) fun c s h => ?_
  split
  · exact h.trans (readPhase2_setting _ s)
  · exact h

end Sys2Proof.Machine
end

