-- ==== Sys2Proof/Laws/SearchState.lean ====
section
/-! SUPPORT. One lemma per field for each named update of State in Machine/Search.lean. -/

namespace Sys2Proof.Machine

/-! `State.afterLink a e`. -/

@[simp] theorem State.afterLink_rom (s : State) (a : Adapter) (e : LinkEvent) : (s.afterLink a e).rom = s.rom := rfl
@[simp] theorem State.afterLink_ld (s : State) (a : Adapter) (e : LinkEvent) : (s.afterLink a e).ld = s.ld := rfl
@[simp] theorem State.afterLink_lfd (s : State) (a : Adapter) (e : LinkEvent) : (s.afterLink a e).lfd = s.lfd := rfl
@[simp] theorem State.afterLink_ldf (s : State) (a : Adapter) (e : LinkEvent) : (s.afterLink a e).ldf = s.ldf := rfl
@[simp] theorem State.afterLink_found (s : State) (a : Adapter) (e : LinkEvent) : (s.afterLink a e).found = s.found := rfl
@[simp] theorem State.afterLink_cause (s : State) (a : Adapter) (e : LinkEvent) : (s.afterLink a e).cause = s.cause := rfl
@[simp] theorem State.afterLink_excl (s : State) (a : Adapter) (e : LinkEvent) : (s.afterLink a e).excl = s.excl := rfl
@[simp] theorem State.afterLink_cseed (s : State) (a : Adapter) (e : LinkEvent) : (s.afterLink a e).cseed = s.cseed := rfl
@[simp] theorem State.afterLink_cdata (s : State) (a : Adapter) (e : LinkEvent) : (s.afterLink a e).cdata = s.cdata := rfl
@[simp] theorem State.afterLink_cres (s : State) (a : Adapter) (e : LinkEvent) : (s.afterLink a e).cres = s.cres := rfl
@[simp] theorem State.afterLink_boff (s : State) (a : Adapter) (e : LinkEvent) : (s.afterLink a e).boff = s.boff := rfl
@[simp] theorem State.afterLink_blen (s : State) (a : Adapter) (e : LinkEvent) : (s.afterLink a e).blen = s.blen := rfl
@[simp] theorem State.afterLink_buf (s : State) (a : Adapter) (e : LinkEvent) : (s.afterLink a e).buf = s.buf := rfl
@[simp] theorem State.afterLink_bufEpoch (s : State) (a : Adapter) (e : LinkEvent) : (s.afterLink a e).bufEpoch = s.bufEpoch := rfl
@[simp] theorem State.afterLink_phase (s : State) (a : Adapter) (e : LinkEvent) : (s.afterLink a e).phase = s.phase := rfl
@[simp] theorem State.afterLink_i (s : State) (a : Adapter) (e : LinkEvent) : (s.afterLink a e).i = s.i := rfl
@[simp] theorem State.afterLink_lastZero (s : State) (a : Adapter) (e : LinkEvent) : (s.afterLink a e).lastZero = s.lastZero := rfl
@[simp] theorem State.afterLink_dir (s : State) (a : Adapter) (e : LinkEvent) : (s.afterLink a e).dir = s.dir := rfl
@[simp] theorem State.afterLink_alarm (s : State) (a : Adapter) (e : LinkEvent) : (s.afterLink a e).alarm = s.alarm := rfl
@[simp] theorem State.afterLink_adapter (s : State) (a : Adapter) (e : LinkEvent) : (s.afterLink a e).adapter = a := rfl
@[simp] theorem State.afterLink_linkLog (s : State) (a : Adapter) (e : LinkEvent) : (s.afterLink a e).linkLog = e :: s.linkLog := rfl
@[simp] theorem State.afterLink_hostOut (s : State) (a : Adapter) (e : LinkEvent) : (s.afterLink a e).hostOut = s.hostOut := rfl
@[simp] theorem State.afterLink_requests (s : State) (a : Adapter) (e : LinkEvent) : (s.afterLink a e).requests = s.requests := rfl
@[simp] theorem State.afterLink_draws (s : State) (a : Adapter) (e : LinkEvent) : (s.afterLink a e).draws = s.draws := rfl
@[simp] theorem State.afterLink_hung (s : State) (a : Adapter) (e : LinkEvent) : (s.afterLink a e).hung = s.hung := rfl
@[simp] theorem State.afterLink_faulted (s : State) (a : Adapter) (e : LinkEvent) : (s.afterLink a e).faulted = s.faulted := rfl

/-! `State.startBit i`. -/

@[simp] theorem State.startBit_rom (s : State) (i : BitIndex) : (s.startBit i).rom = s.rom := rfl
@[simp] theorem State.startBit_ld (s : State) (i : BitIndex) : (s.startBit i).ld = s.ld := rfl
@[simp] theorem State.startBit_lfd (s : State) (i : BitIndex) : (s.startBit i).lfd = s.lfd := rfl
@[simp] theorem State.startBit_ldf (s : State) (i : BitIndex) : (s.startBit i).ldf = s.ldf := rfl
@[simp] theorem State.startBit_found (s : State) (i : BitIndex) : (s.startBit i).found = s.found := rfl
@[simp] theorem State.startBit_cause (s : State) (i : BitIndex) : (s.startBit i).cause = s.cause := rfl
@[simp] theorem State.startBit_excl (s : State) (i : BitIndex) : (s.startBit i).excl = s.excl := rfl
@[simp] theorem State.startBit_cseed (s : State) (i : BitIndex) : (s.startBit i).cseed = s.cseed := rfl
@[simp] theorem State.startBit_cdata (s : State) (i : BitIndex) : (s.startBit i).cdata = s.cdata := rfl
@[simp] theorem State.startBit_cres (s : State) (i : BitIndex) : (s.startBit i).cres = s.cres := rfl
@[simp] theorem State.startBit_boff (s : State) (i : BitIndex) : (s.startBit i).boff = s.boff := rfl
@[simp] theorem State.startBit_blen (s : State) (i : BitIndex) : (s.startBit i).blen = s.blen := rfl
@[simp] theorem State.startBit_buf (s : State) (i : BitIndex) : (s.startBit i).buf = s.buf := rfl
@[simp] theorem State.startBit_bufEpoch (s : State) (i : BitIndex) : (s.startBit i).bufEpoch = s.bufEpoch := rfl
@[simp] theorem State.startBit_phase (s : State) (i : BitIndex) : (s.startBit i).phase = .sBit := rfl
@[simp] theorem State.startBit_i (s : State) (i : BitIndex) : (s.startBit i).i = i := rfl
@[simp] theorem State.startBit_lastZero (s : State) (i : BitIndex) : (s.startBit i).lastZero = s.lastZero := rfl
@[simp] theorem State.startBit_dir (s : State) (i : BitIndex) : (s.startBit i).dir = direction s.ld i s.rom := rfl
@[simp] theorem State.startBit_alarm (s : State) (i : BitIndex) : (s.startBit i).alarm = s.alarm := rfl
@[simp] theorem State.startBit_adapter (s : State) (i : BitIndex) : (s.startBit i).adapter = s.adapter := rfl
@[simp] theorem State.startBit_linkLog (s : State) (i : BitIndex) : (s.startBit i).linkLog = s.linkLog := rfl
@[simp] theorem State.startBit_hostOut (s : State) (i : BitIndex) : (s.startBit i).hostOut = s.hostOut := rfl
@[simp] theorem State.startBit_requests (s : State) (i : BitIndex) : (s.startBit i).requests = s.requests := rfl
@[simp] theorem State.startBit_draws (s : State) (i : BitIndex) : (s.startBit i).draws = s.draws := rfl
@[simp] theorem State.startBit_hung (s : State) (i : BitIndex) : (s.startBit i).hung = s.hung := rfl
@[simp] theorem State.startBit_faulted (s : State) (i : BitIndex) : (s.startBit i).faulted = s.faulted := rfl

/-! `State.storeBit st`. -/

@[simp] theorem State.storeBit_rom (s : State) (st : Byte) : (s.storeBit st).rom = setBit s.rom s.i (taken st) := rfl
@[simp] theorem State.storeBit_ld (s : State) (st : Byte) : (s.storeBit st).ld = s.ld := rfl
@[simp] theorem State.storeBit_lfd (s : State) (st : Byte) : (s.storeBit st).lfd = s.lfd := rfl
@[simp] theorem State.storeBit_ldf (s : State) (st : Byte) : (s.storeBit st).ldf = s.ldf := rfl
@[simp] theorem State.storeBit_found (s : State) (st : Byte) : (s.storeBit st).found = s.found := rfl
@[simp] theorem State.storeBit_cause (s : State) (st : Byte) : (s.storeBit st).cause = s.cause := rfl
@[simp] theorem State.storeBit_excl (s : State) (st : Byte) : (s.storeBit st).excl = s.excl := rfl
@[simp] theorem State.storeBit_cseed (s : State) (st : Byte) : (s.storeBit st).cseed = s.cseed := rfl
@[simp] theorem State.storeBit_cdata (s : State) (st : Byte) : (s.storeBit st).cdata = s.cdata := rfl
@[simp] theorem State.storeBit_cres (s : State) (st : Byte) : (s.storeBit st).cres = s.cres := rfl
@[simp] theorem State.storeBit_boff (s : State) (st : Byte) : (s.storeBit st).boff = s.boff := rfl
@[simp] theorem State.storeBit_blen (s : State) (st : Byte) : (s.storeBit st).blen = s.blen := rfl
@[simp] theorem State.storeBit_buf (s : State) (st : Byte) : (s.storeBit st).buf = s.buf := rfl
@[simp] theorem State.storeBit_bufEpoch (s : State) (st : Byte) : (s.storeBit st).bufEpoch = s.bufEpoch := rfl
@[simp] theorem State.storeBit_phase (s : State) (st : Byte) : (s.storeBit st).phase = s.phase := rfl
@[simp] theorem State.storeBit_i (s : State) (st : Byte) : (s.storeBit st).i = s.i := rfl
@[simp] theorem State.storeBit_lastZero (s : State) (st : Byte) : (s.storeBit st).lastZero = s.lastZero := rfl
@[simp] theorem State.storeBit_dir (s : State) (st : Byte) : (s.storeBit st).dir = s.dir := rfl
@[simp] theorem State.storeBit_alarm (s : State) (st : Byte) : (s.storeBit st).alarm = s.alarm := rfl
@[simp] theorem State.storeBit_adapter (s : State) (st : Byte) : (s.storeBit st).adapter = s.adapter := rfl
@[simp] theorem State.storeBit_linkLog (s : State) (st : Byte) : (s.storeBit st).linkLog = s.linkLog := rfl
@[simp] theorem State.storeBit_hostOut (s : State) (st : Byte) : (s.storeBit st).hostOut = s.hostOut := rfl
@[simp] theorem State.storeBit_requests (s : State) (st : Byte) : (s.storeBit st).requests = s.requests := rfl
@[simp] theorem State.storeBit_draws (s : State) (st : Byte) : (s.storeBit st).draws = s.draws := rfl
@[simp] theorem State.storeBit_hung (s : State) (st : Byte) : (s.storeBit st).hung = s.hung := rfl
@[simp] theorem State.storeBit_faulted (s : State) (st : Byte) : (s.storeBit st).faulted = s.faulted := rfl

/-! `State.beginSession`. -/

@[simp] theorem State.beginSession_rom (s : State) : (s.beginSession).rom = s.rom := rfl
@[simp] theorem State.beginSession_ld (s : State) : (s.beginSession).ld = 0 := rfl
@[simp] theorem State.beginSession_lfd (s : State) : (s.beginSession).lfd = 0 := rfl
@[simp] theorem State.beginSession_ldf (s : State) : (s.beginSession).ldf = false := rfl
@[simp] theorem State.beginSession_found (s : State) : (s.beginSession).found = s.found := rfl
@[simp] theorem State.beginSession_cause (s : State) : (s.beginSession).cause = s.cause := rfl
@[simp] theorem State.beginSession_excl (s : State) : (s.beginSession).excl = s.excl := rfl
@[simp] theorem State.beginSession_cseed (s : State) : (s.beginSession).cseed = s.cseed := rfl
@[simp] theorem State.beginSession_cdata (s : State) : (s.beginSession).cdata = s.cdata := rfl
@[simp] theorem State.beginSession_cres (s : State) : (s.beginSession).cres = s.cres := rfl
@[simp] theorem State.beginSession_boff (s : State) : (s.beginSession).boff = s.boff := rfl
@[simp] theorem State.beginSession_blen (s : State) : (s.beginSession).blen = s.blen := rfl
@[simp] theorem State.beginSession_buf (s : State) : (s.beginSession).buf = s.buf := rfl
@[simp] theorem State.beginSession_bufEpoch (s : State) : (s.beginSession).bufEpoch = s.bufEpoch := rfl
@[simp] theorem State.beginSession_phase (s : State) : (s.beginSession).phase = s.phase := rfl
@[simp] theorem State.beginSession_i (s : State) : (s.beginSession).i = s.i := rfl
@[simp] theorem State.beginSession_lastZero (s : State) : (s.beginSession).lastZero = s.lastZero := rfl
@[simp] theorem State.beginSession_dir (s : State) : (s.beginSession).dir = s.dir := rfl
@[simp] theorem State.beginSession_alarm (s : State) : (s.beginSession).alarm = s.alarm := rfl
@[simp] theorem State.beginSession_adapter (s : State) : (s.beginSession).adapter = s.adapter := rfl
@[simp] theorem State.beginSession_linkLog (s : State) : (s.beginSession).linkLog = s.linkLog := rfl
@[simp] theorem State.beginSession_hostOut (s : State) : (s.beginSession).hostOut = s.hostOut := rfl
@[simp] theorem State.beginSession_requests (s : State) : (s.beginSession).requests = s.requests := rfl
@[simp] theorem State.beginSession_draws (s : State) : (s.beginSession).draws = s.draws := rfl
@[simp] theorem State.beginSession_hung (s : State) : (s.beginSession).hung = s.hung := rfl
@[simp] theorem State.beginSession_faulted (s : State) : (s.beginSession).faulted = false := rfl

/-! `State.recordZero st`. -/

@[simp] theorem State.recordZero_rom (s : State) (st : Byte) : (s.recordZero st).rom = s.rom := by
  unfold State.recordZero; split <;> rfl
@[simp] theorem State.recordZero_ld (s : State) (st : Byte) : (s.recordZero st).ld = s.ld := by
  unfold State.recordZero; split <;> rfl
@[simp] theorem State.recordZero_lfd (s : State) (st : Byte) : (s.recordZero st).lfd = if resolvedToZero st && decide (s.i ≤ 8) then s.i else s.lfd := by
  unfold State.recordZero resolvedToZero; cases idBit st <;> cases cmpBit st <;> cases taken st <;> (simp [Config.familyBits]; try rfl)
@[simp] theorem State.recordZero_ldf (s : State) (st : Byte) : (s.recordZero st).ldf = s.ldf := by
  unfold State.recordZero; split <;> rfl
@[simp] theorem State.recordZero_found (s : State) (st : Byte) : (s.recordZero st).found = s.found := by
  unfold State.recordZero; split <;> rfl
@[simp] theorem State.recordZero_cause (s : State) (st : Byte) : (s.recordZero st).cause = s.cause := by
  unfold State.recordZero; split <;> rfl
@[simp] theorem State.recordZero_excl (s : State) (st : Byte) : (s.recordZero st).excl = s.excl := by
  unfold State.recordZero; split <;> rfl
@[simp] theorem State.recordZero_cseed (s : State) (st : Byte) : (s.recordZero st).cseed = s.cseed := by
  unfold State.recordZero; split <;> rfl
@[simp] theorem State.recordZero_cdata (s : State) (st : Byte) : (s.recordZero st).cdata = s.cdata := by
  unfold State.recordZero; split <;> rfl
@[simp] theorem State.recordZero_cres (s : State) (st : Byte) : (s.recordZero st).cres = s.cres := by
  unfold State.recordZero; split <;> rfl
@[simp] theorem State.recordZero_boff (s : State) (st : Byte) : (s.recordZero st).boff = s.boff := by
  unfold State.recordZero; split <;> rfl
@[simp] theorem State.recordZero_blen (s : State) (st : Byte) : (s.recordZero st).blen = s.blen := by
  unfold State.recordZero; split <;> rfl
@[simp] theorem State.recordZero_buf (s : State) (st : Byte) : (s.recordZero st).buf = s.buf := by
  unfold State.recordZero; split <;> rfl
@[simp] theorem State.recordZero_bufEpoch (s : State) (st : Byte) : (s.recordZero st).bufEpoch = s.bufEpoch := by
  unfold State.recordZero; split <;> rfl
@[simp] theorem State.recordZero_phase (s : State) (st : Byte) : (s.recordZero st).phase = s.phase := by
  unfold State.recordZero; split <;> rfl
@[simp] theorem State.recordZero_i (s : State) (st : Byte) : (s.recordZero st).i = s.i := by
  unfold State.recordZero; split <;> rfl
@[simp] theorem State.recordZero_lastZero (s : State) (st : Byte) : (s.recordZero st).lastZero = if resolvedToZero st then s.i else s.lastZero := by
  unfold State.recordZero resolvedToZero; split <;> rfl
@[simp] theorem State.recordZero_dir (s : State) (st : Byte) : (s.recordZero st).dir = s.dir := by
  unfold State.recordZero; split <;> rfl
@[simp] theorem State.recordZero_alarm (s : State) (st : Byte) : (s.recordZero st).alarm = s.alarm := by
  unfold State.recordZero; split <;> rfl
@[simp] theorem State.recordZero_adapter (s : State) (st : Byte) : (s.recordZero st).adapter = s.adapter := by
  unfold State.recordZero; split <;> rfl
@[simp] theorem State.recordZero_linkLog (s : State) (st : Byte) : (s.recordZero st).linkLog = s.linkLog := by
  unfold State.recordZero; split <;> rfl
@[simp] theorem State.recordZero_hostOut (s : State) (st : Byte) : (s.recordZero st).hostOut = s.hostOut := by
  unfold State.recordZero; split <;> rfl
@[simp] theorem State.recordZero_requests (s : State) (st : Byte) : (s.recordZero st).requests = s.requests := by
  unfold State.recordZero; split <;> rfl
@[simp] theorem State.recordZero_draws (s : State) (st : Byte) : (s.recordZero st).draws = s.draws := by
  unfold State.recordZero; split <;> rfl
@[simp] theorem State.recordZero_hung (s : State) (st : Byte) : (s.recordZero st).hung = s.hung := by
  unfold State.recordZero; split <;> rfl
@[simp] theorem State.recordZero_faulted (s : State) (st : Byte) : (s.recordZero st).faulted = s.faulted := by
  unfold State.recordZero; split <;> rfl

end Sys2Proof.Machine
end

