-- ==== Sys2Proof/Laws/Search.lean ====
section
/-! SUPPORT. The walk of the sequencer: a property that every row keeps is kept by the walk; what a row does; what no
row touches. -/

namespace Sys2Proof.Machine

/-! The walk. -/

/-- A property that every row of a running sequencer keeps is kept by the walk. -/
theorem runRows_keeps (P : State → Prop) (hrow : ∀ s, s.phase ≠ .idle → s.hung = false → P s → P (sequencerRow s))
    (n : Nat) (s : State) (h : P s) : P (runRows n s) := by
  induction n generalizing s with
  | zero => exact h
  | succ n ih =>
    rw [runRows]
    split
    · exact h
    · rename_i hc
      simp only [not_or, Bool.not_eq_true] at hc
      exact ih _ (hrow s hc.1 hc.2 h)

theorem runRows_stop (n : Nat) (s : State) (h : s.phase = .idle ∨ s.hung = true) : runRows n s = s := by
  cases n with
  | zero => rfl
  | succ n => rw [runRows, if_pos h]

theorem runRows_step (n : Nat) (s : State) (h1 : s.phase ≠ .idle) (h2 : s.hung = false) :
    runRows (n + 1) s = runRows n (sequencerRow s) := by
  rw [runRows, if_neg (by simp [h1, h2])]

/-! A link request: how it may end. -/

/-- A row that waits for an answer goes on from the answer, or ends in a hard error, or hangs. -/
theorem onAnswer_cases {α : Type} (f : Adapter → Res Adapter α) (e : Option α → LinkEvent) (s : State)
    (g : α → State → State) :
    (∃ v a, f s.adapter = .ok v a ∧ onAnswer (linkRequest f e s) g = g v (s.afterLink a (e (some v)))) ∨
    (∃ a, f s.adapter = .raised a ∧
      onAnswer (linkRequest f e s) g = (s.afterLink a (e none)).enterFailure .hardSearch .transportError) ∨
    (∃ a, f s.adapter = .hung a ∧ onAnswer (linkRequest f e s) g = { s.afterLink a (e none) with hung := true }) := by
  unfold linkRequest onAnswer
  cases h : f s.adapter with
  | ok v a => exact .inl ⟨v, a, rfl, rfl⟩
  | raised a => exact .inr (.inl ⟨a, rfl, rfl⟩)
  | hung a => exact .inr (.inr ⟨a, rfl, rfl⟩)

/-! What no row touches. -/

/-- The parts of the state that a search leaves alone. -/
def SearchLeaves (s t : State) : Prop :=
  t.excl = s.excl ∧ t.cseed = s.cseed ∧ t.cdata = s.cdata ∧ t.cres = s.cres ∧ t.boff = s.boff ∧ t.blen = s.blen ∧
    t.buf = s.buf ∧ t.bufEpoch = s.bufEpoch ∧ t.requests = s.requests ∧ t.hostOut = s.hostOut ∧ t.draws = s.draws ∧
    SameSetting s.adapter t.adapter

theorem SearchLeaves.refl (s : State) : SearchLeaves s s :=
  ⟨rfl, rfl, rfl, rfl, rfl, rfl, rfl, rfl, rfl, rfl, rfl, SameSetting.refl _⟩

theorem SearchLeaves.trans {s t u : State} (h : SearchLeaves s t) (h' : SearchLeaves t u) : SearchLeaves s u := by
  obtain ⟨a1, a2, a3, a4, a5, a6, a7, a8, a9, a10, a11, a12⟩ := h
  obtain ⟨b1, b2, b3, b4, b5, b6, b7, b8, b9, b10, b11, b12⟩ := h'
  exact ⟨b1.trans a1, b2.trans a2, b3.trans a3, b4.trans a4, b5.trans a5, b6.trans a6, b7.trans a7, b8.trans a8,
    b9.trans a9, b10.trans a10, b11.trans a11, a12.trans b12⟩

/-- A row keeps what a search leaves alone when its request and its continuation do. -/
theorem onAnswer_leaves {α : Type} (f : Adapter → Res Adapter α) (e : Option α → LinkEvent) (s : State)
    (g : α → State → State) (hf : ∀ a, SameSetting a (f a).after) (hg : ∀ v s1, SearchLeaves s1 (g v s1)) :
    SearchLeaves s (onAnswer (linkRequest f e s) g) := by
  have h0 := hf s.adapter
  rcases onAnswer_cases f e s g with ⟨v, a, h, hr⟩ | ⟨a, h, hr⟩ | ⟨a, h, hr⟩ <;> rw [hr] <;> rw [h] at h0
  · exact SearchLeaves.trans (t := s.afterLink a (e (some v))) ⟨rfl, rfl, rfl, rfl, rfl, rfl, rfl, rfl, rfl, rfl, rfl, h0⟩ (hg v _)
  · exact ⟨rfl, rfl, rfl, rfl, rfl, rfl, rfl, rfl, rfl, rfl, rfl, h0⟩
  · exact ⟨rfl, rfl, rfl, rfl, rfl, rfl, rfl, rfl, rfl, rfl, rfl, h0⟩

theorem soft_leaves (c : Cause) (s : State) : SearchLeaves s (s.enterFailure .soft c) := SearchLeaves.refl s

theorem takeStatus_leaves (st : Byte) (s : State) : SearchLeaves s (s.takeStatus st) := by
  unfold State.takeStatus
  split
  · exact soft_leaves _ _
  · dsimp only
    split <;>
      exact ⟨by simp, by simp, by simp, by simp, by simp, by simp, by simp, by simp, by simp, by simp, by simp,
        by simpa using SameSetting.refl _⟩

theorem sequencerRow_leaves (s : State) : SearchLeaves s (sequencerRow s) := by
  unfold sequencerRow
  cases s.phase with
  | idle => exact SearchLeaves.refl s
  | sReset =>
    refine onAnswer_leaves _ _ s _ busReset_setting fun r s1 => ?_
    cases r <;> exact SearchLeaves.refl s1
  | sCmd => exact onAnswer_leaves _ _ s _ (writeByte_setting _) fun _ s1 => SearchLeaves.refl s1
  | sBit => exact onAnswer_leaves _ _ s _ (fun a => tripletByte_setting _ a) takeStatus_leaves
  | sCheck =>
    dsimp only
    unfold checkRow
    split
    · exact soft_leaves _ _
    · split
      · exact soft_leaves _ _
      · exact SearchLeaves.refl s

/-- What a search leaves alone. -/
theorem search_leaves (a : Bool) (s : State) : SearchLeaves s (search a s) := by
  refine runRows_keeps (SearchLeaves s) (fun u _ _ h => h.trans (sequencerRow_leaves u)) _ _ ?_
  unfold State.enterSearch
  split <;> exact SearchLeaves.refl _

end Sys2Proof.Machine
end

