-- ==== Sys2Proof/Laws/SearchWalk.lean ====
section
/-! SUPPORT. Where a search can stand, from its entry to its end: after each triplet (`Mid`), when it is over
    (`Over`),
and that every row keeps to this (`Walk.row`), so that a search of at most 67 rows is over (`search_over`). -/

namespace Sys2Proof.Machine

/-- The direction the triplet of index `k + 1` is issued with, from the session a search is entered with (R146). -/
def askedDirection (s : State) (k : Nat) : Bool :=
  if k + 1 < s.ld.toNat then getBit s.rom (BitVec.ofNat 7 (k + 1)) else decide (k + 1 = s.ld.toNat)

/-- The link events of triplets with their directions and answers. -/
def tripletEvents (ts : List (Bool × Byte)) : List LinkEvent := ts.map fun p => .triplet p.1 (some p.2)

/-- The two requests before the triplets. -/
def searchHead (a : Bool) : List LinkEvent := [.busReset (some .presenceDetected), .writeByte
    (searchCommandByte a) true]

/-- In the middle of a search entered at `s`, after the triplets `ts`, none of them without a response. -/
structure Mid (s : State) (a : Bool) (ts : List (Bool × Byte)) (u : State) : Prop where
  hung : u.hung = false
  log : LinkRequests s u (searchHead a ++ tripletEvents ts)
  ld : u.ld = s.ld
  ldf : u.ldf = s.ldf
  found : u.found = s.found
  cause : u.cause = s.cause
  faulted : u.faulted = s.faulted
  answered : ∀ t ∈ ts, noResponse t.2 = false
  asked : ∀ k t, ts[k]? = some t → t.1 = askedDirection s k
  len : ts.length ≤ 64
  romTaken : ∀ k t, ts[k]? = some t → getBit u.rom (BitVec.ofNat 7 (k + 1)) = taken t.2
  romRest : ∀ k, ts.length ≤ k → k < 64 → getBit u.rom (BitVec.ofNat 7 (k + 1)) = getBit s.rom (BitVec.ofNat 7
      (k + 1))
  zero : HighestZero (ts.map (·.2)) u.lastZero
  lfd : s.lfd ≤ 8 → u.lfd ≤ 8

/-- A search is over without success: the requests it made, with the directions it asked. -/
structure Ended (s : State) (a : Bool) (events : List LinkEvent) (u : State) : Prop where
  log : LinkRequests s u events
  run : SearchRun a events
  asked : ∀ k d st, events[k + 2]? = some (.triplet d st) → d = askedDirection s k

/-- How a search is over. -/
inductive Over (s : State) (a : Bool) : State → Prop where
  | hung (u : State) (events : List LinkEvent) (h : Ended s a events u) (hh : u.hung = true) : Over s a u
  | raised (u : State) (events : List LinkEvent) (h : Ended s a events u) (hh : u.hung = false) (hp : u.phase = .idle)
      (hl : u.ld = s.ld) (hf : u.ldf = s.ldf) (hd : u.found = false) (hc : u.cause = 0x7) (hx : u.faulted = true)
      (he : events.getLast? = some (.busReset none) ∨ events.getLast? = some (.writeByte
          (searchCommandByte a) false) ∨
        ∃ d, events.getLast? = some (.triplet d none)) : Over s a u
  | soft (u : State) (events : List LinkEvent) (h : Ended s a events u) (hh : u.hung = false) (hp : u.phase = .idle)
      (hl : u.ld = 0) (hl' : u.lfd = 0) (hf : u.ldf = false) (hd : u.found = false)
      (hc : u.cause ∈ [0x1, 0x2, 0x3, 0x6, (0xA : Nibble)]) (hx : u.faulted = s.faulted) : Over s a u
  | success (u : State) (ts : List (Bool × Byte)) (hm : Mid s a ts u) (hn : ts.length = 64)
      (hc : romCrcOk u.rom = true) (hz : romAllZero u.rom = false) : Over s a
        { u.leaveSearch with ld := u.lastZero, ldf := u.lastZero == 0, found := true, cause := 0 }

/-- The walk of a search entered at `s` with `LDF` clear. -/
inductive Walk (s : State) (a : Bool) : State → Prop where
  | reset : Walk s a { s with alarm := a, phase := .sReset }
  | cmd (ad : Adapter) : Walk s a
      { s with alarm := a, phase := .sCmd, adapter := ad,
               linkLog := .busReset (some .presenceDetected) :: s.linkLog }
  | bit (u : State) (ts : List (Bool × Byte)) (hm : Mid s a ts u) (hn : ts.length < 64) (hp : u.phase = .sBit)
      (hi : u.i = BitVec.ofNat 7 (ts.length + 1)) (hd : u.dir = askedDirection s ts.length) : Walk s a u
  | check (u : State) (ts : List (Bool × Byte)) (hm : Mid s a ts u) (hn : ts.length = 64) (hp : u.phase = .sCheck)
      : Walk s a u
  | ended (u : State) (h : Over s a u) : Walk s a u

theorem direction_eq (s : State) (k : Nat) (hk : k < 64) (rom : Vector Byte 8)
    (hr : getBit rom (BitVec.ofNat 7 (k + 1)) = getBit s.rom (BitVec.ofNat 7 (k + 1))) :
    direction s.ld (BitVec.ofNat 7 (k + 1)) rom = askedDirection s k := by
  have ht : (BitVec.ofNat 7 (k + 1)).toNat = k + 1 := by simp; omega
  unfold direction askedDirection
  simp only [BitVec.lt_def, ht, hr]
  split
  · rfl
  · rw [Bool.eq_iff_iff, beq_iff_eq, decide_eq_true_iff]
    exact ⟨fun h => by rw [← h, ht], fun h => BitVec.eq_of_toNat_eq (by rw [ht, h])⟩

theorem ofNat7_inj {j k : Nat} (hj : j < 64) (hk : k < 64) (h : BitVec.ofNat 7 (j + 1) = BitVec.ofNat 7 (k + 1))
    : j = k := by
  have := congrArg BitVec.toNat h
  simp at this; omega

theorem ofNat7_range {k : Nat} (hk : k < 64) : (1 : BitIndex) ≤ BitVec.ofNat 7 (k + 1) ∧ BitVec.ofNat 7 (k + 1) ≤ (64
    : BitIndex) := by
  rw [BitVec.le_def, BitVec.le_def]; simp; omega

theorem HighestZero.snoc {sts : List Byte} {ld : BitIndex} (h : HighestZero sts ld) (st : Byte) :
    HighestZero (sts ++ [st]) (if resolvedToZero st then BitVec.ofNat 7 (sts.length + 1) else ld) := by
  cases hz : resolvedToZero st
  · simp only [Bool.false_eq_true, if_false]
    rcases h with ⟨h0, h⟩ | ⟨k, x, hk, hl, hx, h⟩
    · left; refine ⟨h0, fun y hy => ?_⟩
      rcases List.mem_append.1 hy with hy | hy
      · exact h y hy
      · simp at hy; rw [hy, hz]
    · right
      have hkl : k < sts.length := by by_contra hc; rw [List.getElem?_eq_none (by omega)] at hk; cases hk
      refine ⟨k, x, by rw [List.getElem?_append_left hkl, hk], hl, hx, fun j y hj hy => ?_⟩
      by_cases hjl : j < sts.length
      · rw [List.getElem?_append_left hjl] at hy; exact h j y hj hy
      · rw [List.getElem?_append_right (by omega)] at hy
        have := List.mem_of_getElem? hy
        simp at this; rw [this, hz]
  · right
    refine ⟨sts.length, st, by simp, by simp, hz, fun j y hj hy => ?_⟩
    rw [List.getElem?_eq_none (by simp; omega)] at hy; cases hy

theorem getElem?_snoc {α : Type} (l : List α) (x : α) (k : Nat) (t : α) (h : (l ++ [x])[k]? = some t) :
    (k < l.length ∧ l[k]? = some t) ∨ (k = l.length ∧ t = x) := by
  by_cases hk : k < l.length
  · exact .inl ⟨hk, by rwa [List.getElem?_append_left hk] at h⟩
  · right
    rw [List.getElem?_append_right (by omega)] at h
    rcases hd : k - l.length with _ | n
    · rw [hd] at h; simp at h; exact ⟨by omega, h.symm⟩
    · rw [hd] at h; simp at h

theorem Mid.reframe {s u : State} {a : Bool} {ts : List (Bool × Byte)} (hm : Mid s a ts u) (p : Phase) (i : BitIndex)
    (d : Bool) :
    Mid s a ts { u with phase := p, i := i, dir := d } := by
  cases hm; constructor <;> assumption

/-- One more triplet that got a response. -/
theorem Mid.snoc {s u : State} {a : Bool} {ts : List (Bool × Byte)} (hm : Mid s a ts u) (hn : ts.length < 64)
    (hi : u.i = BitVec.ofNat 7 (ts.length + 1)) (hd : u.dir = askedDirection s ts.length) (ad : Adapter) (st : Byte)
    (hst : noResponse st = false) :
    Mid s a (ts ++ [(u.dir, st)]) (((u.afterLink ad (.triplet u.dir (some st))).recordZero st).storeBit st) where
  hung := by rw [← hm.hung]; simp only [State.storeBit, State.recordZero, State.afterLink]; split <;> rfl
  log := by
    have := hm.log
    simp only [LinkRequests] at this
    have e : (((u.afterLink ad (.triplet u.dir (some st))).recordZero st).storeBit st).linkLog = .triplet u.dir
        (some st) :: u.linkLog := by
      simp only [State.storeBit, State.recordZero, State.afterLink]; split <;> rfl
    simp only [LinkRequests]
    rw [e, this]; simp [tripletEvents]
  ld := by rw [← hm.ld]; simp only [State.storeBit, State.recordZero, State.afterLink]; split <;> rfl
  ldf := by rw [← hm.ldf]; simp only [State.storeBit, State.recordZero, State.afterLink]; split <;> rfl
  found := by rw [← hm.found]; simp only [State.storeBit, State.recordZero, State.afterLink]; split <;> rfl
  cause := by rw [← hm.cause]; simp only [State.storeBit, State.recordZero, State.afterLink]; split <;> rfl
  faulted := by rw [← hm.faulted]; simp only [State.storeBit, State.recordZero, State.afterLink]; split <;> rfl
  answered := by
    intro t ht
    rcases List.mem_append.1 ht with ht | ht
    · exact hm.answered t ht
    · simp at ht; rw [ht]; exact hst
  asked := by
    intro k t ht
    rcases getElem?_snoc _ _ _ _ ht with ⟨_, h⟩ | ⟨rfl, rfl⟩
    · exact hm.asked k t h
    · exact hd
  len := by simp; omega
  romTaken := by
    intro k t ht
    have e : (((u.afterLink ad (.triplet u.dir (some st))).recordZero st).storeBit st).rom = setBit u.rom u.i
        (taken st) := by
      simp only [State.storeBit, State.recordZero, State.afterLink]; split <;> rfl
    rw [e, hi]
    obtain ⟨r1, r2⟩ := ofNat7_range hn
    rcases getElem?_snoc _ _ _ _ ht with ⟨hk, h⟩ | ⟨rfl, rfl⟩
    · obtain ⟨q1, q2⟩ := ofNat7_range (show k < 64 by omega)
      rw [getBit_setBit_other _ _ _ _ r1 r2 q1 q2]
      · exact hm.romTaken k t h
      · intro hc; have := ofNat7_inj hn (by omega) hc; omega
    · exact getBit_setBit_same _ _ _ r1 r2
  romRest := by
    intro k hk hk2
    have e : (((u.afterLink ad (.triplet u.dir (some st))).recordZero st).storeBit st).rom = setBit u.rom u.i
        (taken st) := by
      simp only [State.storeBit, State.recordZero, State.afterLink]; split <;> rfl
    rw [e, hi]
    simp at hk
    obtain ⟨r1, r2⟩ := ofNat7_range hn
    obtain ⟨q1, q2⟩ := ofNat7_range hk2
    rw [getBit_setBit_other _ _ _ _ r1 r2 q1 q2]
    · exact hm.romRest k (by omega) hk2
    · intro hc; have := ofNat7_inj hn hk2 hc; omega
  zero := by
    have := hm.zero.snoc st
    have e : (((u.afterLink ad (.triplet u.dir (some st))).recordZero st).storeBit st).lastZero =
        if resolvedToZero st then u.i else u.lastZero := by
      simp
    rw [e, hi]; simpa using this
  lfd := by
    intro h
    have := hm.lfd h
    simp only [State.storeBit, State.recordZero, State.afterLink]
    split
    · show (if u.i ≤ Config.familyBits then u.i else u.lfd) ≤ 8
      split
      · rename_i h; exact h
      · exact this
    · exact this

theorem mem_tripletEvents {ts : List (Bool × Byte)} {e : LinkEvent} (h : e ∈ tripletEvents ts) :
    ∃ p ∈ ts, e = .triplet p.1 (some p.2) := by
  obtain ⟨p, hp, rfl⟩ := List.mem_map.1 h
  exact ⟨p, hp, rfl⟩

theorem getElem?_tripletEvents {ts : List (Bool × Byte)} {k : Nat} {d : Bool} {st : Option Byte}
    (h : (tripletEvents ts)[k]? = some (.triplet d st)) : ∃ p, ts[k]? = some p ∧ p.1 = d ∧ some p.2 = st := by
  rw [tripletEvents, List.getElem?_map, Option.map_eq_some_iff] at h
  obtain ⟨p, hp, h⟩ := h
  cases h
  exact ⟨p, hp, rfl, rfl⟩

theorem runEvents_asked {s : State} {a : Bool} {ts : List (Bool × Byte)} (h : ∀ k t,
    ts[k]? = some t → t.1 = askedDirection s k)
    (d : Bool) (st : Option Byte) (hd : d = askedDirection s ts.length) :
    ∀ k d' st', (searchHead a ++ tripletEvents ts ++ [LinkEvent.triplet d st])[k + 2]? = some
        (.triplet d' st') → d' = askedDirection s k := by
  intro k d' st' hk
  have hk : (tripletEvents ts ++ [LinkEvent.triplet d st])[k]? = some
      (.triplet d' st') := by simpa [searchHead] using hk
  rcases getElem?_snoc _ _ _ _ hk with ⟨h1, h2⟩ | ⟨h1, h2⟩
  · obtain ⟨p, hp, rfl, _⟩ := getElem?_tripletEvents h2
    exact h k p hp
  · simp [tripletEvents] at h1; cases h2; rw [h1]; exact hd

theorem tripletRun_snoc {ts : List (Bool × Byte)} (h : ∀ t ∈ ts, noResponse t.2 = false) (hn : ts.length < 64) (d
    : Bool) (st : Option Byte)
    (hst : ∀ x, st = some x → noResponse x = true) : TripletRun (tripletEvents ts ++ [.triplet d st]) := by
  refine ⟨by simp [tripletEvents]; omega, ?_, ?_, ?_⟩
  · intro e he
    rcases List.mem_append.1 he with he | he
    · obtain ⟨p, _, rfl⟩ := mem_tripletEvents he; exact ⟨_, _, rfl⟩
    · simp at he; exact ⟨_, _, he⟩
  · intro e he
    rw [List.dropLast_concat] at he
    obtain ⟨p, hp, rfl⟩ := mem_tripletEvents he; exact ⟨_, _, rfl, h _ hp⟩
  · intro d' x hx hr
    simp at hx; have := hst x hx.2; rw [this] at hr; cases hr

theorem tripletRun_full {ts : List (Bool × Byte)} (h : ∀ t ∈ ts, noResponse t.2 = false) (hn : ts.length = 64)
    : TripletRun (tripletEvents ts) := by
  refine ⟨by simp [tripletEvents]; omega, ?_, ?_, ?_⟩
  · intro e he
    obtain ⟨p, _, rfl⟩ := mem_tripletEvents he; exact ⟨_, _, rfl⟩
  · intro e he
    have he := List.dropLast_subset _ he
    obtain ⟨p, hp, rfl⟩ := mem_tripletEvents he; exact ⟨_, _, rfl, h _ hp⟩
  · intro d' x hx hr
    simp [tripletEvents, hn]

theorem Mid.ended {s u v : State} {a : Bool} {ts : List (Bool × Byte)} (hm : Mid s a ts u) (hn : ts.length < 64)
    (hd : u.dir = askedDirection s ts.length) (st : Option Byte) (hst : ∀ x, st = some x → noResponse x = true)
    (hv : v.linkLog = .triplet u.dir st :: u.linkLog) : Ended s a
        (searchHead a ++ tripletEvents ts ++ [.triplet u.dir st]) v where
  log := by
    have := hm.log
    simp only [LinkRequests] at this ⊢
    rw [hv, this]; simp
  run := .inr (.inr ⟨tripletEvents ts ++ [.triplet u.dir st], by simp, tripletRun_snoc hm.answered hn _ _ hst,
      by simp [searchHead]⟩)
  asked := runEvents_asked hm.asked _ _ hd

theorem Mid.fullEnded {s u v : State} {a : Bool} {ts : List (Bool × Byte)} (hm : Mid s a ts u) (hn : ts.length = 64)
    (hv : v.linkLog = u.linkLog) : Ended s a (searchHead a ++ tripletEvents ts) v where
  log := by
    have := hm.log
    simp only [LinkRequests] at this ⊢
    rw [hv, this]
  run := .inr (.inr ⟨tripletEvents ts, by rw [← List.length_pos_iff]; simp [tripletEvents, hn],
      tripletRun_full hm.answered hn, by simp [searchHead]⟩)
  asked := by
    intro k d' st' hk
    have hk : (tripletEvents ts)[k]? = some (.triplet d' st') := by simpa [searchHead] using hk
    obtain ⟨p, hp, rfl, _⟩ := getElem?_tripletEvents hk
    exact hm.asked k p hp

theorem ended_two (s v : State) (a : Bool) (events : List LinkEvent) (hlen : events.length ≤ 2) (hr
    : SearchRun a events) (hv : LinkRequests s v events) : Ended s a events v :=
  ⟨hv, hr, fun k d st h => by rw [List.getElem?_eq_none (by omega)] at h; cases h⟩

/-- A search entered with `LDF` set is over at once (R142). -/
theorem search_lastDevice (s : State) (a : Bool) (h : s.ldf = true) :
    search a s = s.enterFailure .soft .enumerationDone := by
  simp only [search, State.enterSearch, h, if_true]
  rw [runRows_stop _ _ (.inl rfl)]; rfl

/-- Every row of a search keeps the walk. -/
theorem Walk.row {s : State} {a : Bool} {u : State} (hs : s.hung = false) (h : Walk s a u) (h1
    : u.phase ≠ .idle) (h2 : u.hung = false) :
    Walk s a (sequencerRow u) := by
  cases h with
  | reset =>
    have e : sequencerRow { s with alarm := a, phase := .sReset } =
        resetRow { s with alarm := a, phase := .sReset } := rfl
    rw [e]; unfold resetRow linkBusReset
    rcases onAnswer_cases busReset LinkEvent.busReset { s with alarm := a, phase := .sReset } State.takeBusReset with
        ⟨v, ad, hv, hr⟩ | ⟨ad, hv, hr⟩ | ⟨ad, hv, hr⟩
    · rw [hr]
      cases v with
      | presenceDetected => exact .cmd ad
      | shortDetected =>
        exact .ended _ (.soft _ [.busReset (some .shortDetected)] (ended_two _ _ _ _ (by simp) (.inl ⟨_, by simp,
            rfl⟩) rfl) hs rfl rfl rfl rfl rfl (List.mem_of_elem_eq_true rfl) rfl)
      | noPresence =>
        exact .ended _ (.soft _ [.busReset (some .noPresence)] (ended_two _ _ _ _ (by simp) (.inl ⟨_, by simp,
            rfl⟩) rfl) hs rfl rfl rfl rfl rfl (List.mem_of_elem_eq_true rfl) rfl)
    · rw [hr]
      exact .ended _ (.raised _ [.busReset none] (ended_two _ _ _ _ (by simp) (.inl ⟨_, by simp,
          rfl⟩) rfl) hs rfl rfl rfl rfl rfl rfl (.inl rfl))
    · rw [hr]
      exact .ended _ (.hung _ [.busReset none] (ended_two _ _ _ _ (by simp) (.inl ⟨_, by simp, rfl⟩) rfl) rfl)
  | cmd ad0 =>
    have e : ∀ x : State, x.phase = .sCmd → sequencerRow x = cmdRow x := fun x hx => by simp [sequencerRow, hx]
    rw [e _ rfl]; unfold cmdRow linkWriteByte
    generalize hx : ({ s with
      alarm := a, phase := .sCmd, adapter := ad0,
      linkLog := LinkEvent.busReset (some BusResetResult.presenceDetected) :: s.linkLog } : State) = x
    rcases onAnswer_cases (writeByte (searchCommandByte x.alarm)) (fun r => LinkEvent.writeByte
        (searchCommandByte x.alarm) r.isSome) x
      (fun _ s1 => State.startBit 1 { s1 with lastZero := 0 }) with ⟨v, ad, hv, hr⟩ | ⟨ad, hv, hr⟩ | ⟨ad, hv,
          hr⟩ <;> rw [hr] <;> subst hx
    · refine .bit _ [] ?_ (by simp) rfl rfl ?_
      · exact ⟨hs, rfl, rfl, rfl, rfl, rfl, rfl, by simp, by simp, by simp, by simp, fun k _ _ => rfl, .inl ⟨rfl,
            by simp⟩, fun h => h⟩
      · exact direction_eq s 0 (by norm_num) s.rom rfl
    · exact .ended _ (.raised _ [.busReset (some .presenceDetected), .writeByte (searchCommandByte a) false]
          (ended_two _ _ _ _ (by simp) (.inr (.inl rfl)) rfl) hs rfl rfl rfl rfl rfl rfl (.inr (.inl rfl)))
    · exact .ended _ (.hung _ [.busReset (some .presenceDetected), .writeByte (searchCommandByte a) false]
          (ended_two _ _ _ _ (by simp) (.inr (.inl rfl)) rfl) rfl)
  | bit _ ts hm hn hp hi hd =>
    have e : sequencerRow u = bitRow u := by simp [sequencerRow, hp]
    rw [e]; unfold bitRow linkTriplet
    rcases onAnswer_cases (triplet u.dir) (.triplet u.dir) u State.takeStatus with ⟨st, ad, hv, hr⟩ | ⟨ad, hv, hr⟩ |
        ⟨ad, hv, hr⟩ <;> rw [hr]
    · unfold State.takeStatus
      by_cases hz : noResponse st = true
      · have hz' : (idBit st && cmpBit st) = true := hz
        rw [if_pos hz']
        exact .ended _ (.soft _ _ (hm.ended hn hd (some st) (by rintro x ⟨⟩; exact hz) rfl) hm.hung rfl rfl rfl rfl rfl (List.mem_of_elem_eq_true rfl) hm.faulted)
      · have hz' : ¬ (idBit st && cmpBit st) = true := hz
        have hzf : noResponse st = false := by simpa using hz
        rw [if_neg hz']
        simp only
        split
        · rename_i h64
          have hi64 : u.i = 64 := h64
          have hlen : ts.length = 63 := by
            rw [hi] at hi64; have := congrArg BitVec.toNat hi64; simp at this; omega
          refine .check _ (ts ++ [(u.dir, st)]) ?_ (by simp [hlen]) rfl
          exact (hm.snoc hn hi hd ad st hzf).reframe .sCheck _ _
        · rename_i h64
          have hi64 : u.i ≠ 64 := h64
          have hlen : ts.length < 63 := by
            rcases Nat.lt_or_ge ts.length 63 with h | h
            · exact h
            · exfalso; apply hi64; rw [hi, show ts.length = 63 by omega]; rfl
          have hm' := hm.snoc hn hi hd ad st hzf
          have hui : (((u.afterLink ad (.triplet u.dir (some st))).recordZero st).storeBit st).i = u.i := by simp
          generalize (((u.afterLink ad (.triplet u.dir (some st))).recordZero st).storeBit st) = w at *
          have hii : u.i + 1 = BitVec.ofNat 7 (ts.length + 1 + 1) := by
            rw [hi]; apply BitVec.eq_of_toNat_eq; simp
          refine .bit _ (ts ++ [(u.dir, st)]) (hm'.reframe _ _ _) (by simp; omega) rfl ?_ ?_
          · simp only [List.length_append, List.length_singleton]; exact hii
          · have := direction_eq s (ts.length + 1) (by omega) w.rom (hm'.romRest (ts.length + 1) (by simp) (by omega))
            rw [← hm'.ld, ← hii] at this
            simpa using this
    · exact .ended _ (.raised _ _ (hm.ended hn hd none (by simp) rfl) hm.hung rfl hm.ld hm.ldf rfl rfl rfl (.inr
          (.inr ⟨u.dir, by simp⟩)))
    · exact .ended _ (.hung _ _ (hm.ended hn hd none (by simp) rfl) rfl)
  | check _ ts hm hn hp =>
    have e : sequencerRow u = checkRow u := by simp [sequencerRow, hp]
    rw [e]; unfold checkRow
    split
    · exact .ended _ (.soft _ _ (hm.fullEnded hn rfl) hm.hung rfl rfl rfl rfl rfl
          (List.mem_of_elem_eq_true rfl) hm.faulted)
    · split
      · exact .ended _ (.soft _ _ (hm.fullEnded hn rfl) hm.hung rfl rfl rfl rfl rfl
            (List.mem_of_elem_eq_true rfl) hm.faulted)
      · rename_i hc hz
        exact .ended _ (.success u ts hm hn (by simpa using hc) (by simpa using hz))
  | ended _ h =>
    exfalso
    cases h with
    | hung _ ev h hh => rw [hh] at h2; cases h2
    | raised _ ev h hh hp => exact h1 hp
    | soft _ ev h hh hp => exact h1 hp
    | success u ts hm hn hc hz => exact h1 rfl

/-- A bound on the rows a search still has. -/
def rowsLeft (s : State) : Nat :=
  match s.phase with
  | .idle => 0
  | .sReset => 67
  | .sCmd => 66
  | .sBit => 66 - s.i.toNat
  | .sCheck => 1

/-- The index of a search at its triplets is in range. -/
theorem Walk.index_le {s : State} {a : Bool} {u : State} (h : Walk s a u) (hp : u.phase = .sBit)
    (h2 : u.hung = false) : u.i.toNat ≤ 64 := by
  cases h with
  | reset => cases hp
  | cmd => cases hp
  | bit _ ts hm hn _ hi => rw [hi]; simp; omega
  | check _ ts hm hn hp' => rw [hp] at hp'; cases hp'
  | ended _ ho =>
    cases ho with
    | hung _ ev h hh => rw [hh] at h2; cases h2
    | raised _ ev h hh hp' => rw [hp] at hp'; cases hp'
    | soft _ ev h hh hp' => rw [hp] at hp'; cases hp'
    | success u ts hm hn hc hz => cases hp

/-- A row of a search is its last, or leaves fewer. -/
theorem Walk.row_less {s : State} {a : Bool} {u : State} (h : Walk s a u) (h1 : u.phase ≠ .idle) (h2
    : u.hung = false) :
    (sequencerRow u).hung = true ∨ rowsLeft (sequencerRow u) < rowsLeft u := by
  have hr : ∀ v : State, v.phase = .idle → rowsLeft v = 0 := fun v hv => by simp [rowsLeft, hv]
  cases hp : u.phase with
  | idle => exact absurd hp h1
  | sReset =>
    have e : sequencerRow u = resetRow u := by simp [sequencerRow, hp]
    have e2 : rowsLeft u = 67 := by simp [rowsLeft, hp]
    rw [e, e2]
    rcases onAnswer_cases busReset .busReset u State.takeBusReset with ⟨v, ad, hv, hx⟩ | ⟨ad, hv, hx⟩ | ⟨ad, hv,
        hx⟩ <;> unfold resetRow linkBusReset <;> rw [hx]
    · right; cases v
      · show 66 < 67; omega
      · rw [hr _ rfl]; omega
      · rw [hr _ rfl]; omega
    · right; rw [hr _ rfl]; omega
    · left; rfl
  | sCmd =>
    have e : sequencerRow u = cmdRow u := by simp [sequencerRow, hp]
    have e2 : rowsLeft u = 66 := by simp [rowsLeft, hp]
    rw [e, e2]; unfold cmdRow linkWriteByte
    rcases onAnswer_cases (writeByte (searchCommandByte u.alarm)) (fun r => LinkEvent.writeByte
        (searchCommandByte u.alarm) r.isSome) u
      (fun _ s1 => State.startBit 1 { s1 with lastZero := 0 }) with ⟨v, ad, hv, hx⟩ | ⟨ad, hv, hx⟩ | ⟨ad, hv,
          hx⟩ <;> rw [hx]
    · right; show 65 < 66; omega
    · right; rw [hr _ rfl]; omega
    · left; rfl
  | sBit =>
    have hi : u.i.toNat ≤ 64 := h.index_le hp h2
    have e : sequencerRow u = bitRow u := by simp [sequencerRow, hp]
    have e2 : rowsLeft u = 66 - u.i.toNat := by simp [rowsLeft, hp]
    rw [e, e2]; unfold bitRow linkTriplet
    rcases onAnswer_cases (triplet u.dir) (.triplet u.dir) u State.takeStatus with ⟨st, ad, hv, hx⟩ | ⟨ad, hv, hx⟩ |
        ⟨ad, hv, hx⟩ <;> rw [hx]
    · right
      unfold State.takeStatus
      split
      · rw [hr _ rfl]; omega
      · simp only
        split
        · show 1 < _; omega
        · rename_i h64
          have h64 : u.i ≠ 64 := h64
          have : u.i.toNat ≠ 64 := fun h => h64 (BitVec.eq_of_toNat_eq h)
          have : (u.i + 1).toNat = u.i.toNat + 1 := by simp [BitVec.toNat_add]; omega
          show 66 - (u.i + 1).toNat < _
          omega
    · right; rw [hr _ rfl]; omega
    · left; rfl
  | sCheck =>
    have e : sequencerRow u = checkRow u := by simp [sequencerRow, hp]
    have e2 : rowsLeft u = 1 := by simp [rowsLeft, hp]
    rw [e, e2]; unfold checkRow
    right
    split
    · rw [hr _ rfl]; omega
    · split <;> (rw [hr _ rfl]; omega)

/-- The walk with enough rows is over. -/
theorem Walk.run {s : State} {a : Bool} (hs : s.hung = false) (n : Nat) (u : State) (h
    : Walk s a u) (hn : rowsLeft u ≤ n) :
    Over s a (runRows n u) := by
  have hend : ∀ u, Walk s a u → (u.phase = .idle ∨ u.hung = true) → Over s a u := by
    intro u hu hc
    cases hu with
    | reset => rcases hc with hc | hc
               · cases hc
               · exact absurd hc (by simp [hs])
    | cmd => rcases hc with hc | hc
             · cases hc
             · exact absurd hc (by simp [hs])
    | bit _ ts hm hn hp => rcases hc with hc | hc
                           · rw [hp] at hc; cases hc
                           · rw [hm.hung] at hc; cases hc
    | check _ ts hm hn hp => rcases hc with hc | hc
                             · rw [hp] at hc; cases hc
                             · rw [hm.hung] at hc; cases hc
    | ended _ h => exact h
  induction n generalizing u with
  | zero =>
    by_cases hh' : u.hung = true
    · exact hend u h (.inr hh')
    apply hend u h
    left; cases hp : u.phase <;> simp [rowsLeft, hp] at hn
    · rfl
    · exfalso
      cases h with
      | reset => cases hp
      | cmd => cases hp
      | bit _ ts hm hl hp hi =>
        rw [hi] at hn; simp at hn; omega
      | check _ ts hm hn hp' => rw [hp] at hp'; cases hp'
      | ended _ ho =>
        cases ho with
        | hung _ ev h hh => exact absurd hh hh'
        | raised _ ev h hh hp' => rw [hp] at hp'; cases hp'
        | soft _ ev h hh hp' => rw [hp] at hp'; cases hp'
        | success u ts hm hn hc hz => cases hp
  | succ n ih =>
    by_cases hc : u.phase = .idle ∨ u.hung = true
    · rw [runRows_stop _ _ hc]; exact hend u h hc
    · simp only [not_or, Bool.not_eq_true] at hc
      rw [runRows_step _ _ hc.1 hc.2]
      rcases h.row_less hc.1 hc.2 with hh | hl
      · rw [runRows_stop _ _ (.inr hh)]; exact hend _ (h.row hs hc.1 hc.2) (.inr hh)
      · exact ih _ (h.row hs hc.1 hc.2) (by omega)

/-- A search entered with `LDF` clear is over after its rows. -/
theorem search_over (s : State) (a : Bool) (hs : s.hung = false) (hldf : s.ldf = false) : Over s a (search a s) := by
  have : search a s = runRows 67 { s with alarm := a, phase := .sReset } := by
    simp only [search, State.enterSearch, hldf]; rfl
  rw [this]
  exact Walk.run hs 67 _ .reset (by simp [rowsLeft])

end Sys2Proof.Machine
end

