-- ==== Sys2Proof/Laws/Answers.lean ====
section
/-! SUPPORT. How many channel answers an operation uses at most, and that it hangs only on an answer that never comes
(R246): said once for any supply of answers (`Supply`), then of a search (`search_returns`). -/

namespace Sys2Proof.Machine

/-- A supply of answers, `P n a` saying that the next `n` answers of `a` all come. -/
structure Supply (P : Nat → Adapter → Prop) : Prop where
  less : ∀ n a, P (n + 1) a → P n a
  next : ∀ n a, P (n + 1) a → a.nextAnswer.1 ≠ .never ∧ P n a.nextAnswer.2
  log : ∀ n a (log : List ChanAccess), P n a → P n { a with chanLog := log }
  bridge : ∀ n a (b : Bridge), P n a → P n { a with bridge := b }
  drawn : ∀ n a (b : Bridge), P n a → P n { a with bridge := b, draws := a.draws + 1 }

/-- A list of answers that all come, long enough. -/
def Listed (n : Nat) (a : Adapter) : Prop := n ≤ a.script.length ∧ .never ∉ a.script

/-- No answer, listed or free, is one that never comes. -/
def AllCome (a : Adapter) : Prop := .never ∉ a.script ∧ ∀ k, a.draws ≤ k → Config.freeAnswer k ≠ .never

theorem listed_supply : Supply Listed where
  less _ _ h := ⟨Nat.le_of_succ_le h.1, h.2⟩
  next n a h := by
    obtain ⟨hl, hn⟩ := h
    unfold Adapter.nextAnswer
    cases hs : a.script with
    | nil => rw [hs] at hl; cases hl
    | cons x rest =>
      rw [hs] at hl hn
      exact ⟨fun h => hn (h ▸ List.mem_cons_self), Nat.le_of_succ_le_succ hl, fun h => hn (List.mem_cons_of_mem _ h)⟩
  log _ _ _ h := h
  bridge _ _ _ h := h
  drawn _ _ _ h := h

theorem allCome_supply : Supply fun _ => AllCome where
  less _ _ h := h
  next _ a h := by
    obtain ⟨hn, hf⟩ := h
    unfold Adapter.nextAnswer
    cases hs : a.script with
    | nil => exact ⟨hf _ (Nat.le_refl _), by simp, fun k hk => hf k (Nat.le_of_succ_le hk)⟩
    | cons x rest =>
      rw [hs] at hn
      exact ⟨fun h => hn (h ▸ List.mem_cons_self), fun h => hn (List.mem_cons_of_mem _ h), hf⟩
  log _ _ _ h := h
  bridge _ _ _ h := h
  drawn _ _ _ h := ⟨h.1, fun k hk => h.2 k (Nat.le_of_succ_le hk)⟩

/-- `f` uses at most `k` answers of a supply, and does not hang on them. -/
def Uses {α : Type} (P : Nat → Adapter → Prop) (k : Nat) (f : Adapter → Res Adapter α) : Prop :=
  ∀ n a, P (n + k) a → (∀ b, f a ≠ .hung b) ∧ P n (f a).after

variable {P : Nat → Adapter → Prop} (hP : Supply P)

theorem Supply.le (hP : Supply P) {m n : Nat} {a : Adapter} (h : P n a) (hmn : m ≤ n) : P m a := by
  obtain ⟨k, rfl⟩ := Nat.exists_eq_add_of_le hmn
  induction k with
  | zero => exact h
  | succ k ih => exact ih (hP.less _ _ h) (Nat.le_add_right _ _)

include hP

theorem Uses.bind {α β : Type} {k j : Nat} {f : Adapter → Res Adapter α} {g : α → Adapter → Res Adapter β}
    (hf : Uses P k f) (hg : ∀ v, Uses P j (g v)) : Uses P (k + j) fun a => (f a).bind g := by
  intro n a h
  obtain ⟨h1, h2⟩ := hf (n + j) a (by rwa [Nat.add_assoc, Nat.add_comm j k])
  dsimp only
  cases hr : f a with
  | ok v a1 => rw [hr] at h2; exact hg v n a1 h2
  | raised a1 => rw [hr] at h2; exact ⟨by simp, hP.le h2 (Nat.le_add_right _ _)⟩
  | hung a1 => exact absurd hr (h1 a1)

theorem Uses.more {α : Type} {k j : Nat} {f : Adapter → Res Adapter α} (hf : Uses P k f) (h : k ≤ j) : Uses P j f :=
  fun n a hp => hf n a (hP.le hp (Nat.add_le_add_left h n))

omit hP in
theorem Uses.value {α : Type} (v : α) : Uses P 0 fun a => .ok v a := fun _ _ h => ⟨by simp, h⟩

theorem call_uses (acc : ChanAccess) : Uses P 1 (Adapter.call acc) := by
  intro n a h
  obtain ⟨h1, h2⟩ := hP.next n a h
  unfold Adapter.call
  split <;> (rename_i e; rw [e] at h1 h2)
  · exact ⟨by simp, hP.log _ _ _ h2⟩
  · exact ⟨by simp, hP.log _ _ _ h2⟩
  · exact absurd rfl h1

theorem chanWrite_uses (bytes : List Byte) : Uses P 1 (chanWrite bytes) := by
  intro n a h
  obtain ⟨h1, h2⟩ := call_uses hP (.write bytes) n a h
  unfold chanWrite
  split
  · cases hc : a.call (.write bytes) with
    | ok v a1 => rw [hc] at h2; exact ⟨by simp, hP.drawn _ _ _ h2⟩
    | raised a1 => rw [hc] at h2; exact ⟨by simp, hP.drawn _ _ _ h2⟩
    | hung a1 => exact absurd hc (h1 a1)
  · exact ⟨by simp, hP.less _ _ h⟩

theorem chanReadAs_uses (f : Byte → Bridge → Bridge) : Uses P 1 (chanReadAs f) := by
  intro n a h
  obtain ⟨h1, h2⟩ := call_uses hP .read n a h
  unfold chanReadAs Adapter.access
  split
  · cases hc : a.call .read with
    | ok v a1 => rw [hc] at h2; exact ⟨by simp [Res.bind], hP.bridge _ _ _ h2⟩
    | raised a1 => rw [hc] at h2; exact ⟨by simp [Res.bind], h2⟩
    | hung a1 => exact absurd hc (h1 a1)
  · exact ⟨by simp [Res.bind], hP.less _ _ h⟩

theorem pollReads_uses (m : Nat) : Uses P m (pollReads m) := by
  induction m with
  | zero => exact Uses.value none
  | succ m ih =>
    have h := Uses.bind hP (g := fun s a1 => if busy s then pollReads m a1 else .ok (some s) a1)
      (chanReadAs_uses hP Bridge.afterStatus) fun v => by
        split
        · exact ih
        · exact (Uses.value _).more hP (Nat.zero_le _)
    exact h.more hP (by omega)

theorem resetBridge_uses : Uses P 17 resetBridge :=
  Uses.bind hP (chanWrite_uses hP [0xF0]) fun _ =>
    Uses.bind (j := 0) hP (pollReads_uses hP 16) fun r => by
      cases r <;> exact Uses.value _

/-- A polled command uses at most 34 answers: its write and 16 reads, and the same for its recovery (R100, R206). -/
theorem polledCommand_uses (bytes : List Byte) : Uses P 34 (polledCommand bytes) :=
  Uses.bind (j := 33) hP (chanWrite_uses hP bytes) fun _ =>
    Uses.bind (j := 17) hP (pollReads_uses hP 16) fun r => by
      cases r
      · exact Uses.bind (j := 0) hP (resetBridge_uses hP) fun _ => Uses.value none
      · exact (Uses.value (some _)).more hP (Nat.zero_le _)

theorem busReset_uses : Uses P 34 busReset := Uses.bind (j := 0) hP (polledCommand_uses hP _) fun _ => Uses.value _

theorem writeByte_uses (v : Byte) : Uses P 34 (writeByte v) :=
  Uses.bind (j := 0) hP (polledCommand_uses hP _) fun _ => Uses.value _

theorem triplet_uses (d : Bool) : Uses P 34 (triplet d) :=
  Uses.bind (j := 0) hP (polledCommand_uses hP _) fun _ => Uses.value _

omit hP in
/-- A row that waits for an answer uses the answers of its request, and does not hang on them. -/
theorem onAnswer_uses {α : Type} {k : Nat} (f : Adapter → Res Adapter α) (e : Option α → LinkEvent) (s : State)
    (g : α → State → State) (hf : Uses P k f) (hg : ∀ v s1, (g v s1).adapter = s1.adapter ∧ (g v s1).hung = s1.hung)
    (n : Nat) (h : P (n + k) s.adapter) :
    (onAnswer (linkRequest f e s) g).hung = s.hung ∧ P n (onAnswer (linkRequest f e s) g).adapter := by
  obtain ⟨h1, h2⟩ := hf n _ h
  rcases onAnswer_cases f e s g with ⟨v, a, hv, hr⟩ | ⟨a, hv, hr⟩ | ⟨a, hv, hr⟩ <;> rw [hr]
  · rw [hv] at h2
    rw [(hg v _).1, (hg v _).2]
    exact ⟨rfl, h2⟩
  · rw [hv] at h2; exact ⟨rfl, h2⟩
  · exact absurd hv (h1 a)

omit hP in
theorem takeStatus_adapter (st : Byte) (s : State) :
    (s.takeStatus st).adapter = s.adapter ∧ (s.takeStatus st).hung = s.hung := by
  unfold State.takeStatus
  split
  · exact ⟨rfl, rfl⟩
  · dsimp only; split <;> exact ⟨by simp, by simp⟩

/-- A row that makes a request uses at most 34 answers and does not hang on them. -/
theorem sequencerRow_uses (u : State) (n : Nat) (hc : u.phase ≠ .idle ∧ u.phase ≠ .sCheck)
    (h : P (n + 34) u.adapter) : (sequencerRow u).hung = u.hung ∧ P n (sequencerRow u).adapter := by
  unfold sequencerRow
  cases hp : u.phase with
  | idle => exact absurd hp hc.1
  | sReset => exact onAnswer_uses _ _ u _ (busReset_uses hP) (fun v _ => by cases v <;> exact ⟨rfl, rfl⟩) n h
  | sCmd =>
    exact onAnswer_uses _ _ u (fun _ s1 => State.startBit 1 { s1 with lastZero := 0 }) (writeByte_uses hP _)
      (fun _ _ => ⟨rfl, rfl⟩) n h
  | sBit => exact onAnswer_uses _ _ u _ (triplet_uses hP _) takeStatus_adapter n h
  | sCheck => exact absurd hp hc.2

/-- A search does not hang when the answers to its 66 link requests all come. -/
theorem search_returns (s : State) (a : Bool) (hs : s.hung = false) (h : P (66 * 34) s.adapter) :
    (search a s).hung = false := by
  cases hl : s.ldf with
  | true => rw [search_lastDevice s a hl]; exact hs
  | false =>
    have e : search a s = runRows 67 { s with alarm := a, phase := .sReset } := by
      simp only [search, State.enterSearch, hl]; rfl
    rw [e]
    refine (runRows_keeps (fun u => u.hung = false ∧ Walk s a u ∧
        (u.phase ≠ .idle → P (34 * (rowsLeft u - 1)) u.adapter)) ?_ 67
      { s with alarm := a, phase := .sReset } ⟨hs, .reset, fun _ => h⟩).1
    intro u h1 h2 ⟨_, hw, hpu⟩
    have hpu := hpu h1
    by_cases hc : u.phase = .sCheck
    · have hx : (sequencerRow u).hung = u.hung ∧ (sequencerRow u).phase = .idle := by
        have e : sequencerRow u = checkRow u := by simp [sequencerRow, hc]
        rw [e]; unfold checkRow
        split
        · exact ⟨rfl, rfl⟩
        · split <;> exact ⟨rfl, rfl⟩
      exact ⟨hx.1.trans h2, hw.row hs h1 h2, fun hn => absurd hx.2 hn⟩
    · have h3 : 2 ≤ rowsLeft u := by
        cases hp : u.phase with
        | idle => exact absurd hp h1
        | sReset => simp [rowsLeft, hp]
        | sCmd => simp [rowsLeft, hp]
        | sBit => have := hw.index_le hp h2; simp only [rowsLeft, hp]; omega
        | sCheck => exact absurd hp hc
      obtain ⟨q1, q2⟩ := sequencerRow_uses hP u (34 * (rowsLeft u - 2)) ⟨h1, hc⟩
        (hP.le hpu (by omega))
      have q1 := q1.trans h2
      refine ⟨q1, hw.row hs h1 h2, fun _ => hP.le q2 ?_⟩
      rcases hw.row_less h1 h2 with hh | hr
      · rw [q1] at hh; cases hh
      · omega

end Sys2Proof.Machine
end

