-- ==== Sys2Proof/Laws/PerInstr.lean ====
section
/-! SUPPORT. One family of lemmas over the constructors of Instr: how many bytes a command has (R74, R83, R86). -/

namespace Sys2Proof.Laws.EncodedLength

/-- A command is one or two bytes, and the first of them decides which: two exactly for a bridge opcode that takes a
parameter (R74). -/
def Statement (i : Instr) : Prop :=
  (encode i).length = if spaceOf i = .bridge ∧ takesParameter ((encode i).headD 0) = true then 2 else 1

theorem crcFold : Statement .crcFold := rfl
theorem crcCompute : Statement .crcCompute := rfl
theorem srchBegin : Statement .srchBegin := rfl
theorem srchSearch (a : Bool) : Statement (.srchSearch a) := rfl
theorem srchCont : Statement .srchCont := rfl
theorem exclBegin : Statement .exclBegin := rfl
theorem exclEnd : Statement .exclEnd := rfl
theorem brDrst : Statement .brDrst := rfl
theorem brSrp (p : Byte) : Statement (.brSrp p) := rfl
theorem brWcfg (p : Byte) : Statement (.brWcfg p) := rfl
theorem brChsl (p : Byte) : Statement (.brChsl p) := rfl
theorem br1wrs : Statement .br1wrs := rfl
theorem br1wsb (p : Byte) : Statement (.br1wsb p) := rfl
theorem br1wwb (p : Byte) : Statement (.br1wwb p) := rfl
theorem br1wrb : Statement .br1wrb := rfl
theorem br1wt (p : Byte) : Statement (.br1wt p) := rfl
theorem romSearch : Statement .romSearch := rfl
theorem romAlarm : Statement .romAlarm := rfl
theorem romMatch : Statement .romMatch := rfl
theorem romSkip : Statement .romSkip := rfl
theorem romRead : Statement .romRead := rfl

end Sys2Proof.Laws.EncodedLength
end

