-- ==== Sys2Proof/Laws/Step.lean ====
section
/-! SUPPORT. What a step is for each kind of next request (log 3). -/

namespace Sys2Proof.Machine

theorem fetch_hung (s : State) (h : s.hung = true) : fetch s = .ended (.fault .channelHung) := by
  rw [fetch, if_pos h]

theorem fetch_nothing (s : State) (h : s.hung = false) (hr : s.requests = []) : fetch s = .ended (.next s) := by
  rw [fetch, if_neg (by simp [h]), hr]

/-- The next request is served at the state without it. -/
theorem fetch_request (s : State) (r : Request) (rest : List Request) (h : s.hung = false)
    (hr : s.requests = r :: rest) : fetch s = serve r { s with requests := rest } := by
  rw [fetch, if_neg (by simp [h]), hr]

theorem step_run (s s1 : State) (i : Instr) (h : fetch s = .run i s1) : step s = exec i s1 := by
  rw [step, h]

theorem step_ended (s : State) (o : Host.Outcome State Fault Refusal) (h : fetch s = .ended o) : step s = o := by
  rw [step, h]

/-- Every command of the table has a next state (`exec` neither faults nor refuses). -/
theorem exec_next (i : Instr) (s : State) : ∃ t, exec i s = .next t := by
  cases i <;> exact ⟨_, rfl⟩

/-! What an adapter operation may change. -/

/-- The end of an adapter operation changes the adapter, and may hang the machine; nothing else. -/
theorem endCall_adapter {α : Type} (f : α → AdapterResult) (r : Res Adapter α) (s : State) :
    ∃ ad h, s.endCall f r = { s with adapter := ad, hung := h } ∧ (h = s.hung ∨ h = true) := by
  cases r with
  | ok v a => exact ⟨_, s.hung, rfl, .inl rfl⟩
  | raised a => exact ⟨_, s.hung, rfl, .inl rfl⟩
  | hung a => exact ⟨_, true, rfl, .inr rfl⟩

/-- A call from the adapter's owner changes the adapter, and may hang the machine; nothing else. -/
theorem callAdapter_adapter (op : AdapterCall) (s : State) :
    ∃ ad h, s.callAdapter op = { s with adapter := ad, hung := h } ∧ (h = s.hung ∨ h = true) := by
  cases op with
  | selectChannel ch =>
    simp only [State.callAdapter, State.selectChannel]
    split
    · exact ⟨_, s.hung, rfl, .inl rfl⟩
    · exact endCall_adapter _ _ _
  | transferBlock b o l =>
    simp only [State.callAdapter, State.transferBlock]
    split
    · exact ⟨_, s.hung, rfl, .inl rfl⟩
    · obtain ⟨ad, h, e, h2⟩ := endCall_adapter (fun _ => AdapterResult.done) (transferRange b o l s.adapter).2 s
      rw [e]; exact ⟨_, h, rfl, h2⟩
  | _ => exact endCall_adapter _ _ _

/-- What a serve that goes on comes to: a command run at `s`, or one of the transactions that are over at once. -/
theorem serve_cases (r : Request) (s : State) :
    (∃ i, serve r s = .run i s) ∨
    (∃ n v, r = .regWrite n v ∧ n ≠ 0x00 ∧ serve r s = .ended (.next (s.hostWrite n v))) ∨
    (∃ v, r = .regWrite 0x00 v ∧ serve r s = .ended (.next s.illegalCommand)) ∨
    (∃ n, r = .regRead n ∧ serve r s = .ended (.next (s.hostRead n))) ∨
    (∃ k v, r = .bufWrite k v ∧ serve r s = .ended (s.bufWrite k v)) ∨
    (∃ k, r = .bufRead k ∧ serve r s = .ended (s.bufRead k)) ∨
    (∃ op, r = .call op ∧ serve r s = .ended (.next (s.callAdapter op))) ∨
    (r = .blockReset ∧ serve r s = .ended (.next s.blockReset)) ∨
    (∃ e, serve r s = .ended (.refused e)) := by
  cases r with
  | regWrite n v =>
    by_cases hn : n = 0x00
    · subst hn
      have hf : serve (.regWrite 0x00 v) s = fetchHost (v.setWidth 8) s := rfl
      rw [hf]
      unfold fetchHost
      split
      · exact .inl ⟨_, rfl⟩
      · exact .inr (.inr (.inl ⟨v, rfl, rfl⟩))
    · exact .inr (.inl ⟨n, v, rfl, hn, by rw [serve, if_neg hn]⟩)
  | regRead n => exact .inr (.inr (.inr (.inl ⟨n, rfl, rfl⟩)))
  | bufWrite k v => exact .inr (.inr (.inr (.inr (.inl ⟨k, v, rfl, rfl⟩))))
  | bufRead k => exact .inr (.inr (.inr (.inr (.inr (.inl ⟨k, rfl, rfl⟩)))))
  | bridge bytes =>
    have hf : serve (.bridge bytes) s = fetchBridge bytes s := rfl
    rw [hf]
    unfold fetchBridge
    split
    · exact .inl ⟨_, rfl⟩
    · exact .inr (.inr (.inr (.inr (.inr (.inr (.inr (.inr ⟨_, rfl⟩)))))))
    · exact .inr (.inr (.inr (.inr (.inr (.inr (.inr (.inr ⟨_, rfl⟩)))))))
  | romCmd b =>
    have hf : serve (.romCmd b) s = fetchRomCmd b s := rfl
    rw [hf]
    unfold fetchRomCmd
    split
    · exact .inl ⟨_, rfl⟩
    · exact .inr (.inr (.inr (.inr (.inr (.inr (.inr (.inr ⟨_, rfl⟩)))))))
  | call op => exact .inr (.inr (.inr (.inr (.inr (.inr (.inl ⟨op, rfl, rfl⟩))))))
  | blockReset => exact .inr (.inr (.inr (.inr (.inr (.inr (.inr (.inl ⟨rfl, rfl⟩)))))))

end Sys2Proof.Machine
end

