-- ==== Sys2Proof/Tests/Slice0.lean ====
section
/-! SUPPORT. Tests of the model against the encodings and the vectors of spec/, and for every statement with hypotheses
a concrete state that meets them (spec/95_test_vectors.md, spec/30_encoding.md). -/

open Sys2Proof Sys2Proof.Machine

namespace Sys2Proof.Tests

/-! Small states. -/

/-- The next state of an answer. -/
def next? : Host.Outcome State Fault Refusal → Option State
  | .next t => some t
  | .fault _ => none
  | .refused _ => none

/-- The reset state with one request pending. -/
def asked (r : Request) : State := { State.reset with requests := [r] }

/-- An adapter whose channel gives the answers `script`. -/
def answering (script : List ChanAnswer) : Adapter := { Adapter.resetFrom Config.defaultParams with script := script }

/-- A block with `ROM` and a session, over a channel that gives the answers `script`. -/
def blockOver (rom : Vector Byte 8) (ld lfd : BitIndex) (ldf : Bool) (script : List ChanAnswer) : State :=
  { State.resetFrom rom 0 (answering script) with ld := ld, lfd := lfd, ldf := ldf }

/-- The bytes of `ROM` after reset in V-S1. -/
def romAA : Vector Byte 8 := #v[0xAA, 0xAA, 0xAA, 0xAA, 0xAA, 0xAA, 0xAA, 0xAA]

/-- Device A of the vectors. -/
def romA : Vector Byte 8 := #v[0x28, 0x01, 0x00, 0x00, 0x00, 0x00, 0x00, 0x29]

/-- Device B of the vectors. -/
def romB : Vector Byte 8 := #v[0x2C, 0x01, 0x00, 0x00, 0x00, 0x00, 0x00, 0xDD]

/-- The statuses of one device: 0x40 where its bit is 0, 0xA0 where it is 1. -/
def statusesOf (rom : Vector Byte 8) : List Byte :=
  (List.range 64).map fun k => if (romByte rom (k / 8)).getLsbD (k % 8) then 0xA0 else 0x40

/-- What a search leaves: `FOUND`, `CAUSE`, `ROM`, `LD`, `LFD`, `LDF`. -/
structure Session where
  found : Bool
  cause : Nibble
  rom : List Byte
  ld : BitIndex
  lfd : BitIndex
  ldf : Bool
deriving DecidableEq, Repr

/-- What a search left. -/
def session (s : State) : Session := ⟨s.found, s.cause, s.rom.toList, s.ld, s.lfd, s.ldf⟩

/-- The directions of the triplets asked, oldest first. -/
def directions (s : State) : List Bool :=
  s.linkLog.reverse.filterMap fun e => match e with | .triplet d _ => some d | .busReset _ => none | .writeByte _ _ => none

/-- Channel traffic of an adapter operation, oldest first, and its result. -/
def traffic (op : AdapterCall) (script : List ChanAnswer) : List ChanAccess × AdapterResult :=
  let s := State.callAdapter op { State.reset with adapter := answering script }
  (s.adapter.chanLog.reverse, s.adapter.result)

/-- Sixteen busy status bytes. -/
def busy16 : List Byte := List.replicate 16 0x01

/-! WellFormed: an ill-formed term for each check. -/

theorem test_wf_refuses_selector : (Instr.brSrp 0xF0).wf Config.defaultParams = false := by decide
theorem test_wf_refuses_config_without_complement : (Instr.brWcfg 0x11).wf Config.defaultParams = false := by decide
theorem test_wf_refuses_unknown_select_byte : (Instr.brChsl 0x00).wf Config.defaultParams = false := by decide
theorem test_wf_refuses_single_bit_byte : (Instr.br1wsb 0x01).wf Config.defaultParams = false := by decide
theorem test_wf_refuses_mixed_direction : (Instr.br1wt 0x0F).wf Config.defaultParams = false := by decide
theorem test_wf_accepts_the_forms_of_R76_to_R80 :
    ([.brSrp 0xE1, .brWcfg 0xA5, .brChsl 0xF0, .br1wsb 0x80, .br1wt 0xFF] : List Instr).all
      (Instr.wf Config.defaultParams) = true := by decide

/-! Decode: the words of R72, R75 and R83, written out. -/

theorem test_decode_host :
    decode .host [0b00010000] = .ok .crcFold ∧ decode .host [0b00010001] = .ok .crcCompute ∧
    decode .host [0b00100000] = .ok .srchBegin ∧ decode .host [0b00100010] = .ok (.srchSearch false) ∧
    decode .host [0b00100011] = .ok (.srchSearch true) ∧ decode .host [0b00110000] = .ok .exclBegin ∧
    decode .host [0b00110001] = .ok .exclEnd := by decide

/-- 0x22 is also the word of `SRCH.CONT`, whose core name is `SRCH.SEARCH 0` (R89). -/
theorem test_decode_srchCont : encode .srchCont = [0b00100010] ∧
    decode .host (encode .srchCont) = .ok Instr.srchCont.core := by decide

theorem test_decode_bridge_one_byte :
    decode .bridge [0b11110000] = .ok .brDrst ∧ decode .bridge [0b10110100] = .ok .br1wrs ∧
    decode .bridge [0b10010110] = .ok .br1wrb := by decide

theorem test_decode_bridge_two_bytes :
    decode .bridge [0b11100001, 0b11100001] = .ok (.brSrp 0xE1) ∧
    decode .bridge [0b11010010, 0b10100101] = .ok (.brWcfg 0xA5) ∧
    decode .bridge [0b11000011, 0b11110000] = .ok (.brChsl 0xF0) ∧
    decode .bridge [0b10000111, 0b10000000] = .ok (.br1wsb 0x80) ∧
    decode .bridge [0b10100101, 0b01010101] = .ok (.br1wwb 0x55) ∧
    decode .bridge [0b01111000, 0b11111111] = .ok (.br1wt 0xFF) := by decide

theorem test_decode_romCmd :
    decode .romCmd [0b11110000] = .ok .romSearch ∧ decode .romCmd [0b11101100] = .ok .romAlarm ∧
    decode .romCmd [0b01010101] = .ok .romMatch ∧ decode .romCmd [0b11001100] = .ok .romSkip ∧
    decode .romCmd [0b00110011] = .ok .romRead := by decide

/-- Rejected by name: an unassigned HOST byte (V-S13), an unlisted opcode, a missing parameter, a byte too many. -/
theorem test_decode_rejects :
    decode .host [0x21] = .error (.unassignedHostByte 0x21) ∧ decode .bridge [0x77] = .error (.unlistedOpcode 0x77) ∧
    decode .bridge [0x78] = .error (.missingParameter 0x78) ∧ decode .bridge [0xF0, 0x00] = .error .extraBytes ∧
    decode .bridge [] = .error .noByte ∧ decode .romCmd [0x44] = .error (.unknownRomCommand 0x44) := by decide

theorem test_table_words :
    decodeTableWord 8 0x10 = some .crcFold ∧ decodeTableWord 8 0x23 = some (.srchSearch true) ∧
    decodeTableWord 16 0xFF78 = some (.br1wt 0xFF) ∧ decodeTableWord 8 0xB4 = some .br1wrs ∧
    decodeTableWord 8 0xEC = some .romAlarm ∧ decodeTableWord 8 0x78 = some (.br1wt 0x00) ∧
    decodeTableWord 8 0x21 = none := by decide

/-! A word placed at the next fetch runs as the first instruction after reset. -/

theorem test_first_step_host : ∃ t, step (State.reset.withFetchWord 8 0x31) = .next t ∧ t.cause = 0 := ⟨_, rfl, rfl⟩
theorem test_first_step_search : ∃ t, step (State.reset.withFetchWord 8 0x20) = .next t := ⟨_, rfl⟩
theorem test_first_step_bridge : ∃ t, step (State.reset.withFetchWord 16 0xFF78) = .next t := ⟨_, rfl⟩
theorem test_first_step_romCmd : ∃ t, step (State.reset.withFetchWord 8 0x55) = .next t := ⟨_, rfl⟩

/-! The CRC unit (2.1). -/

/-- V-F1 to V-F10. -/
theorem test_fold_vectors :
    fold 0x00 0x00 = 0x00 ∧ fold 0x00 0x01 = 0x5E ∧ fold 0x01 0x00 = 0x5E ∧ fold 0xFF 0x00 = 0x35 ∧
    fold 0x00 0xFF = 0x35 ∧ fold 0xFF 0xFF = 0x00 ∧ fold 0xA5 0xA5 = 0x00 ∧ fold 0x12 0x34 = 0xFE ∧
    fold 0x80 0x00 = 0x8C ∧ fold 0x5E 0x01 = 0x9A := by decide +kernel

/-- V-C7, V-C8, V-C12, V-C14, V-C16, V-C20, V-C21. -/
theorem test_compute_vectors :
    compute [0xFF, 0xFF] 0 2 0 = some 0xB4 ∧ compute [0x28, 0x01, 0, 0, 0, 0, 0] 0 7 0 = some 0x29 ∧
    compute [0x31, 0x32, 0x33, 0x34, 0x35, 0x36, 0x37, 0x38, 0x39] 0 9 0 = some 0xA1 ∧
    compute [0x01, 0x02] 0 2 0xFF = some 0xF9 ∧ compute [0xAA, 0x55, 0x10, 0x20] 1 2 0x3C = some 0x75 ∧
    compute [0xAA, 0x55, 0x10, 0x20] 3 2 0 = none ∧ compute [0xAA, 0x55, 0x10, 0x20] 4 0 0x7E = some 0x7E := by
  decide +kernel

/-- P2: the first round. -/
theorem test_crcFold :
    (next? (exec .crcFold { State.reset with cseed := 0x00, cdata := 0x28 })).map (fun t => (t.cres, t.cause)) =
      some (0xE1, 0) := by decide +kernel

/-- P1: the check byte of `BUF[0..6]`, then all eight bytes. -/
theorem test_crcCompute :
    let s : State := { State.reset with
      buf := [(0, 0x02), (1, 0x1C), (2, 0xB8), (3, 0x01), (4, 0x00), (5, 0x00), (6, 0x00), (7, 0xA2)] }
    (next? (exec .crcCompute { s with blen := 7 })).map (·.cres) = some 0xA2 ∧
    (next? (exec .crcCompute { s with blen := 8 })).map (·.cres) = some 0x00 := by decide +kernel

/-- V-C20: the sum of 0xFFFF and 2 is not cut to 16 bits (R190). -/
theorem test_crcCompute_outside :
    (next? (exec .crcCompute { State.reset with boff := 0xFFFF, blen := 2, cres := 0x5A })).map
      (fun t => (t.cres, t.cause)) = some (0x5A, 0x8) := by decide +kernel

/-! The bridge command protocol (2.2). -/

/-- V-B4a, V-B4c. -/
theorem test_resetBridge :
    traffic .resetBridge [.done 0, .done 0x10] = ([.write [0xF0], .read], .reset (.ok true)) ∧
    traffic .resetBridge [.done 0, .done 0x14] = ([.write [0xF0], .read], .reset .busFault) := by decide +kernel

/-- V-B4d. -/
theorem test_resetBridge_timeout :
    traffic .resetBridge (.done 0 :: busy16.map .done) =
      (.write [0xF0] :: List.replicate 16 .read, .reset .pollTimeout) := by decide +kernel

/-- V-B5. -/
theorem test_writeConfig :
    traffic (.writeConfig 0x5) [.done 0, .done 0x05] = ([.write [0xD2, 0xA5], .read], .byte 0x05) := by decide +kernel

/-- V-B6a, V-B6b, V-B6c. -/
theorem test_selectChannel :
    traffic (.selectChannel 0) [.done 0, .done 0xB8] = ([.write [0xC3, 0xF0], .read], .bool true) ∧
    traffic (.selectChannel 0) [.done 0, .done 0xB9] = ([.write [0xC3, 0xF0], .read], .bool false) ∧
    traffic (.selectChannel 8) [] = ([], .hardError .malformedInput) := by decide +kernel

/-- V-B7a, V-B10. -/
theorem test_triplet :
    traffic (.triplet true) [.done 0, .done 0xE1, .done 0xA0] = ([.write [0x78, 0xFF], .read, .read], .byte 0xA0) ∧
    traffic (.triplet false) [.done 0, .done 0x01, .done 0x01, .ioError] =
      ([.write [0x78, 0x00], .read, .read, .read], .hardError .transportError) := by decide +kernel

/-- V-B8. -/
theorem test_triplet_timeout :
    traffic (.triplet false) (.done 0 :: busy16.map .done ++ [.done 0, .done 0x01, .done 0x10]) =
      (.write [0x78, 0x00] :: List.replicate 16 .read ++ [.write [0xF0], .read, .read], .byte 0x00) := by
  decide +kernel

/-! The one-wire link (2.3). -/

/-- V-L1b, V-L1c, V-L1e, V-L1f. -/
theorem test_busReset :
    (traffic .busReset [.done 0, .done 0x06]).2 = .bus .presenceDetected ∧
    (traffic .busReset [.done 0, .done 0x04]).2 = .bus .shortDetected ∧
    (traffic .busReset [.done 0, .done 0x08]).2 = .bus .noPresence ∧
    (traffic .busReset [.done 0, .done 0x03, .done 0xFA]).2 = .bus .presenceDetected := by decide +kernel

/-- V-L2a, V-L2b. -/
theorem test_writeBit :
    (traffic (.writeBit true) [.done 0, .done 0x20]).2 = .bit true ∧
    (traffic (.writeBit true) [.done 0, .done 0xC0]).2 = .bit false := by decide +kernel

/-- V-L4. -/
theorem test_readByte :
    traffic .readByte [.done 0, .done 0, .done 0, .done 0, .done 0x28] =
      ([.write [0x96], .read, .write [0xE1, 0xE1], .read, .read], .byte 0x28) := by decide +kernel

/-- V-L5a: the bytes before the sentinel are sent, the positions from it on are read. -/
theorem test_transferBlock :
    (State.transferBlock [0xCC, 0xBE, 0xFF, 0xFF] 0 4 (blockOver romA 0 0 false
      ([.done 0, .done 0, .done 0, .done 0] ++ [.done 0, .done 0, .done 0, .done 0, .done 0x12] ++
        [.done 0, .done 0, .done 0, .done 0, .done 0x34]))).adapter.block = [0xCC, 0xBE, 0x12, 0x34] := by
  decide +kernel

/-- V-L5c: no sentinel, all writes. -/
theorem test_transferBlock_writes :
    (State.transferBlock [0xCC, 0x44] 0 2 (blockOver romA 0 0 false
      [.done 0, .done 0, .done 0, .done 0])).adapter.chanLog.reverse =
      [.write [0xA5, 0xCC], .read, .write [0xA5, 0x44], .read] := by decide +kernel

/-- R83: a ROM command byte is sent with `writeByte`. -/
theorem test_romMatch :
    (next? (exec .romMatch { State.reset with adapter := answering [.done 0, .done 0] })).map
      (fun t => t.adapter.chanLog.reverse) = some [.write [0xA5, 0x55], .read] := by decide +kernel

/-! The search (2.4). -/

/-- The statuses of V-S1, command 1: A's, with 0x00 at index 3. -/
def statusesS1 : List Byte := (statusesOf romA).set 2 0x00

/-- V-S1, command 1. -/
theorem test_search_first :
    (next? (exec .srchBegin (blockOver romAA 0 0 false (searchAnswers 0x02 0 statusesS1)))).map
      (fun t => (session t, directions t)) =
      some (⟨true, 0, romA.toList, 3, 3, false⟩, List.replicate 64 false) := by decide +kernel

/-- V-S1, command 2. -/
theorem test_search_second :
    (next? (exec .srchCont (blockOver romA 3 3 false (searchAnswers 0x02 0 ((statusesOf romB).set 2 0x80))))).map
      (fun t => (session t, directions t)) =
      some (⟨true, 0, romB.toList, 0, 3, true⟩, [false, false, true] ++ List.replicate 61 false) := by decide +kernel

/-- V-S1, command 3. -/
theorem test_search_over :
    (next? (exec .srchCont (blockOver romB 0 3 true []))).map (fun t => (session t, t.linkLog)) =
      some (⟨false, 0x9, romB.toList, 0, 0, false⟩, []) := by decide +kernel

/-- V-S4. -/
theorem test_search_empty_bus :
    (next? (exec .srchBegin (blockOver #v[1, 2, 3, 4, 5, 6, 7, 8] 5 3 false [.done 0, .done 0x00]))).map session =
      some ⟨false, 0x2, [1, 2, 3, 4, 5, 6, 7, 8], 0, 0, false⟩ := by decide +kernel

/-- V-S8. -/
theorem test_search_short :
    (next? (exec .srchCont (blockOver romA 7 7 false [.done 0, .done 0x04]))).map session =
      some ⟨false, 0x1, romA.toList, 0, 0, false⟩ := by decide +kernel

/-- V-S6: a timeout at index 10, no response at index 11. -/
theorem test_search_no_response :
    (next? (exec .srchBegin (blockOver #v[0xFF, 0xFF, 0xFF, 0xFF, 0xFF, 0xFF, 0xFF, 0xFF] 0 0 false
      (searchAnswers 0x02 0 ((statusesOf romA).take 9) ++ [.done 0] ++ busy16.map .done ++ [.done 0, .done 0x10] ++
        [.done 0, .done 0xE0])))).map session =
      some ⟨false, 0x3, [0x28, 0xFD, 0xFF, 0xFF, 0xFF, 0xFF, 0xFF, 0xFF], 0, 0, false⟩ := by decide +kernel

/-- V-S7. -/
theorem test_search_all_zero :
    (next? (exec .srchBegin (blockOver #v[0x55, 0x55, 0x55, 0x55, 0x55, 0x55, 0x55, 0x55] 0 0 false
      (searchAnswers 0x02 0 (List.replicate 64 0x00))))).map session =
      some ⟨false, 0xA, [0, 0, 0, 0, 0, 0, 0, 0], 0, 0, false⟩ := by decide +kernel

/-- V-S9: the alarm variant sends 0xEC. -/
theorem test_search_alarm :
    (next? (exec (.srchSearch true) (blockOver romAA 0 0 false
      (searchAnswers 0x02 0 (statusesOf #v[0x28, 0xFF, 0x4B, 0x3C, 0x01, 0x16, 0x04, 0x07]))))).map
      (fun t => (session t, t.linkLog.reverse[1]?)) =
      some (⟨true, 0, [0x28, 0xFF, 0x4B, 0x3C, 0x01, 0x16, 0x04, 0x07], 0, 0, true⟩, some (.writeByte 0xEC true)) := by
  decide +kernel

/-- V-S10. -/
theorem test_search_bad_check_byte :
    (next? (exec .srchBegin (blockOver romAA 0 0 false
      (searchAnswers 0x02 0 (statusesOf #v[0x28, 0x01, 0, 0, 0, 0, 0, 0x28]))))).map session =
      some ⟨false, 0x6, [0x28, 0x01, 0, 0, 0, 0, 0, 0x28], 0, 0, false⟩ := by decide +kernel

/-- V-S11: triplet 20 ends in a hard error. -/
theorem test_search_hard_error :
    (next? (exec .srchBegin (blockOver romAA 0 0 false
      (searchAnswers 0x02 0 (statusesS1.take 19) ++ [.ioError])))).map (fun t => (session t, t.linkLog.length)) =
      some (⟨false, 0x7, [0x28, 0x01, 0xA8, 0xAA, 0xAA, 0xAA, 0xAA, 0xAA], 0, 3, false⟩, 22) := by decide +kernel

/-- V-S12, command 2: the forced bit is the last one. -/
theorem test_search_last_bit_forced :
    (next? (exec .srchCont (blockOver romA 64 0 false (searchAnswers 0x02 0 ((statusesOf romA).set 63 0x80))))).map
      (fun t => (session t, (directions t)[63]?)) =
      some (⟨false, 0x6, [0x28, 0x01, 0, 0, 0, 0, 0, 0xA9], 0, 0, false⟩, some true) := by decide +kernel

/-- V-S13. -/
theorem test_illegal_command : step (asked (.regWrite 0x00 0x21)) = .next { State.reset with cause := 0xB } := by rfl

/-- V-S14. -/
theorem test_direction :
    ([1, 2, 3, 4, 5].map fun i => direction 4 i #v[0x10, 0, 0, 0, 0, 0, 0, 0]) = [false, false, false, true, false] ∧
    ([1, 2, 3, 4, 5, 6, 7, 8, 9, 10, 11].map fun i => direction 10 i #v[0x28, 0x01, 0, 0, 0, 0, 0, 0]) =
      [false, false, false, true, false, true, false, false, true, true, false] := by decide +kernel

/-- V-S15. -/
theorem test_rom_bits :
    ((List.range 64).filter fun k => getBit romA (BitVec.ofNat 7 (k + 1))) = [3, 5, 8, 56, 59, 61] ∧
    (setBit romA 64 true).toList.getLast? = some 0xA9 ∧ (setBit romA 1 true).toList.head? = some 0x29 ∧
    (setBit #v[0, 0xFF, 0, 0, 0, 0, 0, 0] 10 false).toList[1]? = some 0xFD := by decide +kernel

/-- V-R1: a register read after reset. -/
theorem test_read_after_reset : step (asked (.regRead 0x01)) = .next { State.reset with hostOut := [0] } := by rfl

/-- V-R2. -/
theorem test_marker : (next? (exec .exclBegin State.reset)).map (·.excl) = some true ∧
    (next? (exec .exclEnd { State.reset with excl := true })).map (·.excl) = some false := by decide +kernel

/-- P5: WB then RB of the same byte. -/
theorem test_buffer :
    (next? (step (asked (.bufWrite 7 0x37)))).map (fun t => (t.bufByte 7, t.buf)) = some (0x37, [(7, 0x37)]) ∧
    step (asked (.bufWrite 65536 0)) = .fault (.bufIndexOutside 65536) := ⟨by decide +kernel, rfl⟩

/-! Witnesses: for each statement with hypotheses, states and operands that meet all of them together. -/

/-- The next request is `r` on a machine that is not hung. -/
def Pending (s : State) (r : Request) : Prop := s.hung = false ∧ s.requests = r :: []

theorem pending_asked (r : Request) : Pending (asked r) r := ⟨rfl, rfl⟩

theorem witness_BlockResetTouchesNoBus : Pending (asked .blockReset) .blockReset := pending_asked _

/-- Every clause: each readable number, the first and last `ROM` byte, the write-only and the unlisted numbers. -/
theorem witness_HostReadShowsTheRegister :
    (∀ n : Byte, Pending (asked (.regRead n)) (.regRead n)) ∧ (0x08 : Byte).toNat = 8 + 0 ∧ (0x0F : Byte).toNat = 8 + 7 ∧
      (0x14 : Byte) < 0x15 ∧ (0x14 : Byte) < 0xFF := ⟨fun _ => pending_asked _, by decide⟩

/-- Every clause: an operand register, and a number that is none (0x12 read-only, 0xFF unlisted). -/
theorem witness_HostWriteReachesOperandsOnly :
    (∀ n : Byte, Pending (asked (.regWrite n 0xFFFF)) (.regWrite n 0xFFFF)) ∧
      (∀ n ∈ [0x12, (0xFF : Byte)], n ≠ 0x00 ∧ n ≠ 0x10 ∧ n ≠ 0x11 ∧ n ≠ 0x13 ∧ n ≠ 0x14) :=
  ⟨fun _ => pending_asked _, by decide⟩

/-- Both sides of the end of `BUF`. -/
theorem witness_BufferWriteChangesOneByte :
    Pending (asked (.bufWrite 65535 1)) (.bufWrite 65535 1) ∧ 65535 < State.reset.adapter.cfg.bufSize ∧
    Pending (asked (.bufRead 65535)) (.bufRead 65535) ∧
    Pending (asked (.bufWrite 65536 1)) (.bufWrite 65536 1) ∧ State.reset.adapter.cfg.bufSize ≤ 65536 ∧
    Pending (asked (.bufRead 65536)) (.bufRead 65536) := by
  refine ⟨pending_asked _, ?_, pending_asked _, pending_asked _, ?_, pending_asked _⟩ <;> decide

theorem witness_DecodeIsTheInverseOfEncode : decode .bridge [0x78, 0x00] = .ok (.br1wt 0x00) ∧
    decode .host [0x22] = .ok (.srchSearch false) ∧ decode .romCmd [0xF0] = .ok .romSearch ∧
    (Instr.srchSearch false).core = .srchSearch false := by decide

theorem witness_IllegalCommandChangesCauseOnly : Pending (asked (.regWrite 0x00 0x0021)) (.regWrite 0x00 0x0021) ∧
    ((0x0021 : Half).setWidth 8 : Byte) ∉ [0x10, 0x11, 0x20, 0x22, 0x23, 0x30, (0x31 : Byte)] :=
  ⟨pending_asked _, by decide⟩

theorem witness_StepRunsTheDecodedCommand :
    (Pending (asked (.regWrite 0x00 0x20)) (.regWrite 0x00 0x20) ∧ decode .host [(0x20 : Half).setWidth 8] = .ok .srchBegin) ∧
    (Pending (asked (.bridge [0x78, 0xFF])) (.bridge [0x78, 0xFF]) ∧ decode .bridge [0x78, 0xFF] = .ok (.br1wt 0xFF)) ∧
    (Pending (asked (.romCmd 0x55)) (.romCmd 0x55) ∧ decode .romCmd [0x55] = .ok .romMatch) :=
  ⟨⟨pending_asked _, by decide⟩, ⟨pending_asked _, by decide⟩, ⟨pending_asked _, by decide⟩⟩

theorem witness_HungMachineIsStuck : ({ State.reset with hung := true } : State).hung = true := rfl

/-- Each of the stops is reached: a hung machine, a bad index, an unlisted opcode, a missing parameter, an unknown byte. -/
theorem witness_StepStopsOnlyWhereNamed :
    step { State.reset with hung := true } = .fault .channelHung ∧
    step (asked (.bufRead 65536)) = .fault (.bufIndexOutside 65536) ∧
    step (asked (.bridge [0x77])) = .refused (.unlistedOpcode 0x77) ∧
    step (asked (.bridge [0x78])) = .refused .malformedBridgeCommand ∧
    step (asked (.romCmd 0x44)) = .refused (.unknownRomCommand 0x44) := ⟨rfl, rfl, rfl, rfl, rfl⟩

/-- Both sides of the end of `BUF`, and length 0 at its end. -/
theorem witness_CrcCommandsWriteResultAndCause :
    (let s : State := { State.reset with boff := 0xFFFF, blen := 2 }
     s.adapter.cfg.bufSize < s.boff.toNat + s.blen.toNat) ∧
    (let s : State := { State.reset with boff := 0xFFFF, blen := 1 }
     s.boff.toNat + s.blen.toNat ≤ s.adapter.cfg.bufSize) ∧
    (let s : State := { State.reset with boff := 0xFFFF, blen := 0 }
     s.blen = 0 ∧ s.boff.toNat ≤ s.adapter.cfg.bufSize) := by decide

theorem witness_ComputeFoldsSequentially :
    (4 ≤ [0xAA, 0x55, 0x10, (0x20 : Byte)].length) ∧
    (3 + 0 < [0xAA, 0x55, 0x10, (0x20 : Byte)].length ∧ [0xAA, 0x55, 0x10, (0x20 : Byte)][3]? = some 0x20) := by decide

theorem witness_CheckByteProperties : romA.toList.dropLast.length = 7 ∧ romA.toList.dropLast[6]? = some 0x00 ∧
    (0x01 : Byte) ≠ 0x00 := by decide

theorem witness_ExclusiveMarkerIsAPlainFlag : Instr.crcFold ≠ .exclBegin ∧ Instr.crcFold ≠ .exclEnd ∧
    ∃ t, exec .crcFold State.reset = .next t := ⟨by decide, by decide, _, rfl⟩

/-- Both ends of the index range. -/
theorem witness_RomBitIndexMap : (1 : BitIndex) ≤ 1 ∧ (1 : BitIndex) ≤ 64 ∧ (64 : BitIndex) ≤ 64 ∧ (64 : BitIndex) ≠ 1 := by
  decide

theorem witness_SearchAfterLastDeviceEnds : (blockOver romB 0 3 true []).ldf = true := rfl

theorem witness_ContinueIsNormalSearch : State.reset.ld = 0 ∧ State.reset.lfd = 0 ∧ State.reset.ldf = false ∧
    State.reset.faulted = false := ⟨rfl, rfl, rfl, rfl⟩

/-- A short and an empty bus. -/
theorem witness_FailedBusResetEndsTheSearch :
    (∃ ad, busReset (answering [.done 0, .done 0x04]) = .ok .shortDetected ad) ∧
    (∃ ad, busReset (answering [.done 0, .done 0x00]) = .ok .noPresence ad) ∧
    (blockOver romA 7 7 false []).hung = false ∧ (blockOver romA 7 7 false []).ldf = false :=
  ⟨⟨_, rfl⟩, ⟨_, rfl⟩, rfl, rfl⟩

/-- Both values of the alarm flag. -/
theorem witness_CommandByteAndLoopStart :
    (∃ ad, writeByte 0xEC (answering [.done 0, .done 0]) = .ok () ad) ∧
    (∃ ad, writeByte 0xF0 (answering [.done 0, .done 0]) = .ok () ad) := ⟨⟨_, rfl⟩, ⟨_, rfl⟩⟩

theorem witness_ProvisionalDirection : (3 : BitIndex).toNat < (4 : BitIndex).toNat ∧ (4 : BitIndex) = 4 ∧
    (4 : BitIndex).toNat < (5 : BitIndex).toNat := by decide

/-- No response; any other answer, in the middle and at the last index; two answers that differ in bits 0 to 4. -/
theorem witness_TripletAnswerIsTaken :
    ((0x60 : Byte).getLsbD 5 = true ∧ (0x60 : Byte).getLsbD 6 = true) ∧
    ¬ ((0x40 : Byte).getLsbD 5 = true ∧ (0x40 : Byte).getLsbD 6 = true) ∧
    ({ State.reset with i := 64 } : State).i = 64 ∧ ({ State.reset with i := 63 } : State).i ≠ 64 ∧
    (0xA0 : Byte).extractLsb' 5 3 = (0xBF : Byte).extractLsb' 5 3 := by decide +kernel

/-- A check byte that does not match; a matching all-zero code; a matching code that is not all zero. -/
theorem witness_CompletionConditions :
    (let rom : Vector Byte 8 := #v[0x28, 0x01, 0, 0, 0, 0, 0, 0x28]
     compute rom.toList 0 7 0 ≠ some (romByte rom 7)) ∧
    (let rom : Vector Byte 8 := #v[0, 0, 0, 0, 0, 0, 0, 0]
     compute rom.toList 0 7 0 = some (romByte rom 7) ∧ ∀ k, k < 8 → romByte rom k = 0) ∧
    (compute romA.toList 0 7 0 = some (romByte romA 7) ∧ romByte romA 0 ≠ 0) := by decide +kernel

theorem witness_HardErrorEndsTheRow :
    (∃ ad, busReset (answering [.ioError]) = .raised ad) ∧
    (∃ ad, writeByte (searchCommandByte false) (answering [.ioError]) = .raised ad) ∧
    (∃ ad, triplet false (answering [.ioError]) = .raised ad) := ⟨⟨_, rfl⟩, ⟨_, rfl⟩, ⟨_, rfl⟩⟩

/-- Sixteen busy reads and a recovery. -/
def timeoutAnswers : List ChanAnswer := .done 0 :: busy16.map .done ++ polledAnswers 0 [] 0x10 ++ []

/-- A recovery that completes, and one that times out itself. -/
theorem witness_recoveries : RecoveryAnswers (polledAnswers 0 [] 0x10) 1 ∧
    RecoveryAnswers (.done 0 :: busy16.map .done) 16 :=
  ⟨.inl ⟨0, [], 0x10, ⟨by decide, by decide, by decide⟩, rfl, rfl⟩, .inr ⟨0, busy16, rfl, by decide, rfl, rfl⟩⟩

theorem witness_TimeoutsInsideASearchAreNotFailures : (answering timeoutAnswers).chanOpen = true ∧ busy16.length = 16 ∧
    (∀ b ∈ busy16, busy b = true) ∧ RecoveryAnswers (polledAnswers 0 [] 0x10) 1 ∧
    (answering timeoutAnswers).script = .done 0 :: busy16.map .done ++ polledAnswers 0 [] 0x10 ++ [] :=
  ⟨rfl, rfl, by decide, witness_recoveries.1, rfl⟩

/-- The same where the recovery times out itself. -/
theorem witness_TimeoutsInsideASearchAreNotFailures_twice :
    RecoveryAnswers (.done 0 :: busy16.map .done) 16 ∧
    (answering (.done 0 :: busy16.map .done ++ (.done 0 :: busy16.map .done))).script =
      .done 0 :: busy16.map .done ++ (.done 0 :: busy16.map .done) ++ [] := ⟨witness_recoveries.2, rfl⟩

/-- Answers that all come, as many as a search may use, and an answer that never comes. -/
theorem witness_EverySearchEnds : (blockOver romAA 0 0 false (List.replicate (66 * 34) (.done 0))).hung = false ∧
    66 * 34 ≤ (List.replicate (66 * 34) (ChanAnswer.done 0)).length ∧
    .never ∉ List.replicate (66 * 34) (ChanAnswer.done 0) ∧
    ∃ t, exec (.srchSearch false) (blockOver romAA 0 0 false [.never]) = .next t ∧ t.hung = true :=
  ⟨rfl, by rw [List.length_replicate], fun h => (by cases List.eq_of_mem_replicate h), _, rfl, by decide +kernel⟩

theorem witness_SearchFrame : ∃ t, exec .srchBegin State.reset = .next t := ⟨_, rfl⟩

/-- The state of V-S1, command 1, and the same with triplet 20 in a hard error (V-S11). -/
def stateS1 : State := blockOver romAA 0 0 false (searchAnswers 0x02 0 statusesS1)

/-- V-S11. -/
def stateS11 : State := blockOver romAA 0 0 false (searchAnswers 0x02 0 (statusesS1.take 19) ++ [.ioError])

/-- V-S8. -/
def stateS8 : State := blockOver romA 7 7 false [.done 0, .done 0x04]

/-- A search that fails softly. -/
theorem witness_FailedSearchResetsTheSession : ∃ t, stateS8.hung = false ∧ exec (.srchSearch false) stateS8 = .next t ∧
    t.hung = false ∧ t.found = false ∧ t.cause ≠ 0x7 := ⟨_, rfl, rfl, by decide +kernel⟩

theorem witness_HardErrorKeepsLdAndLdf : ∃ t, stateS11.hung = false ∧ exec (.srchSearch false) stateS11 = .next t ∧
    t.hung = false ∧ t.cause = 0x7 := ⟨_, rfl, rfl, by decide +kernel⟩

theorem witness_LinkTransactionsOfASearch : stateS1.hung = false ∧ stateS1.ldf = false ∧
    (∃ t, exec (.srchSearch false) stateS1 = .next t) ∧ (∃ t, exec .srchCont stateS1 = .next t) ∧
    (∃ t, exec .srchBegin stateS1 = .next t) ∧ (∃ t, exec .crcFold stateS1 = .next t) :=
  ⟨rfl, rfl, ⟨_, rfl⟩, ⟨_, rfl⟩, ⟨_, rfl⟩, ⟨_, rfl⟩⟩

/-- A search that finds a code; it also meets the hypotheses about directions. -/
theorem witness_FoundCodeIsWhatTheTripletsTook : ∃ t, stateS1.hung = false ∧ stateS1.ldf = false ∧
    exec (.srchSearch false) stateS1 = .next t ∧ t.hung = false ∧ t.found = true := ⟨_, rfl, rfl, rfl, by decide +kernel⟩

/-- A replayed prefix, the forced bit and zeros after it (V-S1, command 2). -/
theorem witness_DirectionsReplayTheLastCode :
    ∃ t, exec (.srchSearch false) (blockOver romA 3 3 false (searchAnswers 0x02 0 ((statusesOf romB).set 2 0x80))) = .next t ∧
      t.linkLog.reverse[3]? = some (.triplet false (some 0x40)) ∧
      t.linkLog.reverse[4]? = some (.triplet true (some 0x80)) ∧
      t.linkLog.reverse[65]? = some (.triplet false (some 0xA0)) := ⟨_, rfl, by decide +kernel⟩

/-- The enumeration ends, and the next search meets a short. -/
theorem witness_EnumerationEndsOnceInARow : ∃ t u, exec (.srchSearch false) (blockOver romB 0 3 true [.done 0, .done 4]) = .next t ∧
    t.hung = false ∧ exec (.srchSearch false) t = .next u ∧ u.hung = false ∧ t.cause = 0x9 ∧ u.cause = 0x1 :=
  ⟨_, _, rfl, by decide +kernel, rfl, by decide +kernel⟩

/-- A state that meets the session invariant with a code found, and a step from it. -/
theorem witness_SessionInvariantIsKept :
    SessionInv { blockOver romB 0 3 true [] with found := true, requests := [.regWrite 0x00 0x22] } ∧
    ∃ t, step { blockOver romB 0 3 true [] with found := true, requests := [.regWrite 0x00 0x22] } = .next t ∧
      t.cause = 0x9 := by
  refine ⟨fun _ _ => ⟨by decide, by decide, fun _ => rfl, fun _ => by decide +kernel, fun h => by cases h⟩, _, rfl, ?_⟩
  decide +kernel

/-- A quiet machine with one byte listed, and a write below it. -/
theorem witness_QuietAndBufferInvariantsAreKept :
    let s : State := { State.reset with buf := [(5, 1)], requests := [.bufWrite 4 2] }
    QuietInv s ∧ BufInv s ∧ ∃ t, step s = .next t ∧ t.buf = [(4, 2), (5, 1)] :=
  ⟨fun _ => ⟨rfl, rfl, rfl, rfl, rfl⟩, ⟨by decide, by decide⟩, _, rfl, rfl⟩

theorem witness_OnlySearchesChangeTheSession : ∃ t, step (asked (.regWrite 0x00 0x10)) = .next t := ⟨_, rfl⟩

/-- Two sessions before the same answers; the search finds a code. -/
theorem witness_BeginIgnoresWhatWasLeft : ∃ t, stateS1.hung = false ∧ exec .srchBegin stateS1 = .next t ∧
    (∃ t', exec .srchBegin { stateS1 with rom := romB, ld := 9, lfd := 8, ldf := true, faulted := true } = .next t') ∧
    t.hung = false ∧ t.found = true := ⟨_, rfl, rfl, ⟨_, rfl⟩, by decide +kernel⟩

theorem witness_AlarmVariantDiffersInOneByte : (∃ t, exec (.srchSearch false) stateS1 = .next t) ∧
    ∃ t', exec (.srchSearch true) stateS1 = .next t' := ⟨⟨_, rfl⟩, ⟨_, rfl⟩⟩

theorem witness_SequencerRefinesTheListing : stateS1.hung = false ∧ ∃ t, exec (.srchSearch false) stateS1 = .next t :=
  ⟨rfl, _, rfl⟩

/-- Answers with which a search finds A, one with a bad check byte, one all zero: for each the bytes left in `ROM`. -/
theorem witness_SearchOverCleanAnswersCompletes :
    stateS1.hung = false ∧ stateS1.adapter.chanOpen = true ∧ stateS1.ldf = false ∧
    stateS1.adapter.script = searchAnswers 0x02 0 statusesS1 ++ [] ∧ busy 0x02 = false ∧ presencePulse 0x02 = true ∧
    busy 0x00 = false ∧ CleanStatuses statusesS1 ∧ CleanStatuses (List.replicate 64 0x00) ∧
    CleanStatuses (statusesOf #v[0x28, 0x01, 0, 0, 0, 0, 0, 0x28]) := by
  refine ⟨rfl, rfl, rfl, (List.append_nil _).symm, by decide, by decide, by decide, ⟨by decide, ?_⟩, ⟨by decide, ?_⟩,
    ⟨by decide, ?_⟩⟩ <;> decide +kernel

theorem witness_BridgeAndRomCommandsLeaveTheBlock : spaceOf .brDrst ≠ .host ∧ spaceOf .romSearch ≠ .host := by decide

/-- An open that fails leaves no channel to issue an operation on (R232). -/
theorem test_open_fails : (State.callAdapter .openChannel { State.reset with adapter := answering [.ioError] }).adapter.chanOpen =
    false := by decide

/-- A bus reset that fails at its write leaves the configuration (R34). -/
theorem test_failed_write_keeps_config :
    (next? (exec .br1wrs { State.reset with adapter := answering [.ioError] })).map
      (fun t => (t.adapter.bridge.config, t.adapter.result)) = some (0, .hardError .transportError) := by
  rw [show exec .br1wrs { State.reset with adapter := answering [.ioError] } =
    .next (State.endCall .bus (busReset (answering [.ioError])) { State.reset with adapter := answering [.ioError] }) from rfl]
  simp only [busReset, polledCommand, chanWrite_ioError [0xB4] (answering [.ioError]) [] rfl rfl, Res.bind, State.endCall,
    next?, Option.map, Bridge.afterFailedWrite_config _ _ 0xB4 [] _ (by decide) (by decide)]
  rfl

/-- A close that fails after an open that failed leaves no channel either (R232). -/
theorem test_failed_close_opens_nothing :
    (State.callAdapter .closeChannel (State.callAdapter .openChannel
      { State.reset with adapter := answering [.ioError, .ioError] })).adapter.chanOpen = false := by decide

/-- A search over a bus without devices keeps no index of its own (R200). -/
theorem test_aborted_index_is_not_kept :
    (next? (exec (.srchSearch true) (blockOver romAA 0 0 false (searchAnswers 0x02 0 [0x40, 0xE0])))).map
      (fun t => (t.phase, t.i, t.lastZero, t.alarm, t.cause)) = some (.idle, 0, 0, false, 0x3) := by decide +kernel

/-- The first and the last read that completes, and a timeout. -/
theorem witness_PollLoopIsBounded :
    (∃ a', pollLoop (answering [.done 0x12]) = .ok (some 0x12) a') ∧
    (∃ a', pollLoop (answering (busy16.map .done)) = .ok none a') ∧
    (PollCompletes (List.replicate 15 0x01) 0x00 ∧
      (answering ((List.replicate 15 0x01).map .done ++ .done 0x00 :: [])).script =
        (List.replicate 15 0x01).map .done ++ .done 0x00 :: []) ∧
    ((answering (busy16.map .done ++ [])).script = busy16.map .done ++ [] ∧ busy16.length = 16 ∧
      ∀ b ∈ busy16, busy b = true) ∧
    ((answering ((List.replicate 15 0x01).map .done ++ .ioError :: [])).script =
      (List.replicate 15 0x01).map .done ++ .ioError :: [] ∧ ∀ b ∈ List.replicate 15 (0x01 : Byte), busy b = true) := by
  refine ⟨⟨_, rfl⟩, ⟨_, rfl⟩, ⟨⟨by decide, by decide, by decide⟩, rfl⟩, ⟨rfl, rfl, by decide⟩, rfl, by decide⟩

theorem witness_PolledCommandsComplete : PollCompletes (List.replicate 15 0x01) 0x26 ∧
    (answering (polledAnswers 0 (List.replicate 15 0x01) 0x26 ++ [])).chanOpen = true ∧
    (answering (polledAnswers 0 (List.replicate 15 0x01) 0x26 ++ [])).script =
      polledAnswers 0 (List.replicate 15 0x01) 0x26 ++ [] := ⟨⟨by decide, by decide, by decide⟩, rfl, rfl⟩

theorem witness_DeviceResetClassifies :
    (PollCompletes [] 0x14 ∧ (answering (polledAnswers 0 [] 0x14 ++ [])).script = polledAnswers 0 [] 0x14 ++ []) ∧
    (busy16.length = 16 ∧ (∀ b ∈ busy16, busy b = true) ∧
      (answering (.done 0 :: busy16.map .done ++ [])).script = .done 0 :: busy16.map .done ++ []) :=
  ⟨⟨⟨by decide, by decide, by decide⟩, rfl⟩, rfl, by decide, rfl⟩

theorem witness_TimeoutRecoversOnceAndAnswersTheSentinel : (answering timeoutAnswers).chanOpen = true ∧
    busy16.length = 16 ∧ (∀ b ∈ busy16, busy b = true) ∧ RecoveryAnswers (polledAnswers 0 [] 0x10) 1 ∧
    (answering timeoutAnswers).script = .done 0 :: busy16.map .done ++ polledAnswers 0 [] 0x10 ++ [] :=
  ⟨rfl, rfl, by decide, witness_recoveries.1, rfl⟩

/-- A timeout in the only poll of an operation, in the second of readByte, and in resetBridge. -/
theorem witness_OperationsEndWithTheirSentinels :
    (∀ op, Pending { asked (.call op) with adapter := answering timeoutAnswers } (.call op)) ∧
    (answering timeoutAnswers).script = [] ++ (.done 0 :: busy16.map .done) ++ polledAnswers 0 [] 0x10 ++ [] ∧
    PollCompletes [] 0x00 ∧
    (answering (polledAnswers 0 [] 0x00 ++ timeoutAnswers)).script =
      polledAnswers 0 [] 0x00 ++ (.done 0 :: busy16.map .done) ++ polledAnswers 0 [] 0x10 ++ [] ∧
    (answering (.done 0 :: busy16.map .done)).script = .done 0 :: busy16.map .done ++ [] :=
  ⟨fun _ => ⟨rfl, rfl⟩, rfl, ⟨by decide, by decide, by decide⟩, rfl, rfl⟩

/-- A byte that carries its complement and one that does not, and a channel that fails the write. -/
theorem witness_WriteConfigReadsBack : (answering (.done 0 :: .done 0x05 :: [])).chanOpen = true ∧
    (answering (.done 0 :: .done 0x05 :: [])).script = .done 0 :: .done 0x05 :: [] ∧ configAccepted 0xA5 = true ∧
    configAccepted 0x55 = false ∧ (answering [.ioError]).chanOpen = true ∧ (answering [.ioError]).script = [.ioError] ∧
    spaceOf (.brWcfg 0xA5) ≠ .host ∧ spaceOf .br1wrs ≠ .host := by decide

/-- The first and last channel, one to each side of the range, and a select byte of the table. -/
theorem witness_SelectChannelComparesTheEcho :
    (∀ ch ∈ [0, (7 : Int)], Pending { asked (.call (.selectChannel ch)) with adapter := answering (.done 0 :: .done 0xB8 :: []) }
      (.call (.selectChannel ch)) ∧ 0 ≤ ch ∧ ch ≤ 7) ∧
    (∀ ch ∈ [-1, (8 : Int)], Pending (asked (.call (.selectChannel ch))) (.call (.selectChannel ch)) ∧ (ch < 0 ∨ 7 < ch)) ∧
    (channelOfSelect Config.defaultParams 0xF0 = some (0, 0xB8) ∧ channelOfSelect Config.defaultParams 0x87 = some (7, 0x87)) := by
  refine ⟨fun ch h => ⟨⟨rfl, rfl⟩, ?_⟩, fun ch h => ⟨pending_asked _, ?_⟩, by decide⟩ <;> revert ch <;> decide

theorem witness_ReadByteHasTwoPhases :
    PollCompletes [0x01] 0x00 ∧ PollCompletes [] 0x00 ∧
    Pending { asked (.call .readByte) with
      adapter := answering (polledAnswers 0 [0x01] 0x00 ++ polledAnswers 0 [] 0x00 ++ .done 0x28 :: []) } (.call .readByte) ∧
    (answering (polledAnswers 0 [] 0x00 ++ .done 0x28 :: [])).script = polledAnswers 0 [] 0x00 ++ .done 0x28 :: [] :=
  ⟨⟨by decide, by decide, by decide⟩, ⟨by decide, by decide, by decide⟩, ⟨rfl, rfl⟩, rfl⟩

/-- A byte sent, one that is read, and one behind the range, over answers that complete. -/
theorem witness_TransferBlockStaysInItsRange_answered :
    let w : Byte × PollAnswer := (0xCC, ⟨0, [0x01], 0x00⟩)
    let r : Byte × ReadAnswer := (0xFF, ⟨⟨0, [], 0x00⟩, ⟨0, [], 0x00⟩, 0x28⟩)
    let s : State := { asked (.call (.transferBlock ([] ++ [w].map (·.1) ++ [r].map (·.1) ++ [0x11]) 0 2)) with
      adapter := answering (w.2.answers ++ r.2.answers) }
    (w.1 ≠ 0xFF ∧ w.2.completes) ∧ r.1 = 0xFF ∧ r.2.completes ∧
      s.adapter.script = [w].flatMap (·.2.answers) ++ [r].flatMap (·.2.answers) ++ [] ∧ s.adapter.chanOpen = true ∧
      ∃ t, step s = .next t ∧ t.adapter.block = [0xCC, 0x28, 0x11] :=
  ⟨⟨by decide, by decide, by decide, by decide⟩, rfl, ⟨⟨by decide, by decide, by decide⟩, by decide, by decide, by decide⟩,
    rfl, rfl, _, rfl, by decide +kernel⟩

/-- A range that ends with the buffer, and one that goes past it by one byte. -/
theorem witness_TransferBlockStaysInItsRange :
    (1 + 2 ≤ [0xCC, 0xFF, (0x11 : Byte)].length ∧ 3 ≤ [0xCC, 0xFF, (0x11 : Byte)].length) ∧
    [0xCC, 0xFF, (0x11 : Byte)].length < 2 + 2 ∧
    Pending (asked (.call (.transferBlock [0xCC, 0xFF, 0x11] 2 2))) (.call (.transferBlock [0xCC, 0xFF, 0x11] 2 2)) :=
  ⟨by decide, by decide, pending_asked _⟩

/-- The third access of a triplet fails (V-B10). -/
theorem witness_TransportErrorEndsTheCommand :
    ∃ t, exec (.br1wt 0x00) { State.reset with adapter := answering ([0x00, 0x01].map .done ++ .ioError :: [.done 0]) } = .next t ∧
      t.adapter.script.length ≤ [ChanAnswer.done 0].length ∧ spaceOf (.br1wt 0x00) ≠ .host ∧
      t.adapter.result = .hardError .transportError := ⟨_, rfl, by decide +kernel, by decide, by decide +kernel⟩

/-- A close and an open that complete or fail, a close that fails on a closed channel, and a closed channel. -/
theorem witness_ClosedChannelIsATransportError :
    Pending { asked (.call .closeChannel) with adapter := answering (.done 0 :: []) } (.call .closeChannel) ∧
    (∀ op ∈ [AdapterCall.closeChannel, .openChannel],
      Pending { asked (.call op) with adapter := answering (.ioError :: []) } (.call op)) ∧
    Pending { asked (.call .closeChannel) with adapter := { answering (.ioError :: []) with chanOpen := false } }
      (.call .closeChannel) ∧ spaceOf .br1wrs ≠ .host ∧
    ({ Adapter.resetFrom Config.defaultParams with chanOpen := false } : Adapter).chanOpen = false ∧
    Pending { asked (.call .openChannel) with adapter := answering (.done 0 :: []) } (.call .openChannel) :=
  ⟨⟨rfl, rfl⟩, fun _ _ => ⟨rfl, rfl⟩, ⟨rfl, rfl⟩, by decide, rfl, rfl, rfl⟩

theorem witness_CauseCodesWritten : ∃ t, step (asked (.regWrite 0x00 0x21)) = .next t ∧ t.cause = 0xB := ⟨_, rfl, rfl⟩

end Sys2Proof.Tests
end

section
/-! PROOFS. Steps that run a command (R10): the bytes of the next request decode to an instruction, and the step is its
meaning at the state without the request. -/

namespace Sys2Proof.Machine

/-! Bytes that decode to a command are fetched as that command, in each space. -/

theorem fetchHost_of_decode (b : Byte) (s : State) (i : Instr) (h : decode .host [b] = .ok i) :
    fetchHost b s = .run i s := by
  rw [fetchHost, h]

theorem fetchBridge_of_decode (bytes : List Byte) (s : State) (i : Instr) (h : decode .bridge bytes = .ok i) :
    fetchBridge bytes s = .run i s := by
  rw [fetchBridge, h]

theorem fetchRomCmd_of_decode (b : Byte) (s : State) (i : Instr) (h : decode .romCmd [b] = .ok i) :
    fetchRomCmd b s = .run i s := by
  rw [fetchRomCmd, h]

/-! The three requests that carry a command are served by the fetch of their space. -/

@[simp] theorem serve_regWrite_cmd (v : Half) (s : State) :
    serve (.regWrite 0x00 v) s = fetchHost (v.setWidth 8) s := rfl

@[simp] theorem serve_bridge (bytes : List Byte) (s : State) : serve (.bridge bytes) s = fetchBridge bytes s := rfl

@[simp] theorem serve_romCmd (b : Byte) (s : State) : serve (.romCmd b) s = fetchRomCmd b s := rfl

/-- A request that is served as a command runs it at the state without the request. -/
theorem step_of_serve_run (s : State) (r : Request) (rest : List Request) (i : Instr) (h : s.hung = false)
    (hr : s.requests = r :: rest) (hs : serve r { s with requests := rest } = .run i { s with requests := rest }) :
    step s = exec i { s with requests := rest } :=
  step_run s _ i ((fetch_request s r rest h hr).trans hs)

/-- Settles O11, one space at a time: the request is served by the fetch of its space, which runs what its bytes
decode to. A value of `CMD` above 0xFF is read by its low byte (log 24). -/
theorem stepRunsTheDecodedCommand : Obligations.StepRunsTheDecodedCommand := by
  intro s i rest hung
  refine ⟨fun v hr hd => ?host, fun bytes hr hd => ?bridge, fun b hr hd => ?romCmd⟩
  case host => exact step_of_serve_run s _ rest i hung hr (by rw [serve_regWrite_cmd, fetchHost_of_decode _ _ i hd])
  case bridge => exact step_of_serve_run s _ rest i hung hr (by rw [serve_bridge, fetchBridge_of_decode _ _ i hd])
  case romCmd => exact step_of_serve_run s _ rest i hung hr (by rw [serve_romCmd, fetchRomCmd_of_decode _ _ i hd])

end Sys2Proof.Machine
end

section
/-! PROOFS. What one step can do (R10, log 3), said once: the shape of every adapter operation, where each command comes
from, and the effect of serving a request. -/

namespace Sys2Proof.Machine

/-! Every adapter operation keeps the parameters (R12, log 12). -/

theorem fillReads_setting (buffer : List Byte) (a : Adapter) : SameSetting a (fillReads buffer a).2.after := by
  induction buffer generalizing a with
  | nil => exact SameSetting.refl a
  | cons b rest ih =>
    have h := readByte_setting a
    unfold fillReads
    cases e : readByte a <;> rw [e] at h
    case ok v a1 => exact h.trans (ih a1)
    case raised | hung => exact h

theorem sendThenFill_setting (buffer : List Byte) (a : Adapter) : SameSetting a (sendThenFill buffer a).2.after := by
  induction buffer generalizing a with
  | nil => exact SameSetting.refl a
  | cons b rest ih =>
    have h := writeByte_setting b a
    unfold sendThenFill
    split
    · exact fillReads_setting _ a
    · cases e : writeByte b a <;> rw [e] at h
      case ok v a1 => exact h.trans (ih a1)
      case raised | hung => exact h

theorem openChannel_cfg (a : Adapter) : (openChannel a).after.cfg = a.cfg := by
  obtain ⟨h, -⟩ := call_setting (.opened a.cfg.busId a.cfg.bridgeAddress Config.addressBits a.cfg.clockSpeed) a
  unfold openChannel
  split <;> (rename_i e; rw [e] at h; exact h)

theorem closeChannel_cfg (a : Adapter) : (closeChannel a).after.cfg = a.cfg := by
  obtain ⟨h, -⟩ := call_setting .closed a
  unfold closeChannel
  split <;> (rename_i e; rw [e] at h; exact h)

theorem endCall_cfg {α : Type} (f : α → AdapterResult) {r : Res Adapter α} {s : State}
    (h : r.after.cfg = s.adapter.cfg) : (s.endCall f r).adapter.cfg = s.adapter.cfg := by
  cases r <;> exact h

theorem callAdapter_cfg (op : AdapterCall) (s : State) : (s.callAdapter op).adapter.cfg = s.adapter.cfg := by
  cases op with
  | resetBridge => exact endCall_cfg _ (resetBridge_setting _).1
  | writeConfig n => exact endCall_cfg _ (writeConfigByte_setting _ _).1
  | selectChannel ch =>
    simp only [State.callAdapter, State.selectChannel]
    split
    · rfl
    · exact endCall_cfg _ (selectWith_setting _ _ _).1
  | triplet d => exact endCall_cfg _ (tripletByte_setting _ _).1
  | busReset => exact endCall_cfg _ (busReset_setting _).1
  | writeBit b => exact endCall_cfg _ (singleBitByte_setting _ _).1
  | touchBit b => exact endCall_cfg _ (singleBitByte_setting _ _).1
  | writeByte v => exact endCall_cfg _ (writeByte_setting _ _).1
  | readByte => exact endCall_cfg _ (readByte_setting _).1
  | transferBlock buffer offset length =>
    simp only [State.callAdapter, State.transferBlock]
    split
    · rfl
    · exact endCall_cfg _ (sendThenFill_setting _ _).1
  | openChannel => exact endCall_cfg _ (openChannel_cfg _)
  | closeChannel => exact endCall_cfg _ (closeChannel_cfg _)

/-- A bridge or ROM command is one adapter operation, called and ended; the operation keeps the adapter's setting. -/
theorem exec_endCall (i : Instr) (hi : spaceOf i ≠ .host) :
    ∃ (α : Type) (f : α → AdapterResult) (op : Adapter → Res Adapter α),
      (∀ a, SameSetting a (op a).after) ∧ ∀ s, exec i s = .next (s.endCall f (op s.adapter)) := by
  cases i with
  | crcFold | crcCompute | srchBegin | srchSearch | srchCont | exclBegin | exclEnd => exact absurd rfl hi
  | brDrst => exact ⟨_, _, resetBridge, resetBridge_setting, fun _ => rfl⟩
  | brSrp p => exact ⟨_, _, readPhase2 p, readPhase2_setting p, fun _ => rfl⟩
  | brWcfg p => exact ⟨_, _, writeConfigByte p, writeConfigByte_setting p, fun _ => rfl⟩
  | brChsl p => exact ⟨_, _, selectByte p, fun a => selectWith_setting p _ a, fun _ => rfl⟩
  | br1wrs => exact ⟨_, _, busReset, busReset_setting, fun _ => rfl⟩
  | br1wsb p => exact ⟨_, _, singleBitByte p, singleBitByte_setting p, fun _ => rfl⟩
  | br1wwb p => exact ⟨_, _, writeByte p, writeByte_setting p, fun _ => rfl⟩
  | br1wrb => exact ⟨_, _, readPhase1Alone, readPhase1Alone_setting, fun _ => rfl⟩
  | br1wt p => exact ⟨_, _, tripletByte p, tripletByte_setting p, fun _ => rfl⟩
  | romSearch => exact ⟨_, _, writeByte 0xF0, writeByte_setting _, fun _ => rfl⟩
  | romAlarm => exact ⟨_, _, writeByte 0xEC, writeByte_setting _, fun _ => rfl⟩
  | romMatch => exact ⟨_, _, writeByte 0x55, writeByte_setting _, fun _ => rfl⟩
  | romSkip => exact ⟨_, _, writeByte 0xCC, writeByte_setting _, fun _ => rfl⟩
  | romRead => exact ⟨_, _, writeByte 0x33, writeByte_setting _, fun _ => rfl⟩

/-! Which command a request runs. -/

/-- The HOST commands and, for a search, the bytes it is written with (R72, R89). -/
theorem decode_host_cases {b : Byte} {i : Instr} (h : decode .host [b] = .ok i) :
    i ∈ [.crcFold, .crcCompute, .exclBegin, .exclEnd] ∨ (i = .srchBegin ∧ b = 0x20) ∨
      ∃ a, i = .srchSearch a ∧ b ∈ [0x22, (0x23 : Byte)] := by
  have hbits : ∀ b : Byte, b.extractLsb' 1 7 = 0x11 → b ∈ [0x22, (0x23 : Byte)] := by decide
  simp only [decode, decodeHost] at h
  split at h
  · cases h; simp
  split at h
  · cases h; simp
  split at h
  · next hb => cases h; simp [hb]
  split at h
  · next hb => cases h; exact .inr (.inr ⟨_, rfl, hbits b hb⟩)
  split at h
  · cases h; simp
  split at h
  · cases h; simp
  · cases h

theorem bridgeOneByte_space {op : Byte} {i : Instr} (h : bridgeOneByte op = some i) : spaceOf i = .bridge := by
  simp only [bridgeOneByte] at h
  repeat' split at h
  all_goals cases h
  all_goals rfl

theorem bridgeTwoByte_space {op p : Byte} {i : Instr} (h : bridgeTwoByte op p = some i) : spaceOf i = .bridge := by
  simp only [bridgeTwoByte] at h
  repeat' split at h
  all_goals cases h
  all_goals rfl

theorem decode_bridge_space {bytes : List Byte} {i : Instr} (h : decode .bridge bytes = .ok i) :
    spaceOf i = .bridge := by
  rcases bytes with _ | ⟨op, _ | ⟨p, _ | ⟨q, rest⟩⟩⟩ <;> simp only [decode, decodeBridge] at h
  · cases h
  · split at h
    · next hi => cases h; exact bridgeOneByte_space hi
    · cases h
  · split at h
    · next hi => cases h; exact bridgeTwoByte_space hi
    · cases h
  · cases h

theorem decode_romCmd_space {b : Byte} {i : Instr} (h : decode .romCmd [b] = .ok i) : spaceOf i = .romCmd := by
  simp only [decode, decodeRomCmd] at h
  repeat' split at h
  all_goals cases h
  all_goals rfl

/-! The effect of a request. -/

/-- What serving `r` can make of `s`. -/
inductive Effect (r : Request) (s : State) : State → Prop where
  /-- Host-port transactions, CRC and marker commands, an illegal command: registers outside the session and `BUF`. -/
  | registers (cause : Nibble) (excl : Bool) (cseed cdata cres : Byte) (boff blen : Half) (hostOut : List Half)
      (draws : Nat) :
      Effect r s { s with cause := cause, excl := excl, cseed := cseed, cdata := cdata, cres := cres, boff := boff,
                          blen := blen, hostOut := hostOut, draws := draws }
  /-- `WB` inside the space (R88). -/
  | bufWrite (k : Nat) (v : Byte) (hk : k < s.adapter.cfg.bufSize) : Effect r s { s with buf := s.buf.write k v }
  /-- Bridge and ROM commands, and calls of the adapter's owner. -/
  | adapter (ad : Adapter) (hung : Bool) (hcfg : ad.cfg = s.adapter.cfg) :
      Effect r s { s with adapter := ad, hung := hung }
  /-- `SRCH.SEARCH` (R142). -/
  | search (v : Half) (a : Bool) (hr : r = .regWrite 0x00 v) (hv : (v.setWidth 8 : Byte) ∈ [0x22, (0x23 : Byte)]) :
      Effect r s (search a s)
  /-- `SRCH.BEGIN` (R140). -/
  | beginSearch (v : Half) (hr : r = .regWrite 0x00 v) (hv : (v.setWidth 8 : Byte) = 0x20) :
      Effect r s (Machine.search false s.beginSession)
  /-- A reset of the block (R230). -/
  | blockReset (hr : r = .blockReset) : Effect r s s.blockReset

theorem exec_host_effect {v : Half} {s t : State} {i : Instr} (hd : decode .host [v.setWidth 8] = .ok i)
    (h : exec i s = .next t) : Effect (.regWrite 0x00 v) s t := by
  rcases decode_host_cases hd with hi | ⟨rfl, hv⟩ | ⟨a, rfl, hv⟩
  · simp only [List.mem_cons, List.not_mem_nil, or_false] at hi
    rcases hi with rfl | rfl | rfl | rfl
    · cases h; exact .registers ..
    · simp only [exec, execCrcCompute] at h
      split at h <;> (cases h; exact .registers ..)
    · cases h; exact .registers ..
    · cases h; exact .registers ..
  · cases h; exact .beginSearch v rfl hv
  · cases h; exact .search v a rfl hv

theorem exec_adapter_effect {r : Request} {s t : State} {i : Instr} (hi : spaceOf i ≠ .host)
    (h : exec i s = .next t) : Effect r s t := by
  obtain ⟨α, f, op, hop, he⟩ := exec_endCall i hi
  have hcfg := endCall_cfg f (hop s.adapter).1
  obtain ⟨ad, hung, e, -⟩ := endCall_adapter f (op s.adapter) s
  rw [he, e] at h
  rw [e] at hcfg
  cases h
  exact .adapter ad hung hcfg

theorem callAdapter_effect (r : Request) (op : AdapterCall) (s : State) : Effect r s (s.callAdapter op) := by
  have hcfg := callAdapter_cfg op s
  obtain ⟨ad, hung, e, -⟩ := callAdapter_adapter op s
  rw [e] at hcfg ⊢
  exact .adapter ad hung hcfg

theorem hostWrite_effect (r : Request) (n : Byte) (v : Half) (s : State) : Effect r s (s.hostWrite n v) := by
  unfold State.hostWrite
  repeat' split
  all_goals exact .registers ..

theorem hostRead_effect (r : Request) (n : Byte) (s : State) : Effect r s (s.hostRead n) := by
  unfold State.hostRead
  split <;> exact .registers ..

/-- What a fetched request comes to when it is run. -/
def Fetched.outcome : Fetched → Host.Outcome State Fault Refusal
  | .run i s => exec i s
  | .ended o => o

theorem step_eq_outcome (s : State) : step s = (fetch s).outcome := by
  unfold step
  cases fetch s <;> rfl

theorem serve_effect {r : Request} {s t : State} (h : (serve r s).outcome = .next t) : Effect r s t := by
  cases r with
  | regWrite n v =>
    by_cases hn : n = 0x00
    · subst hn
      rw [serve_regWrite_cmd] at h
      cases hd : decode .host [v.setWidth 8] with
      | ok i => rw [fetchHost_of_decode _ s i hd] at h; exact exec_host_effect hd h
      | error e => rw [fetchHost, hd] at h; cases h; exact .registers ..
    · rw [serve, if_neg hn] at h; cases h; exact hostWrite_effect ..
  | regRead n => cases h; exact hostRead_effect ..
  | bufWrite k v =>
    simp only [serve, Fetched.outcome, State.bufWrite] at h
    split at h
    · next hk => cases h; exact .bufWrite k v hk
    · cases h
  | bufRead k =>
    simp only [serve, Fetched.outcome, State.bufRead] at h
    split at h
    · cases h; exact .registers ..
    · cases h
  | bridge bytes =>
    rw [serve_bridge] at h
    cases hd : decode .bridge bytes with
    | ok i =>
      rw [fetchBridge_of_decode _ s i hd] at h
      exact exec_adapter_effect (by simp [decode_bridge_space hd]) h
    | error e => rw [fetchBridge, hd] at h; cases e <;> cases h
  | romCmd b =>
    rw [serve_romCmd] at h
    cases hd : decode .romCmd [b] with
    | ok i =>
      rw [fetchRomCmd_of_decode _ s i hd] at h
      exact exec_adapter_effect (by simp [decode_romCmd_space hd]) h
    | error e => rw [fetchRomCmd, hd] at h; cases h
  | call op => cases h; exact callAdapter_effect ..
  | blockReset => cases h; exact .blockReset rfl

/-- A step that goes on starts from a machine that is not hung, and is the effect of its next request, if there is one. -/
theorem step_cases {s t : State} (h : step s = .next t) :
    s.hung = false ∧
      (t = s ∨ ∃ r rest, s.requests = r :: rest ∧ Effect r { s with requests := rest } t) := by
  rw [step_eq_outcome] at h
  rcases Bool.eq_false_or_eq_true s.hung with hs | hs
  · rw [fetch_hung s hs] at h; cases h
  · refine ⟨hs, ?_⟩
    cases hr : s.requests with
    | nil => rw [fetch_nothing s hs hr] at h; cases h; exact .inl rfl
    | cons r rest => rw [fetch_request s r rest hs hr] at h; exact .inr ⟨r, rest, rfl, serve_effect h⟩

/-- A property that the list of requests does not touch and that every effect keeps is kept by every step. -/
theorem step_keeps {P : State → Prop} (hreq : ∀ s rest, P s → P { s with requests := rest })
    (heff : ∀ r s t, s.hung = false → P s → Effect r s t → P t) {s t : State} (h : P s) (hst : step s = .next t) :
    P t := by
  obtain ⟨hs, rfl | ⟨r, rest, -, he⟩⟩ := step_cases hst
  · exact h
  · exact heff r { s with requests := rest } t hs (hreq s rest h) he

end Sys2Proof.Machine
end

section
/-! PROOFS. The session invariant of R37: an empty session meets it, a search that is over meets it, and so every step
keeps it. -/

namespace Sys2Proof.Machine

theorem sessionInv_of_noSession {s : State} (hld : s.ld = 0) (hlfd : s.lfd = 0) (hldf : s.ldf = false)
    (hfound : s.found = false) : SessionInv s := fun _ _ => by
  simp [hld, hlfd, hldf, hfound]

theorem SessionInv.lfd_le {s : State} (h : SessionInv s) (hs : s.hung = false) (hx : s.faulted = false) :
    s.lfd ≤ 8 := by
  obtain ⟨-, hlfd, -⟩ := h hs hx
  exact hlfd

/-- After at most 64 triplets the highest zero is an index of the `ROM`, or 0. -/
theorem HighestZero.le_romBits {sts : List Byte} {ld : BitIndex} (h : HighestZero sts ld) (hn : sts.length ≤ 64) :
    ld ≤ 64 := by
  rcases h with ⟨rfl, -⟩ | ⟨k, st, hk, rfl, -⟩
  · decide
  · obtain ⟨hlt, -⟩ := List.getElem?_eq_some_iff.1 hk
    exact (ofNat7_range (by omega)).2

/-- The check of search step 5 (R151) is the check byte of R37. -/
theorem crc8_of_romCrcOk {rom : Vector Byte 8} (h : romCrcOk rom = true) :
    crc8 (rom.toList.take 7) = romByte rom 7 := by
  simpa [romCrcOk, compute, crc8] using h

/-- However a search is over, it leaves a session that meets the invariant; `LFD` of a code found may be the one of
entry. -/
theorem Over.sessionInv {s u : State} {a : Bool} (h : Over s a u) (hlfd : s.faulted = false → s.lfd ≤ 8) :
    SessionInv u := by
  cases h with
  | hung _ events h hh => exact fun hn => absurd hn (by simp [hh])
  | raised _ events h hh hp hl hf hd hc hx => exact fun _ hn => absurd hn (by simp [hx])
  | soft _ events h hh hp hl hl' hf hd => exact sessionInv_of_noSession hl hl' hf hd
  | success u ts hm hn hc hz =>
    intro _ hx
    have hld : u.lastZero ≤ 64 := hm.zero.le_romBits (by simp [hn])
    have hlfd : u.lfd ≤ 8 := hm.lfd (hlfd (hm.faulted.symm.trans hx))
    exact ⟨hld, hlfd, fun h => by simpa using h, fun _ => ⟨crc8_of_romCrcOk hc, hz⟩, fun h => by cases h⟩

theorem search_sessionInv {s : State} (a : Bool) (hs : s.hung = false) (hlfd : s.faulted = false → s.lfd ≤ 8) :
    SessionInv (search a s) := by
  cases hldf : s.ldf with
  | false => exact (search_over s a hs hldf).sessionInv hlfd
  | true =>
    rw [search_lastDevice s a hldf]
    exact sessionInv_of_noSession rfl rfl rfl rfl

theorem Effect.keeps_sessionInv {r : Request} {s t : State} (hs : s.hung = false) (h : SessionInv s)
    (he : Effect r s t) : SessionInv t := by
  cases he with
  | registers | bufWrite => exact h
  | adapter => exact fun _ hx => h hs hx
  | search v a => exact search_sessionInv a hs (h.lfd_le hs)
  | beginSearch v => exact search_sessionInv (s := s.beginSession) false hs fun _ => by simp
  | blockReset => exact sessionInv_of_noSession rfl rfl rfl rfl

/-- Settles O39: a search leaves the invariant, a reset an empty session, and no other effect of a request touches what
the invariant reads, but for a hang. -/
theorem sessionInvariantIsKept : Obligations.SessionInvariantIsKept := fun _ _ h hst =>
  step_keeps (P := SessionInv) (fun _ _ h => h) (fun _ _ _ hs h he => he.keeps_sessionInv hs h) h hst

/-- Settles O40: the session is empty after reset. -/
theorem sessionInvariantAtReset : Obligations.SessionInvariantAtReset :=
  ⟨fun _ _ _ => sessionInv_of_noSession rfl rfl rfl rfl, sessionInv_of_noSession rfl rfl rfl rfl⟩

end Sys2Proof.Machine
end

section
/-! PROOFS. What else every step keeps: the quiet sequencer (R31), the canonical form of `BUF` (R50), the parameters
(R12); and the session and `ROM` but for a search or a reset (R22 to R25). -/

namespace Sys2Proof.Machine

/-! The sequencer between requests. -/

/-- An idle sequencer holds nothing in its other registers (R31, log 32). -/
def IdleIsEmpty (s : State) : Prop :=
  s.phase = .idle → s.i = 0 ∧ s.lastZero = 0 ∧ s.dir = false ∧ s.alarm = false

theorem IdleIsEmpty.of_running {s : State} (h : s.phase ≠ .idle) : IdleIsEmpty s := fun hp => absurd hp h

theorem soft_idleIsEmpty (c : Cause) (s : State) : IdleIsEmpty (s.enterFailure .soft c) :=
  fun _ => ⟨rfl, rfl, rfl, rfl⟩

/-- A running row that waits for an answer ends empty when what acts on the answer does: a hard error empties the
sequencer, and a hang leaves it running. -/
theorem onAnswer_idleIsEmpty {α : Type} (f : Adapter → Res Adapter α) (e : Option α → LinkEvent) (s : State)
    (g : α → State → State) (hp : s.phase ≠ .idle) (hg : ∀ v s1, IdleIsEmpty (g v s1)) :
    IdleIsEmpty (onAnswer (linkRequest f e s) g) := by
  rcases onAnswer_cases f e s g with ⟨v, a, -, hr⟩ | ⟨a, -, hr⟩ | ⟨a, -, hr⟩ <;> rw [hr]
  · exact hg v _
  · exact fun _ => ⟨rfl, rfl, rfl, rfl⟩
  · exact .of_running hp

theorem takeBusReset_idleIsEmpty (r : BusResetResult) (s : State) : IdleIsEmpty (s.takeBusReset r) := by
  cases r with
  | presenceDetected => exact .of_running (by simp [State.takeBusReset])
  | shortDetected | noPresence => exact soft_idleIsEmpty _ _

theorem takeStatus_idleIsEmpty (st : Byte) (s : State) : IdleIsEmpty (s.takeStatus st) := by
  unfold State.takeStatus
  split
  · exact soft_idleIsEmpty _ _
  · dsimp only
    split <;> exact .of_running (by simp)

theorem checkRow_idleIsEmpty (s : State) : IdleIsEmpty (checkRow s) := by
  unfold checkRow
  split
  · exact soft_idleIsEmpty _ _
  · split
    · exact soft_idleIsEmpty _ _
    · exact fun _ => ⟨rfl, rfl, rfl, rfl⟩

theorem sequencerRow_idleIsEmpty (s : State) (hp : s.phase ≠ .idle) : IdleIsEmpty (sequencerRow s) := by
  unfold sequencerRow
  cases h : s.phase with
  | idle => exact absurd h hp
  | sReset => exact onAnswer_idleIsEmpty _ _ s _ hp takeBusReset_idleIsEmpty
  | sCmd => exact onAnswer_idleIsEmpty _ _ s _ hp fun _ _ => .of_running (by simp)
  | sBit => exact onAnswer_idleIsEmpty _ _ s _ hp takeStatus_idleIsEmpty
  | sCheck => exact checkRow_idleIsEmpty s

theorem search_idleIsEmpty (a : Bool) (s : State) : IdleIsEmpty (search a s) := by
  refine runRows_keeps IdleIsEmpty (fun u hp _ _ => sequencerRow_idleIsEmpty u hp) _ _ ?_
  unfold State.enterSearch
  split
  · exact soft_idleIsEmpty _ _
  · exact .of_running (by simp)

theorem Over.idle {s u : State} {a : Bool} (h : Over s a u) (hu : u.hung = false) : u.phase = .idle := by
  cases h with
  | hung _ events h hh => simp [hh] at hu
  | raised _ events h hh hp => exact hp
  | soft _ events h hh hp => exact hp
  | success => rfl

theorem search_quietInv {s : State} (a : Bool) (hs : s.hung = false) : QuietInv (search a s) := by
  intro hu
  have hp : (search a s).phase = .idle := by
    cases hldf : s.ldf with
    | false => exact (search_over s a hs hldf).idle hu
    | true => rw [search_lastDevice s a hldf]; rfl
  exact ⟨hp, search_idleIsEmpty a s hp⟩

/-- The registers of the sequencer are zero after reset. -/
theorem quietInv_resetFrom (rom : Vector Byte 8) (epoch : Nat) (ad : Adapter) :
    QuietInv (State.resetFrom rom epoch ad) := fun _ => ⟨rfl, rfl, rfl, rfl, rfl⟩

theorem Effect.keeps_quietInv {r : Request} {s t : State} (hs : s.hung = false) (h : QuietInv s)
    (he : Effect r s t) : QuietInv t := by
  cases he with
  | registers | bufWrite => exact h
  | adapter => exact fun _ => h hs
  | search v a => exact search_quietInv a hs
  | beginSearch v => exact search_quietInv (s := s.beginSession) false hs
  | blockReset => exact fun _ => quietInv_resetFrom (drawnRom s.draws) (s.bufEpoch + 1) s.adapter rfl

/-! The parameters and `BUF`. -/

theorem search_cfg (a : Bool) (s : State) : (search a s).adapter.cfg = s.adapter.cfg := by
  obtain ⟨-, -, -, -, -, -, -, -, -, -, -, hcfg, -⟩ := search_leaves a s
  exact hcfg

theorem search_buf (a : Bool) (s : State) : (search a s).buf = s.buf := by
  obtain ⟨-, -, -, -, -, -, hbuf, -⟩ := search_leaves a s
  exact hbuf

theorem Effect.cfg {r : Request} {s t : State} (he : Effect r s t) : t.adapter.cfg = s.adapter.cfg := by
  cases he with
  | registers | bufWrite | blockReset => rfl
  | adapter ad hung hcfg => exact hcfg
  | search v a => exact search_cfg a s
  | beginSearch v => exact search_cfg false s.beginSession

theorem bufInv_resetFrom (rom : Vector Byte 8) (epoch : Nat) (ad : Adapter) :
    BufInv (State.resetFrom rom epoch ad) := ⟨.nil, by simp [State.resetFrom]⟩

theorem Effect.keeps_bufInv {r : Request} {s t : State} (h : BufInv s) (he : Effect r s t) : BufInv t := by
  have hcfg := he.cfg
  unfold BufInv at h ⊢
  rw [hcfg]
  cases he with
  | registers | adapter => exact h
  | bufWrite k v hk => exact s.buf.wf_write _ k v h hk
  | search v a => rw [search_buf]; exact h
  | beginSearch v => rw [search_buf]; exact h
  | blockReset => exact bufInv_resetFrom (drawnRom s.draws) (s.bufEpoch + 1) s.adapter

/-- Settles O41, each invariant over the effects of a request: a search that is over is idle, and an idle sequencer is
empty; `WB` keeps the canonical form of `BUF`; no operation of the adapter writes the parameters. -/
theorem quietAndBufferInvariantsAreKept : Obligations.QuietAndBufferInvariantsAreKept := by
  refine ⟨fun s t h hst => ?quiet, fun s t h hst => ?buffer, fun s t hst => ?parameters, fun rom epoch ad => ?reset⟩
  case quiet => exact step_keeps (P := QuietInv) (fun _ _ h => h) (fun _ _ _ hs h he => he.keeps_quietInv hs h) h hst
  case buffer => exact step_keeps (P := BufInv) (fun _ _ h => h) (fun _ _ _ _ h he => he.keeps_bufInv h) h hst
  case parameters =>
    exact step_keeps (P := fun u => u.adapter.cfg = s.adapter.cfg) (fun _ _ h => h)
      (fun _ _ _ _ h he => he.cfg.trans h) rfl hst
  case reset => exact ⟨quietInv_resetFrom rom epoch ad, bufInv_resetFrom rom epoch ad⟩

/-! The session and `ROM`. -/

/-- `ROM` and the session registers are as in `s`. -/
def SameSession (s t : State) : Prop :=
  t.rom = s.rom ∧ t.ld = s.ld ∧ t.lfd = s.lfd ∧ t.ldf = s.ldf ∧ t.found = s.found

theorem SameSession.refl (s : State) : SameSession s s := ⟨rfl, rfl, rfl, rfl, rfl⟩

theorem Effect.sameSession {r : Request} {s t : State} (he : Effect r s t) :
    SameSession s t ∨ r = .blockReset ∨
      ∃ v, r = .regWrite 0x00 v ∧ (v.setWidth 8 : Byte) ∈ [0x20, 0x22, (0x23 : Byte)] := by
  cases he with
  | registers | bufWrite | adapter => exact .inl (SameSession.refl s)
  | search v a hr hv => exact .inr (.inr ⟨v, hr, List.mem_cons_of_mem _ hv⟩)
  | beginSearch v hr hv => exact .inr (.inr ⟨v, hr, by simp [hv]⟩)
  | blockReset hr => exact .inr (.inl hr)

/-- Settles O42, over the effects of a request. -/
theorem onlySearchesChangeTheSession : Obligations.OnlySearchesChangeTheSession := by
  intro s t hst
  obtain ⟨-, rfl | ⟨r, rest, hr, he⟩⟩ := step_cases hst
  · exact .inl (SameSession.refl t)
  · rcases he.sameSession with h | rfl | ⟨v, rfl, hv⟩
    · exact .inl h
    · exact .inr (.inl ⟨rest, hr⟩)
    · exact .inr (.inr ⟨v, rest, hr, hv⟩)

end Sys2Proof.Machine
end

section
/-! PROOFS. The exclusive-session marker (R28, R210): setting it before a command or after it is the same, since no
operation of the search, of the CRC unit or of the adapter reads it. -/

namespace Sys2Proof.Machine

/-- The state with the marker at `b`. -/
def State.withExcl (b : Bool) (s : State) : State := { s with excl := b }

/-- A change of the state that neither reads nor writes the marker. -/
def IgnoresExcl (g : State → State) : Prop := ∀ b s, g (s.withExcl b) = (g s).withExcl b

theorem IgnoresExcl.comp {g h : State → State} (hg : IgnoresExcl g) (hh : IgnoresExcl h) :
    IgnoresExcl fun s => g (h s) := fun b s => (congrArg g (hh b s)).trans (hg b (h s))

theorem IgnoresExcl.ite {p : State → Prop} [DecidablePred p] {g h : State → State}
    (hp : ∀ b s, p (s.withExcl b) ↔ p s) (hg : IgnoresExcl g) (hh : IgnoresExcl h) :
    IgnoresExcl fun s => if p s then g s else h s := fun b s => by
  simp only [hp b s]
  split
  · exact hg b s
  · exact hh b s

theorem onAnswer_ignoresExcl {α : Type} (f : Adapter → Res Adapter α) (e : Option α → LinkEvent)
    {g : α → State → State} (hg : ∀ v, IgnoresExcl (g v)) : IgnoresExcl fun s => onAnswer (linkRequest f e s) g := by
  intro b s
  have ha : (s.withExcl b).adapter = s.adapter := rfl
  simp only [linkRequest, ha]
  cases f s.adapter with
  | ok v a => exact hg v b (s.afterLink a (e (some v)))
  | raised | hung => rfl

theorem soft_ignoresExcl (c : Cause) : IgnoresExcl (State.enterFailure .soft c) := fun _ _ => rfl

theorem takeBusReset_ignoresExcl (r : BusResetResult) : IgnoresExcl (State.takeBusReset r) := by
  cases r <;> exact fun _ _ => rfl

theorem recordZero_ignoresExcl (st : Byte) : IgnoresExcl (State.recordZero st) :=
  .ite (p := fun _ => (!idBit st && !cmpBit st && !taken st) = true) (fun _ _ => .rfl) (fun _ _ => rfl) fun _ _ => rfl

theorem takeStatus_ignoresExcl (st : Byte) : IgnoresExcl (State.takeStatus st) := by
  have hstore : IgnoresExcl fun s => (s.recordZero st).storeBit st :=
    .comp (g := State.storeBit st) (fun _ _ => rfl) (recordZero_ignoresExcl st)
  refine .ite (p := fun _ => (idBit st && cmpBit st) = true) (fun _ _ => .rfl) (soft_ignoresExcl _) ?_
  refine .ite (p := fun s => s.i = Config.romBits) (fun _ _ => .rfl) ?check ?next
  case check => exact .comp (g := fun s => { s with phase := .sCheck }) (fun _ _ => rfl) hstore
  case next =>
    intro b s
    have h := hstore b s
    simp only [h]
    rfl

theorem checkRow_ignoresExcl : IgnoresExcl checkRow :=
  .ite (p := fun s => (!romCrcOk s.rom) = true) (fun _ _ => .rfl) (soft_ignoresExcl _)
    (.ite (p := fun s => romAllZero s.rom = true) (fun _ _ => .rfl) (soft_ignoresExcl _) fun _ _ => rfl)

theorem sequencerRow_ignoresExcl : IgnoresExcl sequencerRow := by
  intro b s
  have hp : (s.withExcl b).phase = s.phase := rfl
  simp only [sequencerRow, hp]
  cases s.phase with
  | idle => rfl
  | sReset => exact onAnswer_ignoresExcl _ _ takeBusReset_ignoresExcl b s
  | sCmd => exact onAnswer_ignoresExcl (writeByte (searchCommandByte s.alarm)) _ (fun _ _ _ => rfl) b s
  | sBit => exact onAnswer_ignoresExcl (triplet s.dir) _ takeStatus_ignoresExcl b s
  | sCheck => exact checkRow_ignoresExcl b s

theorem runRows_ignoresExcl (n : Nat) : IgnoresExcl (runRows n) := by
  induction n with
  | zero => exact fun _ _ => rfl
  | succ n ih =>
    exact .ite (p := fun s => s.phase = .idle ∨ s.hung = true) (fun _ _ => .rfl) (fun _ _ => rfl)
      (ih.comp sequencerRow_ignoresExcl)

theorem enterSearch_ignoresExcl (a : Bool) : IgnoresExcl (State.enterSearch a) :=
  .ite (p := fun s => s.ldf = true) (fun _ _ => .rfl) (fun _ _ => rfl) fun _ _ => rfl

theorem search_ignoresExcl (a : Bool) : IgnoresExcl (search a) :=
  (runRows_ignoresExcl searchRows).comp (enterSearch_ignoresExcl a)

theorem endCall_ignoresExcl {α : Type} (f : α → AdapterResult) (op : Adapter → Res Adapter α) :
    IgnoresExcl fun s => s.endCall f (op s.adapter) := by
  intro b s
  have ha : (s.withExcl b).adapter = s.adapter := rfl
  simp only [ha]
  cases op s.adapter <;> rfl

/-- Every command but the two of the marker is a change of the state that ignores it. -/
theorem exec_ignoresExcl (i : Instr) (hb : i ≠ .exclBegin) (he : i ≠ .exclEnd) :
    ∃ g, IgnoresExcl g ∧ ∀ s, exec i s = .next (g s) := by
  by_cases hi : spaceOf i = .host
  · cases i with
    | crcFold => exact ⟨_, fun _ _ => rfl, fun _ => rfl⟩
    | crcCompute =>
      exact ⟨_, .ite (p := fun s => s.adapter.cfg.bufSize < s.boff.toNat + s.blen.toNat) (fun _ _ => .rfl)
        (fun _ _ => rfl) fun _ _ => rfl, fun _ => rfl⟩
    | srchBegin => exact ⟨_, (search_ignoresExcl false).comp (h := State.beginSession) fun _ _ => rfl, fun _ => rfl⟩
    | srchSearch a => exact ⟨_, search_ignoresExcl a, fun _ => rfl⟩
    | srchCont => exact ⟨_, search_ignoresExcl false, fun _ => rfl⟩
    | exclBegin => exact absurd rfl hb
    | exclEnd => exact absurd rfl he
    | _ => cases hi
  · obtain ⟨α, f, op, -, h⟩ := exec_endCall i hi
    exact ⟨_, endCall_ignoresExcl f op, h⟩

/-- Settles O19: the two commands write the marker by their definition, and every other one ignores it. -/
theorem exclusiveMarkerIsAPlainFlag : Obligations.ExclusiveMarkerIsAPlainFlag := by
  refine ⟨fun s => ⟨rfl, rfl⟩, fun i s t b hb he h => ?_⟩
  obtain ⟨g, hg, hexec⟩ := exec_ignoresExcl i hb he
  rw [hexec] at h ⊢
  cases h
  exact congrArg Host.Outcome.next (hg b s)

end Sys2Proof.Machine
end

section
/-! PROOFS. The host port (R36) and the values after reset (R38). -/

namespace Sys2Proof.Machine

/-- A request that is a transaction, and so over at once, is the step. -/
theorem step_of_serve_ended {s : State} {r : Request} {rest : List Request} {o : Host.Outcome State Fault Refusal}
    (h : s.hung = false) (hr : s.requests = r :: rest) (hs : serve r { s with requests := rest } = .ended o) :
    step s = o :=
  step_ended s o ((fetch_request s r rest h hr).trans hs)

theorem step_regRead {s : State} {n : Byte} {rest : List Request} (h : s.hung = false)
    (hr : s.requests = .regRead n :: rest) : step s = .next (State.hostRead n { s with requests := rest }) :=
  step_of_serve_ended h hr rfl

theorem step_regWrite {s : State} {n : Byte} {v : Half} {rest : List Request} (h : s.hung = false)
    (hr : s.requests = .regWrite n v :: rest) (hn : n ≠ 0x00) :
    step s = .next (State.hostWrite n v { s with requests := rest }) :=
  step_of_serve_ended h hr (by rw [serve, if_neg hn])

/-! Reads. -/

theorem hostRead_of_some {n : Byte} {v : Half} {s : State} (h : s.hostRegister? n = some v) :
    s.hostRead n = { s with hostOut := v :: s.hostOut } := by
  rw [State.hostRead, h]; rfl

theorem hostRead_of_none {n : Byte} {s : State} (h : s.hostRegister? n = none) :
    s.hostRead n =
      { s with hostOut := (Config.freeByte s.draws).setWidth 16 :: s.hostOut, draws := s.draws + 1 } := by
  rw [State.hostRead, h]; rfl

/-- The numbers 0x08 to 0x0F name the bytes of `ROM` in order (R36). -/
theorem hostRegister?_rom {n : Byte} {k : Nat} (s : State) (hk : k < 8) (hn : n.toNat = 8 + k) :
    s.hostRegister? n = some ((romByte s.rom k).setWidth 16) := by
  obtain rfl : n = BitVec.ofNat 8 (8 + k) := BitVec.eq_of_toNat_eq (by simp; omega)
  interval_cases k <;> rfl

/-- The write-only and the unlisted numbers (R36). -/
theorem hostRegister?_none {n : Byte} (s : State) (hn : n = 0x00 ∨ n = 0x07 ∨ 0x14 < n) :
    s.hostRegister? n = none := by
  rcases hn with rfl | rfl | hn
  · rfl
  · rfl
  · unfold State.hostRegister?
    repeat rw [if_neg (by bv_omega)]

/-- Settles O3: what the number names decides what is shown. -/
theorem hostReadShowsTheRegister : Obligations.HostReadShowsTheRegister := by
  intro s n rest hs hr
  have hshow : ∀ v, State.hostRegister? n { s with requests := rest } = some v →
      step s = .next { s with requests := rest, hostOut := v :: s.hostOut } := fun v hv => by
    rw [step_regRead hs hr, hostRead_of_some hv]
  have hbit : ∀ b : Bool, (BitVec.ofBool b).setWidth 16 = if b then (1 : Half) else 0 := by decide
  refine ⟨?found, ?cause, ?ld, ?lfd, ?ldf, ?excl, ?rom, ?cseed, ?cdata, ?cres, ?boff, ?blen, ?free⟩
  case found => rintro rfl; exact hshow _ (congrArg some (hbit _))
  case ldf => rintro rfl; exact hshow _ (congrArg some (hbit _))
  case excl => rintro rfl; exact hshow _ (congrArg some (hbit _))
  case rom => exact fun k hk hn => hshow _ (hostRegister?_rom _ hk hn)
  case free =>
    intro hn
    exact ⟨Config.freeByte s.draws, by rw [step_regRead hs hr, hostRead_of_none (hostRegister?_none _ hn)]⟩
  all_goals rintro rfl; exact hshow _ rfl

/-! Writes. -/

theorem hostWrite_ignored {n : Byte} (v : Half) (s : State) (h10 : n ≠ 0x10) (h11 : n ≠ 0x11) (h13 : n ≠ 0x13)
    (h14 : n ≠ 0x14) : s.hostWrite n v = s := by
  rw [State.hostWrite, if_neg h10, if_neg h11, if_neg h13, if_neg h14]

/-- Settles O4: the four operand registers, and the numbers that are ignored; an 8-bit register takes the low byte
(log 24). -/
theorem hostWriteReachesOperandsOnly : Obligations.HostWriteReachesOperandsOnly := by
  intro s n v rest hs hr
  refine ⟨?cseed, ?cdata, ?boff, ?blen, fun h00 h10 h11 h13 h14 => ?ignored⟩
  case ignored => rw [step_regWrite hs hr h00, hostWrite_ignored v _ h10 h11 h13 h14]
  all_goals rintro rfl; exact step_regWrite hs hr (by decide)

/-! Reset. -/

/-- `TABLE` lists the construction of R181 for every byte. -/
theorem crcTable_getElem? (n : Byte) : crcTable[n.toNat]? = some (tableEntry n) := by
  simp [crcTable, n.isLt]

/-- Settles O1: the registers by `State.resetFrom`, `BUF` unwritten, `TABLE` complete. -/
theorem resetValuesAreAsStated : Obligations.ResetValuesAreAsStated := by
  refine ⟨fun rom epoch ad => ?registers, crcTable_getElem?, ⟨_, _, _, rfl⟩⟩
  case registers =>
    exact ⟨rfl, rfl, rfl, rfl, rfl, rfl, rfl, rfl, rfl, rfl, rfl, rfl, rfl, fun _ => rfl, rfl, rfl⟩

end Sys2Proof.Machine
end

section
/-! PROOFS. The link requests of a search (R62): however a search is over, its requests are a run of R62, so the command
that started it made those and no others. -/

namespace Sys2Proof.Machine

/-- However a search entered with `LDF` clear is over, with success too, its requests are those of R62. -/
theorem Over.linkRequests {s u : State} {a : Bool} (h : Over s a u) :
    ∃ events, LinkRequests s u events ∧ SearchRun a events := by
  cases h with
  | hung _ events h | raised _ events h | soft _ events h => exact ⟨events, h.log, h.run⟩
  | success u ts hm hn =>
    have h := hm.fullEnded hn (v := u) rfl
    exact ⟨_, h.log, h.run⟩

/-- The requests of one search: none if the last device was found before, those of R62 otherwise. -/
theorem search_linkRequests {s : State} (a : Bool) (hs : s.hung = false) :
    ∃ events, LinkRequests s (search a s) events ∧ (s.ldf = true → events = []) ∧
      (s.ldf = false → SearchRun a events) := by
  cases hldf : s.ldf with
  | true =>
    rw [search_lastDevice s a hldf]
    exact ⟨[], rfl, fun _ => rfl, nofun⟩
  | false =>
    obtain ⟨events, hlog, hrun⟩ := (search_over s a hs hldf).linkRequests
    exact ⟨events, hlog, nofun, fun _ => hrun⟩

/-- The CRC and marker commands make no request and leave the adapter. -/
theorem exec_crcOrMarker_noLink {s t : State} {i : Instr}
    (hi : i ∈ [Instr.crcFold, .crcCompute, .exclBegin, .exclEnd]) (h : exec i s = .next t) :
    t.linkLog = s.linkLog ∧ t.adapter = s.adapter := by
  simp only [List.mem_cons, List.not_mem_nil, or_false] at hi
  rcases hi with rfl | rfl | rfl | rfl
  case inr.inl =>
    simp only [exec, execCrcCompute] at h
    split at h <;> (cases h; exact ⟨rfl, rfl⟩)
  all_goals cases h; exact ⟨rfl, rfl⟩

/-- Settles O35: each search command is one search; `SRCH.BEGIN` enters it with `LDF` cleared, which leaves only the
run of R62. -/
theorem linkTransactionsOfASearch : Obligations.LinkTransactionsOfASearch := by
  refine ⟨fun s t a hs h => ?search, fun s t hs h => ?cont, fun s t hs h => ?begin, fun s t i hi h => ?others⟩
  case search => cases h; exact search_linkRequests a hs
  case cont => cases h; exact search_linkRequests false hs
  case begin =>
    cases h
    obtain ⟨events, hlog, -, hrun⟩ := search_linkRequests (s := s.beginSession) false hs
    exact ⟨events, hlog, hrun rfl⟩
  case others => exact exec_crcOrMarker_noLink hi h

end Sys2Proof.Machine
end

section
/-! PROOFS. The memory of the block: `BUF` as the host reaches it (R50, R88), and the ROM bit map (R51). -/

namespace Sys2Proof.Machine

/-! `BUF`. -/

theorem bufWrite_inside {s : State} {k : Nat} (v : Byte) (hk : k < s.adapter.cfg.bufSize) :
    s.bufWrite k v = .next { s with buf := s.buf.write k v } := if_pos hk

theorem bufWrite_outside {s : State} {k : Nat} (v : Byte) (hk : s.adapter.cfg.bufSize ≤ k) :
    s.bufWrite k v = .fault (.bufIndexOutside k) := if_neg (Nat.not_lt.2 hk)

theorem bufRead_inside {s : State} {k : Nat} (hk : k < s.adapter.cfg.bufSize) :
    s.bufRead k = .next (s.showHost ((s.bufByte k).setWidth 16)) := if_pos hk

theorem bufRead_outside {s : State} {k : Nat} (hk : s.adapter.cfg.bufSize ≤ k) :
    s.bufRead k = .fault (.bufIndexOutside k) := if_neg (Nat.not_lt.2 hk)

theorem Memory.read_write_same (epoch : Nat) (m : Memory) (k : Nat) (v : Byte) : (m.write k v).read epoch k = v := by
  rw [Memory.read, Memory.cell?_write_same]; rfl

theorem Memory.read_write_other (epoch : Nat) (m : Memory) {k j : Nat} (v : Byte) (h : j ≠ k) :
    (m.write k v).read epoch j = m.read epoch j := by
  rw [Memory.read, Memory.cell?_write_other m k j v h]; rfl

theorem step_bufWrite {s : State} {k : Nat} {v : Byte} {rest : List Request} (h : s.hung = false)
    (hr : s.requests = .bufWrite k v :: rest) : step s = State.bufWrite k v { s with requests := rest } :=
  step_of_serve_ended h hr rfl

theorem step_bufRead {s : State} {k : Nat} {rest : List Request} (h : s.hung = false)
    (hr : s.requests = .bufRead k :: rest) : step s = State.bufRead k { s with requests := rest } :=
  step_of_serve_ended h hr rfl

/-- Settles O5: inside the space `WB` is the memory's write and `RB` its read; outside both stop (log 23). -/
theorem bufferWriteChangesOneByte : Obligations.BufferWriteChangesOneByte := by
  intro s k v rest hs
  refine ⟨fun hr hk => ?write, fun hr hk => ?read, fun hr hk => ?outside⟩
  case write =>
    exact ⟨_, (step_bufWrite hs hr).trans (bufWrite_inside v hk), Memory.read_write_same _ _ _ _,
      fun j hj => Memory.read_write_other _ _ v hj, rfl⟩
  case read => exact (step_bufRead hs hr).trans (bufRead_inside hk)
  case outside =>
    rcases hr with hr | hr
    · exact (step_bufWrite hs hr).trans (bufWrite_outside v hk)
    · exact (step_bufRead hs hr).trans (bufRead_outside hk)

/-! ROM bits. -/

/-- `byteOf` is the division by 8 of R51. -/
theorem byteOf_eq {i : BitIndex} (h : 1 ≤ i) : byteOf i = (i.toNat - 1) / 8 := by
  rw [byteOf, BitVec.toNat_ushiftRight, BitVec.toNat_sub_of_le h, Nat.shiftRight_eq_div_pow]
  rfl

/-- `maskOf` is the one bit of R51, counted from the least significant. -/
theorem maskOf_eq {i : BitIndex} (h : 1 ≤ i) : maskOf i = BitVec.twoPow 8 ((i.toNat - 1) % 8) := by
  rw [maskOf, BitVec.toNat_and, BitVec.toNat_sub_of_le h, BitVec.twoPow_eq]
  exact congrArg _ (Nat.and_two_pow_sub_one_eq_mod _ 3)

/-- A byte masked with one bit is zero exactly when that bit is. -/
theorem and_twoPow_bne_zero (b : Byte) {k : Nat} (hk : k < 8) : (b &&& BitVec.twoPow 8 k != 0) = b.getLsbD k := by
  have hne : BitVec.twoPow 8 k ≠ 0#8 := by interval_cases k <;> decide
  rw [BitVec.and_twoPow]
  cases b.getLsbD k <;> simp [hne]

theorem getBit_eq_getLsbD (rom : Vector Byte 8) {i : BitIndex} (h : 1 ≤ i) :
    getBit rom i = (romByte rom ((i.toNat - 1) / 8)).getLsbD ((i.toNat - 1) % 8) := by
  rw [getBit, byteOf_eq h, maskOf_eq h, and_twoPow_bne_zero _ (Nat.mod_lt _ (by decide))]

theorem romByte_setBit_other (rom : Vector Byte 8) {i : BitIndex} (v : Bool) {k : Nat} (hk : k < 8)
    (hne : byteOf i ≠ k) : romByte (setBit rom i v) k = romByte rom k := by
  rw [romByte_setBit rom i v k hk, if_neg hne]

/-- Settles O20: `byteOf` and `maskOf` are the quotient and the remainder by 8, and the masks of different indices in
one byte are disjoint. -/
theorem romBitIndexMap : Obligations.RomBitIndexMap := by
  intro rom i v h1 h64
  refine ⟨getBit_eq_getLsbD rom h1, getBit_setBit_same rom i v h1 h64, fun j hj1 hj64 hne => ?otherBit,
    fun k hk hne => ?otherByte⟩
  case otherBit => exact getBit_setBit_other rom i j v h1 h64 hj1 hj64 hne.symm
  case otherByte => exact romByte_setBit_other rom v hk (by rw [byteOf_eq h1]; exact hne.symm)

end Sys2Proof.Machine
end

section
/-! PROOFS. Encoding (R70 to R77, R83): decoder and encoder are each other's inverse in every space, the shape of a
bridge command, and the parameter bytes the operations form. -/

namespace Sys2Proof.Machine

/-! The decoder and the encoder. -/

/-- Settles O6: the decoder finds each command at its own row of the tables. -/
theorem decodeOfEncodeIsTheCommand : Obligations.DecodeOfEncodeIsTheCommand := by
  intro i
  cases i with
  | srchSearch a => cases a <;> rfl
  | _ => rfl

/-- `bytes` are the encoding of the core command `i` in the space `sp`. -/
def IsEncoding (sp : Space) (bytes : List Byte) (i : Instr) : Prop :=
  i.core = i ∧ spaceOf i = sp ∧ encode i = bytes

/-- The word of `SRCH.SEARCH a` is its seven fixed bits with `a` below (R72). -/
theorem searchWord_of_fixedBits {b : Byte} (h : b.extractLsb' 1 7 = 0x11) :
    0x11#7 ++ BitVec.ofBool (b.getLsbD 0) = b := by
  revert b; decide

theorem decodeHost_isEncoding {b : Byte} {i : Instr} (h : decodeHost b = .ok i) : IsEncoding .host [b] i := by
  unfold decodeHost at h
  split_ifs at h with h10 h11 h20 hsearch h30 h31
  all_goals cases h
  on_goal 4 => exact ⟨rfl, rfl, congrArg (fun w => [w]) (searchWord_of_fixedBits hsearch)⟩
  all_goals subst_vars; exact ⟨rfl, rfl, rfl⟩

theorem bridgeOneByte_isEncoding {op : Byte} {i : Instr} (h : bridgeOneByte op = some i) :
    IsEncoding .bridge [op] i := by
  unfold bridgeOneByte at h
  split_ifs at h
  all_goals cases h; subst_vars; exact ⟨rfl, rfl, rfl⟩

theorem bridgeTwoByte_isEncoding {op p : Byte} {i : Instr} (h : bridgeTwoByte op p = some i) :
    IsEncoding .bridge [op, p] i := by
  unfold bridgeTwoByte at h
  split_ifs at h
  all_goals cases h; subst_vars; exact ⟨rfl, rfl, rfl⟩

theorem decodeBridge_isEncoding {bytes : List Byte} {i : Instr} (h : decodeBridge bytes = .ok i) :
    IsEncoding .bridge bytes i := by
  unfold decodeBridge at h
  split at h
  · cases h
  · split at h
    · next hi => cases h; exact bridgeOneByte_isEncoding hi
    · cases h
  · split at h
    · next hi => cases h; exact bridgeTwoByte_isEncoding hi
    · cases h
  · cases h

theorem decodeRomCmd_isEncoding {b : Byte} {i : Instr} (h : decodeRomCmd b = .ok i) : IsEncoding .romCmd [b] i := by
  unfold decodeRomCmd at h
  split_ifs at h
  all_goals cases h; subst_vars; exact ⟨rfl, rfl, rfl⟩

/-- Only the encoding of a command decodes to it: in each space, whatever the length. -/
theorem decode_isEncoding {sp : Space} {bytes : List Byte} {i : Instr} (h : decode sp bytes = .ok i) :
    IsEncoding sp bytes i := by
  cases sp with
  | bridge => exact decodeBridge_isEncoding h
  | host =>
    match bytes with
    | [] => cases h
    | [b] => exact decodeHost_isEncoding h
    | _ :: _ :: _ => cases h
  | romCmd =>
    match bytes with
    | [] => cases h
    | [b] => exact decodeRomCmd_isEncoding h
    | _ :: _ :: _ => cases h

/-- Settles O7: what decodes is the encoding of a core command, and by O6 its encoding decodes to it. -/
theorem decodeIsTheInverseOfEncode : Obligations.DecodeIsTheInverseOfEncode := by
  refine fun sp bytes i => ⟨decode_isEncoding, ?_⟩
  rintro ⟨hcore, rfl, rfl⟩
  exact (decodeOfEncodeIsTheCommand i).trans (congrArg _ hcore)

/-- Settles O8, by running the decoder on each word. -/
theorem tableWordsDecodeAsListed : Obligations.TableWordsDecodeAsListed := by
  unfold Obligations.TableWordsDecodeAsListed
  decide

/-- Settles O9: the bytes are those of one of the nine bridge commands, which O7 names. -/
theorem bridgeOpcodeDecidesTheLength : Obligations.BridgeOpcodeDecidesTheLength := by
  refine fun bytes => ⟨?command, ?listed⟩
  case command =>
    rintro ⟨i, h⟩
    obtain ⟨-, hsp, rfl⟩ := decode_isEncoding h
    cases i with
    | brDrst => exact .inl (.inl rfl)
    | br1wrs => exact .inl (.inr (.inl rfl))
    | br1wrb => exact .inl (.inr (.inr rfl))
    | brSrp p | brWcfg p | brChsl p | br1wsb p | br1wwb p | br1wt p => exact .inr ⟨_, p, rfl, by decide⟩
    | _ => cases hsp
  case listed =>
    rintro ((rfl | rfl | rfl) | ⟨op, p, rfl, hop⟩)
    case inr =>
      simp only [List.mem_cons, List.not_mem_nil, or_false] at hop
      rcases hop with rfl | rfl | rfl | rfl | rfl | rfl <;> exact ⟨_, rfl⟩
    all_goals exact ⟨_, rfl⟩

/-! Bytes that are no command. -/

/-- The assigned HOST bytes are the encodings of the HOST commands (R72). -/
theorem decode_host_mem {b : Byte} {i : Instr} (h : decode .host [b] = .ok i) :
    b ∈ [0x10, 0x11, 0x20, 0x22, 0x23, 0x30, (0x31 : Byte)] := by
  obtain ⟨-, hsp, he⟩ := decode_isEncoding h
  obtain rfl : (encode i).headD 0 = b := by rw [he]; rfl
  cases i with
  | srchSearch a => cases a <;> decide
  | crcFold | crcCompute | srchBegin | srchCont | exclBegin | exclEnd => decide
  | _ => cases hsp

theorem fetchHost_of_noCommand {b : Byte} (s : State) (h : ∀ i, decode .host [b] ≠ .ok i) :
    fetchHost b s = .ended (.next s.illegalCommand) := by
  unfold fetchHost
  split
  · next i hi => exact absurd hi (h i)
  · rfl

/-- Settles O10: such a byte decodes to nothing, and the transaction is over with `State.illegalCommand`. A value above
0xFF is read by its low byte (log 24). -/
theorem illegalCommandChangesCauseOnly : Obligations.IllegalCommandChangesCauseOnly := by
  intro s v rest hs hr hv
  have hno : ∀ i, decode .host [v.setWidth 8] ≠ .ok i := fun i hi => hv (decode_host_mem hi)
  exact step_of_serve_ended hs hr (fetchHost_of_noCommand { s with requests := rest } hno)

/-! Parameter bytes. -/

@[simp] theorem encodeConfig_low (n : Nibble) : (encodeConfig n).extractLsb' 0 4 = n :=
  BitVec.extractLsb'_append_eq_right

@[simp] theorem encodeConfig_high (n : Nibble) : (encodeConfig n).extractLsb' 4 4 = ~~~n :=
  BitVec.extractLsb'_append_eq_left

theorem configAccepted_encodeConfig (n : Nibble) : configAccepted (encodeConfig n) = true := by
  simp [configAccepted]

/-- Settles O54: the nibble and its complement are the two halves of the byte; the operations write it by definition. -/
theorem parameterAssembly : Obligations.ParameterAssembly := by
  refine ⟨fun n => ⟨encodeConfig_low n, ?complement, configAccepted_encodeConfig n⟩, by decide, fun _ _ => rfl,
    fun _ _ => rfl⟩
  rw [encodeConfig_high, ← BitVec.xor_allOnes]
  rfl

end Sys2Proof.Machine
end

section
/-! PROOFS. Where a step stops (log 22, log 23, log 25), and what bridge and ROM commands leave (R5). -/

namespace Sys2Proof.Machine

theorem goesOn_next (t : State) : goesOn (.next t) := ⟨t, rfl⟩

/-! The requests that may stop. -/

theorem bufWrite_stops {s : State} {k : Nat} {v : Byte} (h : ¬ goesOn (s.bufWrite k v)) :
    s.adapter.cfg.bufSize ≤ k :=
  Nat.not_lt.1 fun hk => h ⟨_, bufWrite_inside v hk⟩

theorem bufRead_stops {s : State} {k : Nat} (h : ¬ goesOn (s.bufRead k)) : s.adapter.cfg.bufSize ≤ k :=
  Nat.not_lt.1 fun hk => h ⟨_, bufRead_inside hk⟩

/-- A write of a host register goes on, whatever the number and the value (R73, log 6). -/
theorem serve_regWrite_goesOn (n : Byte) (v : Half) (s : State) : goesOn (serve (.regWrite n v) s).outcome := by
  by_cases hn : n = 0x00
  · subst hn
    rw [serve_regWrite_cmd]
    unfold fetchHost
    split
    · exact exec_next _ s
    · exact goesOn_next _
  · rw [serve, if_neg hn]
    exact goesOn_next _

/-- A bridge request either runs a command or is refused with one of two names (R74, R82, log 22). -/
theorem fetchBridge_stops {bytes : List Byte} {s : State} (h : ¬ goesOn (fetchBridge bytes s).outcome) :
    (∀ i, decode .bridge bytes ≠ .ok i) ∧
      ((∃ b, (fetchBridge bytes s).outcome = .refused (.unlistedOpcode b)) ∨
        (fetchBridge bytes s).outcome = .refused .malformedBridgeCommand) := by
  have hno : ∀ i, decode .bridge bytes ≠ .ok i := fun i hi =>
    h (by rw [fetchBridge_of_decode _ s i hi]; exact exec_next i s)
  refine ⟨hno, ?_⟩
  cases hd : decode .bridge bytes with
  | ok i => exact absurd hd (hno i)
  | error e =>
    rw [fetchBridge, hd]
    cases e with
    | unlistedOpcode b => exact .inl ⟨b, rfl⟩
    | _ => exact .inr rfl

/-- A ROM command request either runs a command or is refused (R83, log 22). -/
theorem fetchRomCmd_stops {b : Byte} {s : State} (h : ¬ goesOn (fetchRomCmd b s).outcome) :
    (∀ i, decode .romCmd [b] ≠ .ok i) ∧ (fetchRomCmd b s).outcome = .refused (.unknownRomCommand b) := by
  have hno : ∀ i, decode .romCmd [b] ≠ .ok i := fun i hi =>
    h (by rw [fetchRomCmd_of_decode _ s i hi]; exact exec_next i s)
  refine ⟨hno, ?_⟩
  unfold fetchRomCmd
  split
  · next i hi => exact absurd hi (hno i)
  · rfl

/-- Settles O13: a command never stops; of the requests only the four kinds above may, and without one the machine
stays as it is. -/
theorem stepStopsOnlyWhereNamed : Obligations.StepStopsOnlyWhereNamed := by
  refine ⟨exec_next, fun s hstop => ?_⟩
  rcases Bool.eq_false_or_eq_true s.hung with hs | hs
  · exact .inl ⟨hs, step_ended s _ (fetch_hung s hs)⟩
  · cases hr : s.requests with
    | nil => exact absurd ⟨s, step_ended s _ (fetch_nothing s hs hr)⟩ hstop
    | cons r rest =>
      have hstep : step s = (serve r { s with requests := rest }).outcome := by
        rw [step_eq_outcome, fetch_request s r rest hs hr]
      rw [hstep] at hstop ⊢
      cases r with
      | regWrite n v => exact absurd (serve_regWrite_goesOn n v _) hstop
      | regRead _ | call _ | blockReset => exact absurd (goesOn_next _) hstop
      | bufWrite k v =>
        have hk := bufWrite_stops hstop
        exact .inr (.inl ⟨k, rest, .inl ⟨v, rfl⟩, hk, bufWrite_outside v hk⟩)
      | bufRead k =>
        have hk := bufRead_stops hstop
        exact .inr (.inl ⟨k, rest, .inr rfl, hk, bufRead_outside hk⟩)
      | bridge bytes => exact .inr (.inr (.inl ⟨bytes, rest, rfl, fetchBridge_stops hstop⟩))
      | romCmd b => exact .inr (.inr (.inr ⟨b, rest, rfl, fetchRomCmd_stops hstop⟩))

/-! The frame of an adapter operation. -/

theorem endCall_frame {α : Type} (f : α → AdapterResult) (r : Res Adapter α) (s : State) :
    s.endCall f r = { s with adapter := (s.endCall f r).adapter, hung := (s.endCall f r).hung } := by
  cases r <;> rfl

/-- The end of an operation writes its result only, so the setting that the operation kept stays. -/
theorem endCall_setting {α : Type} (f : α → AdapterResult) {r : Res Adapter α} {s : State}
    (h : SameSetting s.adapter r.after) :
    (s.endCall f r).adapter.cfg = s.adapter.cfg ∧ (s.endCall f r).adapter.chanOpen = s.adapter.chanOpen ∧
      (s.endCall f r).adapter.block = s.adapter.block := by
  obtain ⟨hcfg, hopen, -, hblock⟩ := h
  cases r <;> exact ⟨hcfg, hopen, hblock⟩

/-- Settles O47: such a command is one adapter operation, which keeps the setting of the adapter. -/
theorem bridgeAndRomCommandsLeaveTheBlock : Obligations.BridgeAndRomCommandsLeaveTheBlock := by
  intro i s hi
  obtain ⟨α, f, op, hop, hexec⟩ := exec_endCall i hi
  exact ⟨_, hexec s, endCall_frame f _ s, endCall_setting f (hop s.adapter)⟩

end Sys2Proof.Machine
end

section
/-! PROOFS. The bounds of PollLoop (R100), the device reset (R102), and the polled bridge commands after a timeout
(R125, R206). -/

namespace Sys2Proof.Machine

/-! Operations in sequence. -/

theorem Res.bind_eq_ok {σ α β : Type} {r : Res σ α} {f : α → σ → Res σ β} {v : β} {s : σ} :
    r.bind f = .ok v s ↔ ∃ u s1, r = .ok u s1 ∧ f u s1 = .ok v s := by
  cases r <;> simp

theorem Res.bind_assoc {σ α β γ : Type} (r : Res σ α) (f : α → σ → Res σ β) (g : β → σ → Res σ γ) :
    (r.bind f).bind g = r.bind fun v s => (f v s).bind g := by
  cases r <;> rfl

/-! The accesses a PollLoop makes, whatever answers it. -/

theorem nextAnswer_chanLog (a : Adapter) : a.nextAnswer.2.chanLog = a.chanLog := by
  unfold Adapter.nextAnswer
  split <;> rfl

theorem call_chanLog (acc : ChanAccess) (a : Adapter) : (a.call acc).after.chanLog = acc :: a.chanLog := by
  have h := nextAnswer_chanLog a
  unfold Adapter.call
  split <;> (rename_i e; rw [e] at h; exact congrArg (acc :: ·) h)

/-- A status read that completes is one read. -/
theorem statusRead_chanLog {a a' : Adapter} {v : Byte} (h : statusRead a = .ok v a') :
    a'.chanLog = .read :: a.chanLog := by
  obtain ⟨u, a1, hacc, h⟩ := Res.bind_eq_ok.1 h
  cases h
  have hlog := call_chanLog .read a
  unfold Adapter.access at hacc
  split at hacc
  · rw [hacc] at hlog; exact hlog
  · cases hacc

/-- A poll that is over has made reads only, at most `n`: all `n` of them on a timeout, and at least one for a status,
which is not busy. -/
theorem pollReads_ok {n : Nat} {a a' : Adapter} {r : Option Byte} (h : pollReads n a = .ok r a') :
    ∃ k, a'.chanLog = List.replicate k .read ++ a.chanLog ∧ k ≤ n ∧ (r = none → k = n) ∧
      ∀ st, r = some st → busy st = false ∧ 1 ≤ k := by
  induction n generalizing a with
  | zero => cases h; exact ⟨0, rfl, Nat.le_refl _, fun _ => rfl, nofun⟩
  | succ n ih =>
    obtain ⟨v, a1, hv, h⟩ := Res.bind_eq_ok.1 h
    have hlog := statusRead_chanLog hv
    split at h
    case isTrue =>
      obtain ⟨k, hk, hle, hnone, hsome⟩ := ih h
      refine ⟨k + 1, by rw [hk, hlog, List.replicate_succ']; simp, Nat.succ_le_succ hle, fun hr => by rw [hnone hr],
        fun st hr => (hsome st hr).imp_right fun _ => Nat.le_add_left 1 k⟩
    case isFalse hbusy =>
      cases h
      refine ⟨1, hlog, Nat.le_add_left 1 n, nofun, fun st hr => ?_⟩
      cases hr
      exact ⟨Bool.eq_false_of_not_eq_true hbusy, Nat.le_refl 1⟩

/-- Settles O48: the reads of a poll that is over are counted, and the poll is run over given answers. -/
theorem pollLoopIsBounded : Obligations.PollLoopIsBounded := by
  refine ⟨fun a a' st h => ?status, fun a a' h => ?timeout, fun a bs st rest ho hp hs => ?completes,
    fun a bs rest ho hl hb hs => ?timesOut, fun a bs rest ho hl hb hs => ?raises⟩
  case status =>
    obtain ⟨k, hlog, hle, -, hsome⟩ := pollReads_ok h
    obtain ⟨hst, hk⟩ := hsome st rfl
    exact ⟨hst, k, hk, hle, hlog⟩
  case timeout =>
    obtain ⟨k, hlog, -, hnone, -⟩ := pollReads_ok h
    rw [hlog, hnone rfl]
    rfl
  case completes =>
    obtain ⟨hl, hb, hst⟩ := hp
    exact ⟨_, pollReads_completes bs st rest 16 a hl hb hst ho hs, rfl, rfl⟩
  case timesOut =>
    have h := pollReads_timesOut bs rest a hb ho hs
    rw [hl] at h
    exact ⟨_, h, rfl⟩
  case raises => exact ⟨_, pollReads_raises bs rest 16 a hl hb ho hs, rfl, rfl⟩

/-! The device reset. -/

/-- A command whose operation completes gives its value to the caller, and leaves the rest to the operation. -/
theorem exec_of_ok {α : Type} {i : Instr} {s : State} {f : α → AdapterResult} {r : Res Adapter α} {v : α} {a : Adapter}
    (h : r = .ok v a) (hexec : exec i s = .next (s.endCall f r)) :
    exec i s = .next { s with adapter := { a with result := f v } } := by
  rw [hexec, h]
  rfl

/-- Settles O50: the reset over answers that complete, and over answers that time out. Its only effect on the read
pointer is that of its write (log 16). -/
theorem deviceResetClassifies : Obligations.DeviceResetClassifies := by
  refine ⟨fun s x bs st rest ho hs hp => ?completes, fun s x bs rest ho hl hb hs => ?timesOut⟩
  case completes =>
    refine ⟨_, exec_of_ok (resetBridge_completes s.adapter x bs st rest ho hs hp) rfl, rfl, rfl, rfl, rfl, ?_⟩
    simp only [Bridge.afterReads_status, true_and]
    rfl
  case timesOut =>
    exact ⟨_, exec_of_ok (resetBridge_timesOut s.adapter x bs rest ho hl hb hs) rfl, rfl, rfl, rfl, rfl⟩

/-! Timeouts of the polled commands. -/

/-- A command whose operation makes no access after the recovery of its polled command ends with what the operation
makes of the timeout (R125). -/
theorem exec_recovers {α : Type} {i : Instr} {s : State} {bytes : List Byte} {rest : List ChanAnswer} {n : Nat}
    {f : α → AdapterResult} {g : Option Byte → Adapter → Res Adapter α}
    (hexec : exec i s = .next (s.endCall f ((polledCommand bytes s.adapter).bind g))) (r : AdapterResult → Prop)
    (hpoll : ∃ a, polledCommand bytes s.adapter = .ok none a ∧ a.script = rest ∧
      a.chanLog = polledLog [0xF0] n (polledLog bytes 16 s.adapter.chanLog))
    (hg : ∀ a, ∃ v d, g none a = .ok v { a with draws := d } ∧ r (f v)) :
    ∃ t, exec i s = .next t ∧ t.hung = s.hung ∧ t.adapter.script = rest ∧ r t.adapter.result ∧
      t.adapter.chanLog = polledLog [0xF0] n (polledLog bytes 16 s.adapter.chanLog) := by
  obtain ⟨a, ha, hscript, hlog⟩ := hpoll
  obtain ⟨v, d, hv, hr⟩ := hg a
  rw [ha, Res.bind_ok] at hexec
  exact ⟨_, exec_of_ok hv hexec, rfl, hscript, hr, hlog⟩

/-- Phase 1 of readByte on its own is one polled command (log 19). -/
theorem readPhase1Alone_eq (a : Adapter) :
    readPhase1Alone a = (polledCommand [0x96] a).bind fun r a1 =>
      if r.isSome then .ok .done a1 else (drawByte a1).bind fun v a2 => .ok (.byte v) a2 := by
  rw [readPhase1Alone, readPhase1, Res.bind_assoc]
  rfl

/-- Settles O51: each of the six commands is one polled command, and makes no access of its own after a timeout. -/
theorem timeoutRecoversOnceAndAnswersTheSentinel : Obligations.TimeoutRecoversOnceAndAnswersTheSentinel := by
  intro s x p bs answers rest n ho hl hb hr hs
  have hpoll (bytes : List Byte) : ∃ a, polledCommand bytes s.adapter = .ok none a ∧ a.script = rest ∧
      a.chanLog = polledLog [0xF0] n (polledLog bytes 16 s.adapter.chanLog) := by
    obtain ⟨b, h⟩ := polledCommand_recovers bytes s.adapter x bs answers rest n ho hl hb hr hs
    exact ⟨_, h, rfl, rfl⟩
  have hphase1 : exec .br1wrb s = .next (s.endCall id (readPhase1Alone s.adapter)) := rfl
  rw [readPhase1Alone_eq] at hphase1
  refine ⟨?triplet, ?busReset, ?singleBit, ?writeByte, ?phase1, ?phase2⟩
  case triplet => exact exec_recovers (i := .br1wt p) rfl (· = .byte 0x00) (hpoll _) fun a => ⟨_, a.draws, rfl, rfl⟩
  case busReset =>
    exact exec_recovers (i := .br1wrs) rfl (· = .bus .noPresence) (hpoll _) fun a => ⟨_, a.draws, rfl, rfl⟩
  case singleBit => exact exec_recovers (i := .br1wsb p) rfl (· = .bit false) (hpoll _) fun a => ⟨_, a.draws, rfl, rfl⟩
  case writeByte => exact exec_recovers (i := .br1wwb p) rfl (· = .done) (hpoll _) fun a => ⟨_, a.draws, rfl, rfl⟩
  case phase1 => exact exec_recovers hphase1 (∃ b, · = .byte b) (hpoll _) fun a => ⟨_, _, rfl, _, rfl⟩
  case phase2 => exact exec_recovers (i := .brSrp p) rfl (∃ b, · = .byte b) (hpoll _) fun a => ⟨_, _, rfl, _, rfl⟩

end Sys2Proof.Machine
end

section
/-! PROOFS. A Byte Channel access that fails (R107): it ends the operation it belongs to at once, and so the command. -/

namespace Sys2Proof.Machine

/-! An operation up to the channel's next failure. -/

/-- The channel completes the next accesses and then fails one; `m` is how many are recorded once it has failed, and
`rest` the answers that are left then. -/
def FailureAhead (rest : List ChanAnswer) (m : Nat) (a : Adapter) : Prop :=
  a.chanOpen = true ∧
    ∃ oks : List Byte, a.script = oks.map .done ++ .ioError :: rest ∧ a.chanLog.length + oks.length + 1 = m

/-- That failure was the last access made. -/
def FailureMet (rest : List ChanAnswer) (m : Nat) (a : Adapter) : Prop := a.script = rest ∧ a.chanLog.length = m

/-- `f` either completes before the next failure of the channel, or is ended by it at once (R107). -/
def StopsAtFailure {α : Type} (f : Adapter → Res Adapter α) : Prop :=
  ∀ rest m a, FailureAhead rest m a →
    (∃ v a', f a = .ok v a' ∧ FailureAhead rest m a') ∨ ∃ a', f a = .raised a' ∧ FailureMet rest m a'

theorem StopsAtFailure.bind {α β : Type} {f : Adapter → Res Adapter α} {g : α → Adapter → Res Adapter β}
    (hf : StopsAtFailure f) (hg : ∀ v, StopsAtFailure (g v)) : StopsAtFailure fun a => (f a).bind g := by
  intro rest m a h
  dsimp only
  rcases hf rest m a h with ⟨v, a1, e, h1⟩ | ⟨a1, e, h1⟩ <;> rw [e]
  · exact hg v rest m a1 h1
  · exact .inr ⟨a1, rfl, h1⟩

theorem StopsAtFailure.value {α : Type} (v : α) : StopsAtFailure fun a => .ok v a :=
  fun _ _ a h => .inl ⟨v, a, rfl, h⟩

theorem drawByte_stops : StopsAtFailure drawByte := fun _ _ _ h => .inl ⟨_, _, rfl, h⟩

theorem chanWrite_stops (bytes : List Byte) : StopsAtFailure (chanWrite bytes) := by
  rintro rest m a ⟨ho, oks, hs, hm⟩
  cases oks with
  | nil => exact .inr ⟨_, chanWrite_ioError bytes a rest ho hs, rfl, hm⟩
  | cons x oks =>
    exact .inl ⟨_, _, chanWrite_done bytes a x _ ho hs, ho, oks, rfl, by simp only [List.length_cons] at hm ⊢; omega⟩

theorem chanReadAs_ioError (f : Byte → Bridge → Bridge) (a : Adapter) (rest : List ChanAnswer) (ho : a.chanOpen = true)
    (hs : a.script = .ioError :: rest) :
    chanReadAs f a = .raised { a with script := rest, chanLog := .read :: a.chanLog } := by
  rw [chanReadAs, access_ioError .read a rest ho hs, Res.bind_raised]

theorem chanReadAs_stops (f : Byte → Bridge → Bridge) : StopsAtFailure (chanReadAs f) := by
  rintro rest m a ⟨ho, oks, hs, hm⟩
  cases oks with
  | nil => exact .inr ⟨_, chanReadAs_ioError f a rest ho hs, rfl, hm⟩
  | cons x oks =>
    exact .inl ⟨_, _, chanReadAs_done f a x _ ho hs, ho, oks, rfl, by simp only [List.length_cons] at hm ⊢; omega⟩

theorem pollReads_stops (n : Nat) : StopsAtFailure (pollReads n) := by
  induction n with
  | zero => exact .value none
  | succ n ih =>
    refine .bind (f := statusRead) (chanReadAs_stops _) fun v => ?_
    split
    · exact ih
    · exact .value _

theorem resetBridge_stops : StopsAtFailure resetBridge :=
  .bind (chanWrite_stops _) fun _ => .bind (pollReads_stops _) fun r => by cases r <;> exact .value _

theorem polledCommand_stops (bytes : List Byte) : StopsAtFailure (polledCommand bytes) := by
  refine .bind (chanWrite_stops _) fun _ => .bind (pollReads_stops _) fun r => ?_
  cases r with
  | none => exact .bind resetBridge_stops fun _ => .value none
  | some st => exact .value (some st)

theorem writeConfigByte_stops (p : Byte) : StopsAtFailure (writeConfigByte p) :=
  .bind (chanWrite_stops _) fun _ => chanReadAs_stops _

theorem selectWith_stops (p : Byte) (want : Option (BitVec 3 × Byte)) : StopsAtFailure (selectWith p want) := by
  refine .bind (chanWrite_stops _) fun _ => .bind (chanReadAs_stops _) fun v => ?_
  split
  · split
    · exact fun _ _ _ h => .inl ⟨_, _, rfl, h⟩
    · exact .value false
  · exact .value false

theorem tripletByte_stops (p : Byte) : StopsAtFailure (tripletByte p) := (polledCommand_stops _).bind fun _ => .value _

theorem busReset_stops : StopsAtFailure busReset := (polledCommand_stops _).bind fun _ => .value _

theorem singleBitByte_stops (p : Byte) : StopsAtFailure (singleBitByte p) :=
  (polledCommand_stops _).bind fun _ => .value _

theorem writeByte_stops (v : Byte) : StopsAtFailure (writeByte v) := (polledCommand_stops _).bind fun _ => .value _

theorem readPhase1Alone_stops : StopsAtFailure readPhase1Alone := by
  refine .bind (f := readPhase1) ((polledCommand_stops _).bind fun _ => .value _) fun completed => ?_
  split
  · exact .value _
  · exact drawByte_stops.bind fun _ => .value _

theorem readPhase2_stops (p : Byte) : StopsAtFailure (readPhase2 p) := by
  refine (polledCommand_stops _).bind fun r => ?_
  cases r with
  | none => exact drawByte_stops
  | some st => exact chanReadAs_stops _

/-! An operation whose first access is a write that fails. -/

/-- `f` begins with the write of `bytes`: when that is ended by an error, so is `f`. -/
def WritesFirst {α : Type} (bytes : List Byte) (f : Adapter → Res Adapter α) : Prop :=
  ∀ a a', chanWrite bytes a = .raised a' → f a = .raised a'

theorem WritesFirst.bind {α β : Type} {bytes : List Byte} {f : Adapter → Res Adapter α}
    (hf : WritesFirst bytes f) (g : α → Adapter → Res Adapter β) : WritesFirst bytes fun a => (f a).bind g :=
  fun a a' h => congrArg (·.bind g) (hf a a' h)

theorem chanWrite_writesFirst (bytes : List Byte) : WritesFirst bytes (chanWrite bytes) := fun _ _ h => h

theorem polledCommand_writesFirst (bytes : List Byte) : WritesFirst bytes (polledCommand bytes) :=
  (chanWrite_writesFirst bytes).bind _

/-! The bridge and ROM commands. -/

/-- The bytes a bridge or ROM command writes first: its own, a ROM command byte sent with the opcode 0xA5 (R74, R83). -/
def commandWrite (i : Instr) : List Byte := if spaceOf i = .romCmd then 0xA5 :: encode i else encode i

/-- A bridge or ROM command is one adapter operation, which writes the command first and stops at a failure. -/
theorem exec_stops (i : Instr) (hi : spaceOf i ≠ .host) :
    ∃ (α : Type) (f : α → AdapterResult) (op : Adapter → Res Adapter α),
      StopsAtFailure op ∧ WritesFirst (commandWrite i) op ∧ ∀ s, exec i s = .next (s.endCall f (op s.adapter)) := by
  have hpoll {α : Type} (bytes : List Byte) (g : Option Byte → Adapter → Res Adapter α) :=
    (polledCommand_writesFirst bytes).bind g
  cases i with
  | crcFold | crcCompute | srchBegin | srchSearch | srchCont | exclBegin | exclEnd => exact absurd rfl hi
  | brDrst => exact ⟨_, _, resetBridge, resetBridge_stops, (chanWrite_writesFirst _).bind _, fun _ => rfl⟩
  | brSrp p => exact ⟨_, _, readPhase2 p, readPhase2_stops p, hpoll _ _, fun _ => rfl⟩
  | brWcfg p =>
    exact ⟨_, _, writeConfigByte p, writeConfigByte_stops p, (chanWrite_writesFirst _).bind _, fun _ => rfl⟩
  | brChsl p =>
    exact ⟨_, _, selectByte p, fun rest m a h => selectWith_stops p _ rest m a h,
      fun a a' h => (chanWrite_writesFirst _).bind _ a a' h, fun _ => rfl⟩
  | br1wrs => exact ⟨_, _, busReset, busReset_stops, hpoll _ _, fun _ => rfl⟩
  | br1wsb p => exact ⟨_, _, singleBitByte p, singleBitByte_stops p, hpoll _ _, fun _ => rfl⟩
  | br1wwb p => exact ⟨_, _, writeByte p, writeByte_stops p, hpoll _ _, fun _ => rfl⟩
  | br1wrb => exact ⟨_, _, readPhase1Alone, readPhase1Alone_stops, (hpoll _ _).bind _, fun _ => rfl⟩
  | br1wt p => exact ⟨_, _, tripletByte p, tripletByte_stops p, hpoll _ _, fun _ => rfl⟩
  | romSearch => exact ⟨_, _, writeByte 0xF0, writeByte_stops _, hpoll _ _, fun _ => rfl⟩
  | romAlarm => exact ⟨_, _, writeByte 0xEC, writeByte_stops _, hpoll _ _, fun _ => rfl⟩
  | romMatch => exact ⟨_, _, writeByte 0x55, writeByte_stops _, hpoll _ _, fun _ => rfl⟩
  | romSkip => exact ⟨_, _, writeByte 0xCC, writeByte_stops _, hpoll _ _, fun _ => rfl⟩
  | romRead => exact ⟨_, _, writeByte 0x33, writeByte_stops _, hpoll _ _, fun _ => rfl⟩

/-- Settles O58: the operation either ends at the failure, or completes with the failure still ahead, and then more
answers are left than `rest`. -/
theorem transportErrorEndsTheCommand : Obligations.TransportErrorEndsTheCommand := by
  intro i s t oks rest hi ho hs hexec hlen
  obtain ⟨α, f, op, hstops, -, he⟩ := exec_stops i hi
  rw [he] at hexec
  cases hexec
  rcases hstops rest _ s.adapter ⟨ho, oks, hs, rfl⟩ with ⟨v, a', e, -, oks', hs', -⟩ | ⟨a', e, hs', hlog⟩ <;>
    rw [e] at hlen ⊢
  · simp only [State.endCall, hs', List.length_append, List.length_cons] at hlen
    omega
  · exact ⟨rfl, hs', rfl, hlog⟩

/-- A command whose own write raises ends there, in a TransportError (R107, log 5). -/
theorem exec_of_write_raised {i : Instr} (hi : spaceOf i ≠ .host) {s : State} {a : Adapter}
    (h : chanWrite (commandWrite i) s.adapter = .raised a) :
    exec i s = .next { s with adapter := { a with result := .hardError .transportError } } := by
  obtain ⟨α, f, op, -, hfirst, he⟩ := exec_stops i hi
  rw [he, hfirst _ _ h]
  rfl

/-- After the failed write of a command other than `BR.DRST`, BridgeConfig is as it was, but for an accepted byte of
`BR.WCFG` (R34, log 36). -/
theorem afterFailedWrite_commandWrite_config {i : Instr} (hi : spaceOf i ≠ .host) (hr : i ≠ .brDrst) (cfg : Params)
    (n : Nat) (b : Bridge) :
    (b.afterFailedWrite cfg n (commandWrite i)).config = b.config ∨
      ∃ p, i = .brWcfg p ∧ configAccepted p = true ∧
        (b.afterFailedWrite cfg n (commandWrite i)).config = p.extractLsb' 0 4 := by
  cases i with
  | crcFold | crcCompute | srchBegin | srchSearch | srchCont | exclBegin | exclEnd => exact absurd rfl hi
  | brDrst => exact absurd rfl hr
  | brWcfg p => exact (b.afterFailedWrite_setConfig cfg n p).imp_right fun h => ⟨p, rfl, h⟩
  | _ => exact .inl (b.afterFailedWrite_config cfg n _ _ (by decide) (by decide))

/-- Settles O53: a failed write of any command, and the write and the read of `BR.WCFG`. -/
theorem writeConfigReadsBack : Obligations.WriteConfigReadsBack := by
  refine ⟨fun i s rest hi hr ho hs => ?failed, fun s p x v rest ho hs => ?completed⟩
  case failed =>
    exact ⟨_, exec_of_write_raised hi (chanWrite_ioError _ s.adapter rest ho hs), rfl, rfl,
      afterFailedWrite_commandWrite_config hi hr _ _ _⟩
  case completed =>
    exact exec_of_ok (writeRead_done [0xD2, p] s.adapter x v rest ho hs) rfl

/-! Opening and closing the channel. -/

theorem call_done (acc : ChanAccess) (a : Adapter) (x : Byte) (rest : List ChanAnswer)
    (hs : a.script = .done x :: rest) : a.call acc = .ok x { a with script := rest, chanLog := acc :: a.chanLog } := by
  rw [Adapter.call, Adapter.nextAnswer, hs]

theorem call_ioError (acc : ChanAccess) (a : Adapter) (rest : List ChanAnswer) (hs : a.script = .ioError :: rest) :
    a.call acc = .raised { a with script := rest, chanLog := acc :: a.chanLog } := by
  rw [Adapter.call, Adapter.nextAnswer, hs]

theorem step_call {s : State} {op : AdapterCall} {rq : List Request} (h : s.hung = false)
    (hr : s.requests = .call op :: rq) : step s = .next (State.callAdapter op { s with requests := rq }) :=
  step_of_serve_ended h hr rfl

/-- Settles O59: the two calls over a completing and over a failing answer; on a closed channel the write of a command
raises without an access. -/
theorem closedChannelIsATransportError : Obligations.ClosedChannelIsATransportError := by
  refine ⟨fun s x rest rq h hr hs => ?closed, fun s op rest rq h hop hr hs => ?failed, fun i s hi ho => ?command,
    fun s x rest rq h hr hs => ?opened⟩
  case closed =>
    rw [step_call h hr, State.callAdapter, closeChannel, call_done _ _ x rest hs]
    exact ⟨_, rfl, rfl, rfl, rfl, rfl⟩
  case failed =>
    rcases hop with rfl | rfl
    · rw [step_call h hr, State.callAdapter, closeChannel, call_ioError _ _ rest hs]
      refine ⟨_, rfl, rfl, rfl, rfl, fun ho => ?_⟩
      obtain ho : s.adapter.chanOpen = false := ho.resolve_left nofun
      simp only [State.endCall, ho, Bool.false_and]
    · rw [step_call h hr, State.callAdapter, openChannel, call_ioError _ _ rest hs]
      exact ⟨_, rfl, rfl, rfl, rfl, fun _ => rfl⟩
  case command => exact exec_of_write_raised hi (chanWrite_closed _ _ ho)
  case opened =>
    rw [step_call h hr, State.callAdapter, openChannel, call_done _ _ x rest hs]
    exact ⟨_, rfl, rfl, rfl, rfl⟩

end Sys2Proof.Machine
end

section
/-! PROOFS. Channel select (R80, R104): the entries of the table, and the echo. -/

namespace Sys2Proof.Machine

/-- The channels 0..7 have the entries of the table in order, entry 0 being the fixed one (R80). -/
theorem channelEntry_inside (cfg : Params) {ch : Int} (h0 : 0 ≤ ch) (h7 : ch ≤ 7) :
    ∃ e, channelEntry cfg ch = some e ∧ (ch = 0 → e = ⟨0xF0, 0xB8⟩) ∧
      ∀ k : Fin 7, ch = k + 1 → e = cfg.channelTable[k] := by
  obtain ⟨n, rfl⟩ := Int.eq_ofNat_of_zero_le h0
  have hn : channelEntry cfg n = (channelEntries cfg)[n]? := if_neg (by omega)
  rw [hn, channelEntries]
  cases n with
  | zero => exact ⟨_, rfl, fun _ => rfl, fun k hk => by omega⟩
  | succ j =>
    have hj : j < 7 := by omega
    refine ⟨cfg.channelTable[j], by simp [hj], fun h => by omega, fun k hk => ?_⟩
    obtain rfl : j = k := by omega
    rfl

theorem channelEntry_outside (cfg : Params) {ch : Int} (h : ch < 0 ∨ 7 < ch) : channelEntry cfg ch = none := if_pos h

/-- The fixed select byte is that of channel 0, which comes first (log 18). -/
theorem channelOfSelect_zero (cfg : Params) : channelOfSelect cfg 0xF0 = some (0, 0xB8) := rfl

theorem toNat_ofInt_channel {ch : Int} (h0 : 0 ≤ ch) (h7 : ch ≤ 7) : ((BitVec.ofInt 3 ch).toNat : Int) = ch := by
  rw [BitVec.toNat_ofInt]
  omega

/-- A channel select over a write and a read that complete: for a channel wanted it answers whether its echo was read,
and selects the channel then (R104, log 18). -/
theorem selectWith_done (p : Byte) (want : Option (BitVec 3 × Byte)) (a : Adapter) (x v : Byte) (rest : List ChanAnswer)
    (ho : a.chanOpen = true) (hs : a.script = .done x :: .done v :: rest) :
    ∃ r b, selectWith p want a =
        .ok r { a with script := rest, draws := a.draws + 1, bridge := b,
                       chanLog := .read :: .write [0xC3, p] :: a.chanLog } ∧
      ∀ ch echo, want = some (ch, echo) → r = decide (v = echo) ∧ (v = echo → b.channel = ch) := by
  have h := writeRead_done [0xC3, p] a x v rest ho hs
  rw [selectWith, ← Res.bind_assoc _ (fun _ a1 => chanRead a1), h, Res.bind_ok]
  cases want with
  | none => exact ⟨_, _, rfl, nofun⟩
  | some w =>
    obtain ⟨ch, echo⟩ := w
    by_cases hv : v = echo
    · refine ⟨true, _, if_pos hv, ?_⟩
      rintro _ _ ⟨⟩
      exact ⟨(decide_eq_true hv).symm, fun _ => rfl⟩
    · refine ⟨false, _, if_neg hv, ?_⟩
      rintro _ _ ⟨⟩
      exact ⟨(decide_eq_false hv).symm, fun hv' => absurd hv' hv⟩

/-- Settles O55: the operation wants the entry of its channel, the command the first entry with its select byte. -/
theorem selectChannelComparesTheEcho : Obligations.SelectChannelComparesTheEcho := by
  refine ⟨fun s ch x v rest rq h ho hs hr h0 h7 => ?inside, fun s ch rq h hch hr => ?outside,
    fun s p x v rest ho hs => ?command⟩
  case inside =>
    obtain ⟨e, he, hzero, htable⟩ := channelEntry_inside s.adapter.cfg h0 h7
    obtain ⟨r, b, hsel, hecho⟩ :=
      selectWith_done e.selectByte (some (BitVec.ofInt 3 ch, e.echo)) s.adapter x v rest ho hs
    obtain ⟨hres, hchan⟩ := hecho _ _ rfl
    refine ⟨e, _, hzero, htable, step_call h hr, ?_⟩
    simp only [State.callAdapter, State.selectChannel, he, hsel, hres]
    exact ⟨rfl, rfl, rfl, rfl, fun hv => (congrArg (fun c : BitVec 3 => (c.toNat : Int)) (hchan hv)).trans
      (toNat_ofInt_channel h0 h7)⟩
  case outside =>
    rw [step_call h hr, State.callAdapter, State.selectChannel, channelEntry_outside _ hch]
    rfl
  case command =>
    obtain ⟨r, b, hsel, hecho⟩ := selectWith_done p (channelOfSelect s.adapter.cfg p) s.adapter x v rest ho hs
    refine ⟨_, exec_of_ok hsel rfl, rfl, rfl, rfl, ?zero, fun ch echo hw => ?entry⟩
    case zero =>
      rintro rfl
      obtain ⟨hres, -⟩ := hecho _ _ (channelOfSelect_zero _)
      exact congrArg AdapterResult.bool hres
    case entry =>
      obtain ⟨hres, hchan⟩ := hecho ch echo hw
      exact ⟨congrArg AdapterResult.bool hres, hchan⟩

end Sys2Proof.Machine
end

section
/-! PROOFS. The polled commands whose poll completes (R120 to R123, R105, R83), and the operations as their callers see
them when a poll times out (R125, R206). -/

namespace Sys2Proof.Machine

/-! Polls that complete. -/

/-- A command that is one polled command, over answers that complete: the state after it, when its write leaves the read
pointer at the status register and `received` in Read-Data (log 17, log 38). -/
theorem exec_polled {α : Type} {i : Instr} {s : State} {x : Byte} {bs : List Byte} {st : Byte} {rest : List ChanAnswer}
    {f : α → AdapterResult} {bytes : List Byte} {g : Option Byte → Adapter → Res Adapter α} {v : α} (received : Byte)
    (ho : s.adapter.chanOpen = true) (hs : s.adapter.script = polledAnswers x bs st ++ rest) (hp : PollCompletes bs st)
    (hexec : exec i s = .next (s.endCall f ((polledCommand bytes s.adapter).bind g)))
    (hw : s.adapter.bridge.afterWrite s.adapter.cfg s.adapter.draws bytes =
      { s.adapter.bridge with pointer := .status, readData := received })
    (hg : ∀ a, g (some st) a = .ok v a) :
    exec i s = .next (let t := s.afterPolled bytes (bs.length + 1) st rest (f v)
      { t with adapter := { t.adapter with bridge := { t.adapter.bridge with readData := received } } }) := by
  have hpoll := polledCommand_completes bytes s.adapter x bs st rest ho hs hp
  rw [hw, Bridge.afterReads_status] at hpoll
  rw [hpoll, Res.bind_ok] at hexec
  exact exec_of_ok (hg _) hexec

/-- Settles O49: each command is one polled command, whose write only moves the read pointer, but for `BR.1WRB`, after
which Read-Data holds a byte not yet fetched. -/
theorem polledCommandsComplete : Obligations.PolledCommandsComplete := by
  intro s x bs st p rest ho hs hp
  have keeps {α : Type} {i : Instr} {f : α → AdapterResult} {bytes : List Byte}
      {g : Option Byte → Adapter → Res Adapter α} {v : α}
      (hexec : exec i s = .next (s.endCall f ((polledCommand bytes s.adapter).bind g)))
      (hw : s.adapter.bridge.afterWrite s.adapter.cfg s.adapter.draws bytes =
        { s.adapter.bridge with pointer := .status })
      (hg : ∀ a, g (some st) a = .ok v a) :
      exec i s = .next (s.afterPolled bytes (bs.length + 1) st rest (f v)) :=
    exec_polled s.adapter.bridge.readData ho hs hp hexec hw hg
  refine ⟨?busReset, ?singleBit, ?writeByte, ?phase1, ?triplet, ?romSearch, ?romAlarm, ?romMatch, ?romSkip, ?romRead⟩
  case phase1 =>
    have hphase1 : exec .br1wrb s = .next (s.endCall id (readPhase1Alone s.adapter)) := rfl
    rw [readPhase1Alone_eq] at hphase1
    exact ⟨_, exec_polled (Config.freeLinkByte s.adapter.draws) ho hs hp hphase1 rfl fun _ => rfl⟩
  case busReset | singleBit | triplet => exact keeps rfl rfl fun _ => rfl
  case writeByte | romSearch | romAlarm | romMatch | romSkip | romRead =>
    exact keeps (f := fun _ : Unit => .done) rfl rfl fun _ => rfl

/-! Polls that time out. -/

/-- A call whose operation comes to a polled command on `a` and makes no access after its timeout: the recovery is run
once, and the caller gets what the operation makes of the timeout (R125). -/
theorem step_call_recovers {α : Type} {s : State} {op : AdapterCall} {rq : List Request} {a : Adapter}
    {rest : List ChanAnswer} {n : Nat} {f : α → AdapterResult} {bytes : List Byte}
    {g : Option Byte → Adapter → Res Adapter α} (r : AdapterResult → Prop) (hh : s.hung = false)
    (hreq : s.requests = .call op :: rq)
    (hcall : State.callAdapter op { s with requests := rq } =
      State.endCall f ((polledCommand bytes a).bind g) { s with requests := rq })
    (hpoll : ∃ b, polledCommand bytes a =
      .ok none { a with script := rest, draws := a.draws + 2,
                        chanLog := polledLog [0xF0] n (polledLog bytes 16 a.chanLog), bridge := b })
    (hg : ∀ a', ∃ v d, g none a' = .ok v { a' with draws := d } ∧ r (f v)) :
    ∃ t, step s = .next t ∧ t.hung = false ∧ t.requests = rq ∧ t.adapter.script = rest ∧ r t.adapter.result ∧
      t.adapter.chanLog = polledLog [0xF0] n (polledLog bytes 16 a.chanLog) := by
  obtain ⟨b, hpoll⟩ := hpoll
  obtain ⟨v, d, hv, hr⟩ := hg _
  rw [step_call hh hreq, hcall, hpoll, Res.bind_ok, hv]
  exact ⟨_, rfl, hh, rfl, rfl, hr, rfl⟩

/-- readByte is its first poll, then phase 2, or a free byte after a timeout (R123, R125). -/
theorem readByte_eq (a : Adapter) :
    readByte a = (polledCommand [0x96] a).bind fun r a1 =>
      if r.isSome then readPhase2 a1.cfg.readDataCode a1 else drawByte a1 := by
  rw [readByte, readPhase1, Res.bind_assoc]
  rfl

/-- Once the first poll of readByte completes, what is left is phase 2 with the selector of Read-Data. -/
theorem readByte_afterPhase1 (a : Adapter) (x : Byte) (bs : List Byte) (st : Byte) (rest : List ChanAnswer)
    (ho : a.chanOpen = true) (hs : a.script = polledAnswers x bs st ++ rest) (hp : PollCompletes bs st) :
    ∃ b, readByte a = readPhase2 a.cfg.readDataCode
      { a with script := rest, draws := a.draws + 1, chanLog := polledLog [0x96] (bs.length + 1) a.chanLog,
               bridge := b } := by
  rw [readByte_eq, polledCommand_completes [0x96] a x bs st rest ho hs hp]
  exact ⟨_, rfl⟩

/-- Settles O52: a call of an operation is a step, and each operation is one polled command with no access after a
timeout; readByte is two of them in sequence. -/
theorem operationsEndWithTheirSentinels : Obligations.OperationsEndWithTheirSentinels := by
  intro s x bs answers rest n rq hh ho hl hb hr
  have hpoll (bytes : List Byte) (a : Adapter) (ho : a.chanOpen = true)
      (hs : a.script = .done x :: bs.map .done ++ answers ++ rest) :=
    polledCommand_recovers bytes a x bs answers rest n ho hl hb hr hs
  have hreadByte : State.callAdapter .readByte { s with requests := rq } =
      State.endCall .byte (readByte s.adapter) { s with requests := rq } := rfl
  refine ⟨fun d hreq hs => ?triplet, fun hreq hs => ?busReset, fun b hreq hs => ?writeBit, fun b hreq hs => ?touchBit,
    fun v hreq hs => ?writeByte, fun hreq hs => ?firstPoll, fun y cs st hp hreq hs => ?secondPoll,
    fun hreq hs => ?resetBridge⟩
  case triplet =>
    exact step_call_recovers (· = .byte 0x00) hh hreq rfl (hpoll _ s.adapter ho hs) fun a => ⟨_, a.draws, rfl, rfl⟩
  case busReset =>
    exact step_call_recovers (· = .bus .noPresence) hh hreq rfl (hpoll _ s.adapter ho hs) fun a =>
      ⟨_, a.draws, rfl, rfl⟩
  case writeBit | touchBit =>
    exact step_call_recovers (· = .bit false) hh hreq rfl (hpoll _ s.adapter ho hs) fun a => ⟨_, a.draws, rfl, rfl⟩
  case writeByte =>
    exact step_call_recovers (· = .done) hh hreq rfl (hpoll _ s.adapter ho hs) fun a => ⟨_, a.draws, rfl, rfl⟩
  case firstPoll =>
    rw [readByte_eq] at hreadByte
    exact step_call_recovers (∃ b, · = .byte b) hh hreq hreadByte (hpoll _ _ ho hs) fun a => ⟨_, _, rfl, _, rfl⟩
  case secondPoll =>
    obtain ⟨b, hphase1⟩ := readByte_afterPhase1 s.adapter y cs st (.done x :: bs.map .done ++ answers ++ rest) ho
      (by simpa using hs) hp
    rw [hphase1] at hreadByte
    exact step_call_recovers (∃ b, · = .byte b) hh hreq hreadByte (hpoll _ _ ho rfl) fun a => ⟨_, _, rfl, _, rfl⟩
  case resetBridge =>
    rw [step_call hh hreq, State.callAdapter, resetBridge_timesOut _ x bs rest ho hl hb hs]
    exact ⟨_, rfl, hh, rfl, rfl, rfl, rfl⟩

end Sys2Proof.Machine
end

section
/-! PROOFS. The two phases of readByte (R123, R244), and transferBlock (R124). -/

namespace Sys2Proof.Machine

/-! Phase 2 of readByte. -/

/-- Through a read pointer moved with the selector of Read-Data, the byte fetched is that register's, whatever status
reads come between (R35, log 17). -/
theorem Bridge.readData_afterFetch (cfg : Params) (n : Nat) (b : Bridge) (reads : List Byte) (v : Byte) :
    (((b.afterWrite cfg n [0xE1, cfg.readDataCode]).afterReads reads).afterFetch v).readData = v := by
  have hptr : ((b.afterWrite cfg n [0xE1, cfg.readDataCode]).afterReads reads).pointer = .readData :=
    (Bridge.afterReads_pointer reads _).trans (if_pos rfl)
  rw [Bridge.afterFetch, hptr]

/-- Phase 2 over answers that complete: the poll, then one fetch, whose byte is the result. -/
theorem readPhase2_completes (p : Byte) (a : Adapter) (y : Byte) (cs : List Byte) (st v : Byte) (rest : List ChanAnswer)
    (ho : a.chanOpen = true) (hs : a.script = polledAnswers y cs st ++ .done v :: rest) (hp : PollCompletes cs st) :
    ∃ b, readPhase2 p a =
        .ok v { a with script := rest, draws := a.draws + 1,
                       chanLog := .read :: polledLog [0xE1, p] (cs.length + 1) a.chanLog, bridge := b } ∧
      (p = a.cfg.readDataCode → b.readData = v) := by
  rw [readPhase2, polledCommand_completes [0xE1, p] a y cs st (.done v :: rest) ho hs hp]
  refine ⟨_, chanRead_done _ v rest ho rfl, ?_⟩
  rintro rfl
  exact Bridge.readData_afterFetch a.cfg a.draws a.bridge _ v

/-- Settles O56: the first poll leaves phase 2, which is `BR.SRP` with the selector of Read-Data (log 19). -/
theorem readByteHasTwoPhases : Obligations.ReadByteHasTwoPhases := by
  refine ⟨fun s x y v bs cs st st' rest rq hh ho hp hp' hreq hs => ?call, fun s y v p cs st rest ho hp hs => ?command⟩
  case call =>
    obtain ⟨b, hphase1⟩ := readByte_afterPhase1 s.adapter x bs st (polledAnswers y cs st' ++ .done v :: rest) ho
      (by simpa using hs) hp
    obtain ⟨b', hphase2, hdata⟩ := readPhase2_completes s.adapter.cfg.readDataCode
      { s.adapter with script := polledAnswers y cs st' ++ .done v :: rest, draws := s.adapter.draws + 1,
                       chanLog := polledLog [0x96] (bs.length + 1) s.adapter.chanLog, bridge := b }
      y cs st' v rest ho rfl hp'
    rw [step_call hh hreq, State.callAdapter, hphase1, hphase2]
    exact ⟨_, rfl, hh, rfl, rfl, hdata rfl, rfl⟩
  case command =>
    obtain ⟨b, hphase2, hdata⟩ := readPhase2_completes p s.adapter y cs st v rest ho hs hp
    exact ⟨_, exec_of_ok hphase2 rfl, rfl, rfl, rfl, rfl, hdata⟩

/-! What a transfer does to the buffer, however the channel answers. -/

theorem fillReads_length (l : List Byte) (a : Adapter) : (fillReads l a).1.length = l.length := by
  induction l generalizing a with
  | nil => rfl
  | cons b l ih =>
    rw [fillReads]
    split
    case h_1 v a1 _ => exact congrArg (· + 1) (ih a1)
    case h_2 | h_3 => rfl

theorem sendThenFill_length (l : List Byte) (a : Adapter) : (sendThenFill l a).1.length = l.length := by
  induction l generalizing a with
  | nil => rfl
  | cons b l ih =>
    rw [sendThenFill]
    split
    · exact fillReads_length _ a
    · split
      case h_1 a1 _ => exact congrArg (· + 1) (ih a1)
      case h_2 | h_3 => rfl

/-- A position with no sentinel up to it is sent and not overwritten (R124). -/
theorem sendThenFill_beforeSentinel (l : List Byte) (a : Adapter) (k : Nat)
    (h : ∀ j b, j ≤ k → l[j]? = some b → b ≠ 0xFF) : (sendThenFill l a).1[k]? = l[k]? := by
  induction l generalizing a k with
  | nil => rfl
  | cons b l ih =>
    have hb : b ≠ Config.blockSentinel := h 0 b (Nat.zero_le k) rfl
    rw [sendThenFill, if_neg hb]
    split
    case h_1 a1 _ =>
      cases k with
      | zero => rfl
      | succ k => exact ih a1 k fun j c hj => h (j + 1) c (Nat.succ_le_succ hj)
    case h_2 | h_3 => rfl

/-! The range and the rest of the buffer. -/

/-- A transfer over a buffer cut at the ends of its range. -/
theorem transferRange_append (pre mid post : List Byte) (a : Adapter) :
    transferRange (pre ++ mid ++ post) pre.length mid.length a =
      (pre ++ (sendThenFill mid a).1 ++ post, (sendThenFill mid a).2) := by
  simp [transferRange]

/-- Every range inside a buffer cuts it in three. -/
theorem exists_append_of_range {buf : List Byte} {off len : Nat} (h : off + len ≤ buf.length) :
    ∃ pre mid post, buf = pre ++ mid ++ post ∧ off = pre.length ∧ len = mid.length :=
  ⟨buf.take off, (buf.drop off).take len, (buf.drop off).drop len, by simp, by simp; omega, by simp; omega⟩

/-- A list whose middle is replaced by one of its length: what is outside the middle stays, and so does what both
middles have. -/
theorem getElem?_replaceMiddle {pre mid mid' post : List Byte} (hl : mid'.length = mid.length) {k : Nat}
    (h : pre.length ≤ k → k < pre.length + mid.length → mid'[k - pre.length]? = mid[k - pre.length]?) :
    (pre ++ mid' ++ post)[k]? = (pre ++ mid ++ post)[k]? := by
  simp only [List.append_assoc]
  rcases Nat.lt_or_ge k pre.length with hpre | hpre
  · rw [List.getElem?_append_left hpre, List.getElem?_append_left hpre]
  · rw [List.getElem?_append_right hpre, List.getElem?_append_right hpre]
    rcases Nat.lt_or_ge (k - pre.length) mid.length with hmid | hmid
    · rw [List.getElem?_append_left hmid, List.getElem?_append_left (hl ▸ hmid), h hpre (by omega)]
    · rw [List.getElem?_append_right hmid, List.getElem?_append_right (hl ▸ hmid), hl]

theorem transferRange_zero (buf : List Byte) (off : Nat) (a : Adapter) : transferRange buf off 0 a = (buf, .ok () a) := by
  simp [transferRange, sendThenFill]

/-- A transfer over answers that complete, as a call: the buffer and the record are those of its range. -/
theorem callAdapter_transferBlock_answered {s : State} {pre post : List Byte} {ws : List (Byte × PollAnswer)}
    {rs : List (Byte × ReadAnswer)} {rest : List ChanAnswer} (ho : s.adapter.chanOpen = true)
    (hw : ∀ w ∈ ws, w.1 ≠ 0xFF ∧ w.2.completes) (hf : ∀ r, rs.head? = some r → r.1 = 0xFF)
    (hr : ∀ r ∈ rs, r.2.completes)
    (hs : s.adapter.script = ws.flatMap (·.2.answers) ++ rs.flatMap (·.2.answers) ++ rest) :
    ∃ n b, s.callAdapter
        (.transferBlock (pre ++ ws.map (·.1) ++ rs.map (·.1) ++ post) pre.length (ws.length + rs.length)) =
      { s with adapter := { s.adapter with
        script := rest, draws := n, bridge := b, result := .done,
        chanLog := readsLog s.adapter.cfg.readDataCode (rs.map (·.2)) (writesLog ws s.adapter.chanLog),
        block := pre ++ ws.map (·.1) ++ rs.map (·.2.value) ++ post } } := by
  obtain ⟨n, b, hsend⟩ := sendThenFill_answered ws rs s.adapter rest ho hw hf hr hs
  have htransfer := transferRange_append pre (ws.map (·.1) ++ rs.map (·.1)) post s.adapter
  simp only [hsend, List.length_append, List.length_map, ← List.append_assoc] at htransfer
  refine ⟨n, b, ?_⟩
  rw [State.callAdapter, State.transferBlock, if_neg (by simp), htransfer]
  rfl

/-- Settles O57: a transfer over its range, and what that leaves of the buffer, for any channel. -/
theorem transferBlockStaysInItsRange : Obligations.TransferBlockStaysInItsRange := by
  refine ⟨fun s pre post ws rs rest rq hh ho hw hf hr hs hreq => ?answered, fun buf off len a hlen => ?frame,
    fun buf off a _ => transferRange_zero buf off a, fun s buf off len rq hh hlen hreq => ?outside⟩
  case answered =>
    obtain ⟨n, b, hcall⟩ := callAdapter_transferBlock_answered (s := { s with requests := rq }) (pre := pre)
      (post := post) ho hw hf hr hs
    exact ⟨_, (step_call hh hreq).trans (congrArg _ hcall), rfl, rfl, rfl, rfl, rfl⟩
  case frame =>
    obtain ⟨pre, mid, post, rfl, rfl, rfl⟩ := exists_append_of_range hlen
    have hmid := sendThenFill_length mid a
    rw [transferRange_append]
    refine ⟨by simp [hmid], fun k hk => ?outsideRange, fun k hk hno => ?beforeSentinel⟩
    case outsideRange => exact getElem?_replaceMiddle hmid fun _ _ => by omega
    case beforeSentinel =>
      refine getElem?_replaceMiddle hmid fun _ hlt => sendThenFill_beforeSentinel mid a _ fun j b hj hb => ?_
      refine hno (pre.length + j) b (Nat.le_add_right _ _) (by omega) ?_
      rw [List.append_assoc, List.getElem?_append_right (by omega), Nat.add_sub_cancel_left,
        List.getElem?_append_left (by omega), hb]
  case outside =>
    rw [step_call hh hreq, State.callAdapter, State.transferBlock, if_pos hlen]
    rfl

end Sys2Proof.Machine
end

section
/-! PROOFS. The rows of a search one at a time (R142 to R153): what ends it before its triplets, the direction, one
answer, the check, and a row whose request fails. -/

namespace Sys2Proof.Machine

/-! A row that makes a request, by how the request ends. -/

/-- A row whose request is answered acts on the answer. -/
theorem onAnswer_of_ok {α : Type} {f : Adapter → Res Adapter α} {s : State} {v : α} {ad : Adapter}
    (h : f s.adapter = .ok v ad) (e : Option α → LinkEvent) (g : α → State → State) :
    onAnswer (linkRequest f e s) g = g v (s.afterLink ad (e (some v))) := by
  rw [linkRequest, h]
  rfl

/-- A row whose request ends in a hard error ends the search. -/
theorem onAnswer_of_raised {α : Type} {f : Adapter → Res Adapter α} {s : State} {ad : Adapter}
    (h : f s.adapter = .raised ad) (e : Option α → LinkEvent) (g : α → State → State) :
    onAnswer (linkRequest f e s) g = (s.afterLink ad (e none)).enterFailure .hardSearch .transportError := by
  rw [linkRequest, h]
  rfl

/-- A row whose request never returns hangs the machine. -/
theorem onAnswer_of_hung {α : Type} {f : Adapter → Res Adapter α} {s : State} {ad : Adapter}
    (h : f s.adapter = .hung ad) (e : Option α → LinkEvent) (g : α → State → State) :
    onAnswer (linkRequest f e s) g = { s.afterLink ad (e none) with hung := true } := by
  rw [linkRequest, h]
  rfl

/-! Entry and bus reset. -/

/-- A search entered with `LDF` clear is the walk from its first row (R142). -/
theorem search_eq_runRows {s : State} (a : Bool) (h : s.ldf = false) :
    search a s = runRows 67 { s with alarm := a, phase := .sReset } := by
  simp only [search, State.enterSearch, h]
  rfl

/-- Its first row is the bus reset (R143). -/
theorem search_resetRow {s : State} (a : Bool) (hs : s.hung = false) (h : s.ldf = false) :
    search a s = runRows 66 (resetRow { s with alarm := a, phase := .sReset }) :=
  (search_eq_runRows a h).trans (runRows_step 66 _ (fun hp => by cases hp) hs)

/-- A machine that hangs before the search runs no row. -/
theorem search_of_hung {s : State} (a : Bool) (hs : s.hung = true) (h : s.ldf = false) :
    search a s = { s with alarm := a, phase := .sReset } :=
  (search_eq_runRows a h).trans (runRows_stop _ _ (.inr hs))

/-- Settles O21: the search is over at its entry. -/
theorem searchAfterLastDeviceEnds : Obligations.SearchAfterLastDeviceEnds := by
  intro s a h
  rw [exec, execSrchSearch, search_lastDevice s a h]
  rfl

/-- Settles O22, by the definition of the command. -/
theorem beginIsSessionResetThenSearch : Obligations.BeginIsSessionResetThenSearch := fun _ => rfl

theorem beginSession_of_zero {s : State} (hld : s.ld = 0) (hlfd : s.lfd = 0) (hldf : s.ldf = false)
    (hx : s.faulted = false) : s.beginSession = s := by
  cases s
  cases hld; cases hlfd; cases hldf; cases hx
  rfl

/-- Settles O23: `SRCH.CONT` is the normal search by definition, and the reset of a zero session changes nothing. -/
theorem continueIsNormalSearch : Obligations.ContinueIsNormalSearch := by
  refine ⟨fun _ => rfl, fun s hld hlfd hldf hx => ?_⟩
  rw [exec, exec, execSrchBegin, beginSession_of_zero hld hlfd hldf hx]
  rfl

/-- The bus reset is acted on as it answers (R143). -/
theorem resetRow_of_ok {s : State} {r : BusResetResult} {ad : Adapter} (h : busReset s.adapter = .ok r ad) :
    resetRow s = (s.afterLink ad (.busReset (some r))).takeBusReset r := onAnswer_of_ok h _ _

/-- Settles O24: the first row ends the search softly. -/
theorem failedBusResetEndsTheSearch : Obligations.FailedBusResetEndsTheSearch := by
  intro s a r ad hs hldf hr hne
  refine ⟨_, rfl, ?_⟩
  rw [search_resetRow a hs hldf, resetRow_of_ok (s := { s with alarm := a, phase := .sReset }) hr]
  cases r with
  | presenceDetected => exact absurd rfl hne
  | shortDetected | noPresence => rw [runRows_stop _ _ (.inl rfl)]; exact ⟨rfl, rfl⟩

/-- Settles O25: the row acts on the completed write. -/
theorem commandByteAndLoopStart : Obligations.CommandByteAndLoopStart := fun s _ h =>
  onAnswer_of_ok (f := writeByte (searchCommandByte s.alarm)) h _ _

/-- Settles O29, one lemma for the three rows that make a request. -/
theorem hardErrorEndsTheRow : Obligations.HardErrorEndsTheRow := fun s _ =>
  ⟨fun h => onAnswer_of_raised h _ _, fun h => onAnswer_of_raised (f := writeByte (searchCommandByte s.alarm)) h _ _,
    fun h => onAnswer_of_raised (f := triplet s.dir) h _ _⟩

/-! One triplet. -/

/-- Settles O26: the comparison is that of unsigned numbers. -/
theorem provisionalDirection : Obligations.ProvisionalDirection := by
  refine fun ld i rom => ⟨fun h => ?below, fun h => ?equal, fun h => ?above⟩
  case below => exact if_pos (BitVec.lt_def.2 h)
  case equal => simp [direction, h]
  case above =>
    have hne : i ≠ ld := fun he => by simp [he] at h
    rw [direction, if_neg (by rw [BitVec.lt_def]; omega), beq_eq_false_iff_ne.2 hne]

/-- An answer with both read bits set ends the search (R148). -/
theorem takeStatus_of_noResponse (s : State) {st : Byte} (h : noResponse st = true) :
    s.takeStatus st = s.enterFailure .soft .noResponse := if_pos h

/-- Any other answer is recorded and stored, and the search goes on to its check after index 64 (R149, R150). -/
theorem takeStatus_last {s : State} {st : Byte} (h : noResponse st = false) (hi : s.i = 64) :
    s.takeStatus st = { (s.recordZero st).storeBit st with phase := .sCheck } :=
  (if_neg (Bool.eq_false_iff.1 h)).trans (if_pos hi)

/-- Before index 64 it goes on to the next index. -/
theorem takeStatus_next {s : State} {st : Byte} (h : noResponse st = false) (hi : s.i ≠ 64) :
    s.takeStatus st = ((s.recordZero st).storeBit st).startBit (s.i + 1) :=
  (if_neg (Bool.eq_false_iff.1 h)).trans (if_neg hi)

theorem noResponse_iff (st : Byte) : noResponse st = true ↔ st.getLsbD 5 = true ∧ st.getLsbD 6 = true := by
  simp [noResponse, idBit, cmpBit]

theorem resolvedToZero_iff (st : Byte) :
    resolvedToZero st = true ↔ st.getLsbD 5 = false ∧ st.getLsbD 6 = false ∧ st.getLsbD 7 = false := by
  simp [resolvedToZero, idBit, cmpBit, taken, and_assoc]

/-- What is recorded and stored of one answer (R149, R150). -/
theorem recordZero_storeBit (s : State) (st : Byte) :
    (s.recordZero st).storeBit st =
      { s with lastZero := if resolvedToZero st then s.i else s.lastZero
               lfd := if resolvedToZero st && decide (s.i ≤ 8) then s.i else s.lfd
               rom := setBit s.rom s.i (taken st) } := by
  have hrecord : s.recordZero st =
      { s with lastZero := if resolvedToZero st then s.i else s.lastZero
               lfd := if resolvedToZero st && decide (s.i ≤ 8) then s.i else s.lfd } := by
    cases hz : resolvedToZero st with
    | false => exact if_neg (Bool.eq_false_iff.1 hz)
    | true =>
      refine (if_pos hz).trans ?_
      simp only [if_true, Bool.true_and, decide_eq_true_eq]
      rfl
  rw [State.storeBit, hrecord]

/-- The bits 0 to 4 of an answer are not read (R147). -/
theorem takeStatus_congr (s : State) {st st' : Byte} (h : st.extractLsb' 5 3 = st'.extractLsb' 5 3) :
    s.takeStatus st = s.takeStatus st' := by
  have hbit (k : Nat) (hk : k < 3) : st.getLsbD (5 + k) = st'.getLsbD (5 + k) := by
    have := congrArg (·.getLsbD k) h
    simpa [hk] using this
  have hid : idBit st = idBit st' := hbit 0 (by decide)
  have hcmp : cmpBit st = cmpBit st' := hbit 1 (by decide)
  have htaken : taken st = taken st' := hbit 2 (by decide)
  unfold State.takeStatus State.storeBit State.recordZero
  rw [hid, hcmp, htaken]

/-- Settles O27: the three ways an answer is taken, and the bits it is taken by. -/
theorem tripletAnswerIsTaken : Obligations.TripletAnswerIsTaken := by
  refine ⟨fun s st hid hcmp => ?noResponse, fun s st hno => ?answered, fun s st st' h => takeStatus_congr s h⟩
  case noResponse =>
    rw [takeStatus_of_noResponse s ((noResponse_iff st).2 ⟨hid, hcmp⟩)]
    exact ⟨rfl, rfl⟩
  case answered =>
    have hst : noResponse st = false := Bool.eq_false_iff.2 (mt (noResponse_iff st).1 hno)
    have hzero := resolvedToZero_iff st
    refine ⟨fun hi => ?_, fun hi => ?_⟩
    · rw [takeStatus_last hst hi, recordZero_storeBit]
      simp only [← hzero, Bool.and_eq_true, decide_eq_true_eq]
      rfl
    · rw [takeStatus_next hst hi, recordZero_storeBit]
      simp only [← hzero, Bool.and_eq_true, decide_eq_true_eq]
      rfl

/-! The check. -/

/-- The code matches its check byte (R151), as the obligations and the listing write it. -/
theorem romCrcOk_iff (rom : Vector Byte 8) : romCrcOk rom = true ↔ compute rom.toList 0 7 0 = some (romByte rom 7) := by
  rw [romCrcOk, beq_iff_eq]

theorem romCrcOk_iff_crc8 (rom : Vector Byte 8) : romCrcOk rom = true ↔ crc8 (rom.toList.take 7) = romByte rom 7 := by
  simp [romCrcOk, compute, crc8]

theorem romByte_eq_getElem (rom : Vector Byte 8) {k : Nat} (hk : k < 8) : romByte rom k = rom[k] := by
  simp [romByte, hk]

/-- All eight bytes are zero (R152), as the obligations and the listing write it. -/
theorem romAllZero_iff (rom : Vector Byte 8) : romAllZero rom = true ↔ ∀ k, k < 8 → romByte rom k = 0 := by
  rw [romAllZero, List.all_eq_true, List.forall_mem_iff_forall_getElem]
  simp +contextual [romByte_eq_getElem]

theorem romAllZero_iff_eq_zero (rom : Vector Byte 8) : romAllZero rom = true ↔ rom = #v[0, 0, 0, 0, 0, 0, 0, 0] := by
  rw [show #v[0, 0, 0, 0, 0, 0, 0, 0] = Vector.replicate 8 (0 : Byte) from rfl, romAllZero_iff]
  constructor
  · intro h
    ext1 k hk
    rw [← romByte_eq_getElem rom hk, h k hk, Vector.getElem_replicate]
  · rintro rfl k hk
    rw [romByte_eq_getElem _ hk, Vector.getElem_replicate]

/-- A code that does not match its check byte ends the search softly (R151). -/
theorem checkRow_of_mismatch {s : State} (h : romCrcOk s.rom = false) :
    checkRow s = s.enterFailure .soft .integrityFailure := by
  rw [checkRow, if_pos (by simp [h])]

/-- So does a matching code of zero bytes (R152). -/
theorem checkRow_of_allZero {s : State} (h : romCrcOk s.rom = true) (hz : romAllZero s.rom = true) :
    checkRow s = s.enterFailure .soft .allZeroRom := by
  rw [checkRow, if_neg (by simp [h]), if_pos hz]

/-- Any other code is found (R153). -/
theorem checkRow_of_code {s : State} (h : romCrcOk s.rom = true) (hz : romAllZero s.rom = false) :
    checkRow s =
      { s.leaveSearch with ld := s.lastZero, ldf := s.lastZero == 0, found := true, cause := 0 } := by
  rw [checkRow, if_neg (by simp [h]), if_neg (by simp [hz])]
  rfl

/-- Settles O28: the three ends of the check. -/
theorem completionConditions : Obligations.CompletionConditions := by
  intro s
  have hcrc := romCrcOk_iff s.rom
  have hzero := romAllZero_iff s.rom
  refine ⟨?idle, fun hne => ?mismatch, fun heq hz => ?allZero, fun heq ⟨k, hk, hne⟩ => ?code⟩
  case idle =>
    unfold checkRow
    split
    · rfl
    · split <;> rfl
  case mismatch =>
    rw [checkRow_of_mismatch (Bool.eq_false_iff.2 (mt hcrc.1 hne))]
    rfl
  case allZero =>
    rw [checkRow_of_allZero (hcrc.2 heq) (hzero.2 hz)]
    rfl
  case code =>
    rw [checkRow_of_code (hcrc.2 heq) (Bool.eq_false_iff.2 fun hz => hne (hzero.1 hz k hk))]
    rfl

/-! Timeouts inside a search. -/

/-- A polled command that times out, whether or not its recovery does too, ends with its sentinel (R125, R206). -/
theorem polledCommand_timeout (bytes : List Byte) {a : Adapter} {x : Byte} {bs : List Byte}
    {answers rest : List ChanAnswer} {n : Nat} (ho : a.chanOpen = true) (hl : bs.length = 16)
    (hb : ∀ b ∈ bs, busy b = true) (hr : RecoveryAnswers answers n)
    (hs : a.script = .done x :: bs.map .done ++ answers ++ rest) :
    ∃ ad, polledCommand bytes a = .ok none ad ∧ ad.script = rest := by
  obtain ⟨b, h⟩ := polledCommand_recovers bytes a x bs answers rest n ho hl hb hr hs
  exact ⟨_, h, rfl⟩

/-- Settles O30: the triplet answers 0x00, which is taken like any answer that resolves a discrepancy to 0; the command
byte completes with nothing. -/
theorem timeoutsInsideASearchAreNotFailures : Obligations.TimeoutsInsideASearchAreNotFailures := by
  intro s x bs answers rest n ho hl hb hr hs
  refine ⟨?triplet, ?command⟩
  case triplet =>
    obtain ⟨ad, hp, hrest⟩ := polledCommand_timeout [0x78, encodeDirection s.dir] ho hl hb hr hs
    have hbit : triplet s.dir s.adapter = .ok 0x00 ad := by rw [triplet, tripletByte, hp]; rfl
    have hrow : bitRow s = (s.afterLink ad (.triplet s.dir (some 0x00))).takeStatus 0x00 := onAnswer_of_ok hbit _ _
    obtain ⟨-, hanswered, -⟩ := tripletAnswerIsTaken
    obtain ⟨hlast, hnext⟩ := hanswered (s.afterLink ad (.triplet s.dir (some 0x00))) 0x00 (by decide)
    dsimp only
    by_cases hi : s.i = 64#7
    · rw [hrow.trans (hlast hi)]
      simp [hi, hrest]
    · rw [hrow.trans (hnext hi)]
      simp [hi, hrest]
  case command =>
    obtain ⟨ad, hp, hrest⟩ := polledCommand_timeout [0xA5, searchCommandByte s.alarm] ho hl hb hr hs
    have hbyte : writeByte (searchCommandByte s.alarm) s.adapter = .ok () ad := by rw [writeByte, hp]; rfl
    rw [commandByteAndLoopStart s ad hbyte]
    exact ⟨rfl, rfl, rfl, rfl, rfl, rfl, hrest, rfl⟩

end Sys2Proof.Machine
end

section
/-! PROOFS. The sequencer refines the listing (R156): from any row on, the walk ends where the rest of the listing ends,
but for the registers of the sequencer, which the listing has as arguments. -/

namespace Sys2Proof.Machine

/-! States that differ in the registers of the sequencer only. -/

/-- The two states are the same block: they differ at most in the registers of the sequencer. -/
def SameBlock (s t : State) : Prop := s.withoutSequencer = t.withoutSequencer

theorem SameBlock.symm {s t : State} (h : SameBlock s t) : SameBlock t s := Eq.symm h

theorem SameBlock.trans {s t u : State} (h : SameBlock s t) (h' : SameBlock t u) : SameBlock s u := Eq.trans h h'

/-- What the registers of the sequencer do not enter into is the same of the two. -/
theorem SameBlock.value {α : Type} {s t : State} (h : SameBlock s t) (f : State → α)
    (hf : ∀ u, f u.withoutSequencer = f u) : f s = f t := (hf s).symm.trans ((congrArg f h).trans (hf t))

/-- A change of the block that the registers of the sequencer do not enter into keeps the two the same. -/
theorem SameBlock.update {s t : State} (h : SameBlock s t) (f : State → State)
    (hf : ∀ u, SameBlock (f u.withoutSequencer) (f u)) : SameBlock (f s) (f t) :=
  h.value (fun u => (f u).withoutSequencer) hf

theorem SameBlock.rom {s t : State} (h : SameBlock s t) : s.rom = t.rom := h.value State.rom fun _ => rfl
theorem SameBlock.ld {s t : State} (h : SameBlock s t) : s.ld = t.ld := h.value State.ld fun _ => rfl
theorem SameBlock.adapter {s t : State} (h : SameBlock s t) : s.adapter = t.adapter :=
  h.value State.adapter fun _ => rfl

theorem SameBlock.afterLink {s t : State} (h : SameBlock s t) (ad : Adapter) (e : LinkEvent) :
    SameBlock (s.afterLink ad e) (t.afterLink ad e) := h.update (State.afterLink · ad e) fun _ => rfl

theorem SameBlock.failure {s t : State} (h : SameBlock s t) (k : FailureKind) (c : Cause) :
    SameBlock (s.enterFailure k c) (t.enterFailure k c) :=
  h.update (State.enterFailure k c) fun _ => by cases k <;> rfl

theorem SameBlock.hang {s t : State} (h : SameBlock s t) : SameBlock { s with hung := true } { t with hung := true } :=
  h.update (fun u => { u with hung := true }) fun _ => rfl

/-! The listing, by cases. -/

theorem listingCheck_of_mismatch (z : BitIndex) {s : State} (h : romCrcOk s.rom = false) :
    listingCheck z s = s.enterFailure .soft .integrityFailure :=
  if_pos (mt (romCrcOk_iff_crc8 s.rom).2 (Bool.eq_false_iff.1 h))

theorem listingCheck_of_allZero (z : BitIndex) {s : State} (h : romCrcOk s.rom = true) (hz : romAllZero s.rom = true) :
    listingCheck z s = s.enterFailure .soft .allZeroRom := by
  rw [listingCheck, if_neg (not_not_intro ((romCrcOk_iff_crc8 s.rom).1 h)),
    if_pos ((romAllZero_iff_eq_zero s.rom).1 hz)]

theorem listingCheck_of_code (z : BitIndex) {s : State} (h : romCrcOk s.rom = true) (hz : romAllZero s.rom = false) :
    listingCheck z s = { s with ld := z, ldf := z == 0, found := true, cause := 0 } := by
  rw [listingCheck, if_neg (not_not_intro ((romCrcOk_iff_crc8 s.rom).1 h)),
    if_neg (mt (romAllZero_iff_eq_zero s.rom).2 (Bool.eq_false_iff.1 hz))]

/-- What the listing stores of the answer for index `i`: the family discrepancy and the bit (R149, R150). -/
def State.takeBit (i : BitIndex) (st : Byte) (s : State) : State :=
  { s with lfd := if resolvedToZero st && decide (i ≤ 8) then i else s.lfd, rom := setBit s.rom i (taken st) }

theorem SameBlock.takeBit {s t : State} (h : SameBlock s t) (i : BitIndex) (st : Byte) :
    SameBlock (s.takeBit i st) (t.takeBit i st) := h.update (State.takeBit i st) fun _ => rfl

/-- One index of the listing. -/
theorem listingBits_succ (n : Nat) (i z : BitIndex) (s : State) :
    listingBits (n + 1) i z s =
      onAnswer (linkTriplet (direction s.ld i s.rom) s) fun st s1 =>
        if noResponse st then s1.enterFailure .soft .noResponse
        else listingBits n (i + 1) (if resolvedToZero st then i else z) (s1.takeBit i st) := by
  rw [listingBits]
  congr 1
  funext st s1
  congr 2
  unfold State.takeBit
  split <;> rfl

/-- The listing entered with `LDF` clear: the bus reset, the command byte, the triplets. -/
theorem listingSearch_of_clear {s : State} (a : Bool) (h : s.ldf = false) :
    listingSearch a s =
      onAnswer (linkBusReset s) fun r s1 =>
        if r = .presenceDetected then
          onAnswer (linkWriteByte (searchCommandByte a) s1) fun _ s2 => listingBits 64 1 0 s2
        else s1.enterFailure .soft (if r = .shortDetected then .busFault else .noPresence) :=
  if_neg (by simp [h])

/-! The walk beside the listing. -/

/-- The check is that of the listing. -/
theorem checkRow_refines {u s : State} (h : SameBlock u s) : SameBlock (checkRow u) (listingCheck u.lastZero s) := by
  have hrom := h.rom
  cases hc : romCrcOk u.rom with
  | false =>
    rw [checkRow_of_mismatch hc, listingCheck_of_mismatch _ (hrom ▸ hc)]
    exact h.failure _ _
  | true =>
    cases hz : romAllZero u.rom with
    | true =>
      rw [checkRow_of_allZero hc hz, listingCheck_of_allZero _ (hrom ▸ hc) (hrom ▸ hz)]
      exact h.failure _ _
    | false =>
      rw [checkRow_of_code hc hz, listingCheck_of_code _ (hrom ▸ hc) (hrom ▸ hz)]
      exact h.update (fun v => { v with ld := u.lastZero, ldf := u.lastZero == 0, found := true, cause := 0 })
        fun _ => rfl

/-- An answer that is no abort leaves the block the listing has. -/
theorem takeStatus_refines {u : State} {st : Byte} (hst : noResponse st = false) :
    SameBlock (u.takeStatus st) (u.takeBit u.i st) := by
  by_cases hi : u.i = 64
  · rw [takeStatus_last hst hi, recordZero_storeBit]; rfl
  · rw [takeStatus_next hst hi, recordZero_storeBit]; rfl

/-- The sequencer stands where the listing has `n` indices to go from index `i`, with `z` the highest zero so far. -/
def ReadyFor : Nat → BitIndex → BitIndex → State → Prop
  | 0, _, z, u => u.phase = .sCheck ∧ u.lastZero = z
  | n + 1, i, z, u =>
    u.phase = .sBit ∧ u.lastZero = z ∧ u.i = i ∧ i.toNat + n = 64 ∧ u.dir = direction u.ld i u.rom

theorem takeStatus_readyFor {n : Nat} {i z : BitIndex} {u : State} {st : Byte} (h : ReadyFor (n + 1) i z u)
    (hst : noResponse st = false) : ReadyFor n (i + 1) (if resolvedToZero st then i else z) (u.takeStatus st) := by
  obtain ⟨-, rfl, rfl, hn, -⟩ := h
  cases n with
  | zero =>
    rw [takeStatus_last hst (BitVec.eq_of_toNat_eq hn)]
    exact ⟨rfl, by simp⟩
  | succ n =>
    have hi : u.i ≠ 64 := fun hi => by rw [hi] at hn; simp at hn
    rw [takeStatus_next hst hi]
    exact ⟨rfl, by simp, rfl, by bv_omega, by simp⟩

/-- From index `i` on, the walk ends in the block in which the listing ends. -/
theorem runRows_refines {n : Nat} {i z : BitIndex} {u s : State} (h : ReadyFor n i z u) (hu : u.hung = false)
    (hs : SameBlock u s) : SameBlock (runRows (n + 1) u) (listingBits n i z s) := by
  induction n generalizing i z u s with
  | zero =>
    obtain ⟨hp, rfl⟩ := h
    have hrow : sequencerRow u = checkRow u := by simp [sequencerRow, hp]
    rw [runRows_step 0 u (by simp [hp]) hu, hrow]
    exact checkRow_refines hs
  | succ n ih =>
    have hready := h
    obtain ⟨hp, -, rfl, -, hd⟩ := h
    have hrow : sequencerRow u = bitRow u := by simp [sequencerRow, hp]
    rw [runRows_step _ u (by simp [hp]) hu, hrow]
    rw [hs.ld, hs.rom] at hd
    rw [bitRow, linkTriplet, listingBits_succ, linkTriplet, hd]
    rcases onAnswer_cases (triplet (direction s.ld u.i s.rom)) (.triplet (direction s.ld u.i s.rom)) u
      State.takeStatus with ⟨st, ad, hr, hbit⟩ | ⟨ad, hr, hbit⟩ | ⟨ad, hr, hbit⟩ <;>
      rw [hbit] <;> rw [hs.adapter] at hr
    · rw [onAnswer_of_ok hr]
      have hs1 := hs.afterLink ad (.triplet (direction s.ld u.i s.rom) (some st))
      cases hst : noResponse st with
      | true =>
        rw [takeStatus_of_noResponse _ hst, runRows_stop _ _ (.inl rfl)]
        exact hs1.failure _ _
      | false =>
        refine ih (takeStatus_readyFor (u := u.afterLink ad _) hready hst) ?_
          ((takeStatus_refines hst).trans (hs1.takeBit u.i st))
        exact (takeStatus_adapter st _).2.trans hu
    · rw [runRows_stop _ _ (.inl rfl), onAnswer_of_raised hr]
      exact (hs.afterLink ad _).failure _ _
    · rw [runRows_stop _ _ (.inr rfl), onAnswer_of_hung hr]
      exact (hs.afterLink ad _).hang

/-- From the command byte on (R144, R145). -/
theorem cmdRow_refines {u s : State} (hp : u.phase = .sCmd) (hu : u.hung = false) (hs : SameBlock u s) :
    SameBlock (runRows 66 u)
      (onAnswer (linkWriteByte (searchCommandByte u.alarm) s) fun _ s2 => listingBits 64 1 0 s2) := by
  have hrow : sequencerRow u = cmdRow u := by simp [sequencerRow, hp]
  rw [runRows_step 65 u (by simp [hp]) hu, hrow, cmdRow, linkWriteByte, linkWriteByte]
  rcases onAnswer_cases (writeByte (searchCommandByte u.alarm))
      (fun r => .writeByte (searchCommandByte u.alarm) r.isSome) u
      (fun _ s1 => State.startBit 1 { s1 with lastZero := 0 }) with
    ⟨_, ad, hr, hcmd⟩ | ⟨ad, hr, hcmd⟩ | ⟨ad, hr, hcmd⟩ <;> rw [hcmd] <;> rw [hs.adapter] at hr
  · rw [onAnswer_of_ok hr]
    exact runRows_refines ⟨rfl, rfl, rfl, rfl, rfl⟩ hu (hs.afterLink ad _)
  · rw [runRows_stop _ _ (.inl rfl), onAnswer_of_raised hr]
    exact (hs.afterLink ad _).failure _ _
  · rw [runRows_stop _ _ (.inr rfl), onAnswer_of_hung hr]
    exact (hs.afterLink ad _).hang

/-- The whole search ends in the block in which the listing ends. -/
theorem search_refines {s : State} (a : Bool) (hs : s.hung = false) : SameBlock (search a s) (listingSearch a s) := by
  cases hldf : s.ldf with
  | true =>
    rw [search_lastDevice s a hldf, listingSearch, if_pos hldf]
    rfl
  | false =>
    rw [search_resetRow a hs hldf, listingSearch_of_clear a hldf, resetRow, linkBusReset, linkBusReset]
    rcases onAnswer_cases busReset .busReset { s with alarm := a, phase := .sReset } State.takeBusReset with
      ⟨r, ad, hr, hreset⟩ | ⟨ad, hr, hreset⟩ | ⟨ad, hr, hreset⟩ <;> rw [hreset]
    · rw [onAnswer_of_ok (s := s) hr]
      cases r with
      | presenceDetected => exact cmdRow_refines rfl hs rfl
      | shortDetected | noPresence => rw [runRows_stop _ _ (.inl rfl)]; rfl
    · rw [runRows_stop _ _ (.inl rfl), onAnswer_of_raised (s := s) hr]
      rfl
    · rw [runRows_stop _ _ (.inr rfl), onAnswer_of_hung (s := s) hr]
      rfl

/-- Settles O45, by the walk beside the listing: reset row, command row, then the triplets by induction on how many
indices the listing has to go. -/
theorem sequencerRefinesTheListing : Obligations.SequencerRefinesTheListing := by
  intro s t a hs h
  cases h
  exact search_refines a hs

end Sys2Proof.Machine
end

section
/-! PROOFS. What a search that is over tells (R158, R161, R205): its code, its directions, its session, read off the
four ways a search entered with `LDF` clear is over. -/

namespace Sys2Proof.Machine

/-! Success. -/

/-- A search that has found a code was entered with `LDF` clear, and ends after 64 answered triplets. -/
theorem search_found {s : State} {a : Bool} (hs : s.hung = false) (hu : (search a s).hung = false)
    (hf : (search a s).found = true) :
    ∃ (u : State) (ts : List (Bool × Byte)), Mid s a ts u ∧ ts.length = 64 ∧
      search a s = { u.leaveSearch with ld := u.lastZero, ldf := u.lastZero == 0, found := true, cause := 0 } := by
  cases hldf : s.ldf with
  | true => rw [search_lastDevice s a hldf] at hf; cases hf
  | false =>
    have hover := search_over s a hs hldf
    generalize search a s = t at *
    cases hover with
    | hung _ events h hh => rw [hh] at hu; cases hu
    | raised _ events h hh hp hl hf' hd => rw [hd] at hf; cases hf
    | soft _ events h hh hp hl hl' hf' hd => rw [hd] at hf; cases hf
    | success u ts hm hn => exact ⟨u, ts, hm, hn, rfl⟩

/-- Settles O36: the triplets of the walk at its end. -/
theorem foundCodeIsWhatTheTripletsTook : Obligations.FoundCodeIsWhatTheTripletsTook := by
  intro s t a hs h hu hf
  cases h
  obtain ⟨u, ts, hm, hn, he⟩ := search_found hs hu hf
  rw [he]
  refine ⟨ts.map (·.1), ts.map (·.2), by simp [hn], by simp [hn], ?log, ?rom, hm.zero, ?ldf⟩
  case log =>
    have hlog : LinkRequests s u (searchHead a ++ tripletEvents ts) := hm.log
    rw [List.zip_map', List.map_map]
    exact hlog
  case rom =>
    intro k st hk
    rw [List.getElem?_map, Option.map_eq_some_iff] at hk
    obtain ⟨p, hp, rfl⟩ := hk
    exact hm.romTaken k p hp
  case ldf => exact Bool.beq_eq_decide_eq u.lastZero 0

/-! The directions. -/

/-- However a search is over, the directions it asked replay the code and `LD` it was entered with (R146). -/
theorem Over.directions {s u : State} {a : Bool} (h : Over s a u) :
    ∃ events, LinkRequests s u events ∧
      ∀ k d st, events[k + 2]? = some (.triplet d st) → d = askedDirection s k := by
  cases h with
  | hung _ events h | raised _ events h | soft _ events h => exact ⟨events, h.log, h.asked⟩
  | success u ts hm hn =>
    have h := hm.fullEnded hn (v := u) rfl
    exact ⟨_, h.log, h.asked⟩

/-- Settles O37, by the directions the walk records. -/
theorem directionsReplayTheLastCode : Obligations.DirectionsReplayTheLastCode := by
  intro s t a hs hldf h
  cases h
  exact (search_over s a hs hldf).directions

/-! Failure. -/

/-- How a search that did not hang ends, `LDF` clear or set: by success, softly with the session reset, or at a link
request that got no answer. -/
inductive SearchEnd (s : State) (a : Bool) (t : State) : Prop where
  | found (hf : t.found = true) (hc : t.cause = 0x0)
  | soft (hf : t.found = false) (hld : t.ld = 0) (hlfd : t.lfd = 0) (hldf : t.ldf = false)
      (hc : t.cause ∈ [0x1, 0x2, 0x3, 0x6, (0xA : Nibble)] ∨ s.ldf = true ∧ t.cause = 0x9) (hx : t.faulted = s.faulted)
  | raised (hf : t.found = false) (hld : t.ld = s.ld) (hldf : t.ldf = s.ldf) (hc : t.cause = 0x7)
      (hx : t.faulted = true) (hp : t.phase = .idle)
      (hlog : ∃ log, t.linkLog = .busReset none :: log ∨ t.linkLog = .writeByte (searchCommandByte a) false :: log ∨
        ∃ d, t.linkLog = .triplet d none :: log)

/-- The newest entry of the record is the last request made. -/
theorem LinkRequests.newest {s t : State} {events : List LinkEvent} {e : LinkEvent} (h : LinkRequests s t events)
    (he : events.getLast? = some e) : ∃ log, t.linkLog = e :: log := by
  obtain ⟨before, rfl⟩ := List.getLast?_eq_some_iff.1 he
  exact ⟨before.reverse ++ s.linkLog, by simpa [LinkRequests] using h⟩

/-- A search that did not hang has one of these ends. -/
theorem search_end {s : State} (a : Bool) (hs : s.hung = false) (hu : (search a s).hung = false) :
    SearchEnd s a (search a s) := by
  cases hldf : s.ldf with
  | true =>
    rw [search_lastDevice s a hldf]
    exact .soft rfl rfl rfl rfl (.inr ⟨hldf, rfl⟩) rfl
  | false =>
    have hover := search_over s a hs hldf
    generalize search a s = t at *
    cases hover with
    | hung _ events h hh => rw [hh] at hu; cases hu
    | raised _ events h hh hp hl hf hd hc hx he =>
      refine .raised hd hl hf hc hx hp ?_
      rcases he with he | he | ⟨d, he⟩ <;> obtain ⟨log, hlog⟩ := h.log.newest he
      · exact ⟨log, .inl hlog⟩
      · exact ⟨log, .inr (.inl hlog)⟩
      · exact ⟨log, .inr (.inr ⟨d, hlog⟩)⟩
    | soft _ events h hh hp hl hl' hf hd hc hx => exact .soft hd hl hl' hf (.inl hc) hx
    | success => exact .found rfl rfl

/-- Settles O33, over the ends of a search. -/
theorem failedSearchResetsTheSession : Obligations.FailedSearchResetsTheSession := by
  intro s t a hs h hu
  cases h
  cases search_end a hs hu with
  | found hf hc => simp [hf, hc]
  | soft hf hld hlfd hldf hc hx =>
    have hmem : (search a s).cause ∈ [0x1, 0x2, 0x3, 0x6, 0x9, (0xA : Nibble)] := by
      rcases hc with hc | ⟨-, hc⟩
      · exact List.Sublist.subset (by decide) hc
      · rw [hc]
        decide
    have hne : (search a s).cause ≠ 0#4 := ne_of_mem_of_not_mem hmem (by decide)
    exact ⟨by simp [hf, hne], fun _ _ => ⟨hld, hlfd, hldf, hmem, hx⟩⟩
  | raised hf hld hldf hc => simp [hf, hc]

/-- Settles O34, over the ends of a search: of the causes only TransportError is that of a request without an answer. -/
theorem hardErrorKeepsLdAndLdf : Obligations.HardErrorKeepsLdAndLdf := by
  intro s t a hs h hu hc7
  cases h
  cases search_end a hs hu with
  | found hf hc => rw [hc] at hc7; cases hc7
  | soft hf hld hlfd hldf hc =>
    rw [hc7] at hc
    rcases hc with hc | ⟨-, hc⟩ <;> exact absurd hc (by decide)
  | raised hf hld hldf hc hx hp hlog => exact ⟨hld, hldf, hf, hx, hp, hlog⟩

/-- A search ends an enumeration only when it was entered with `LDF` set, and leaves it clear then. -/
theorem search_enumerationDone {s : State} {a : Bool} (hs : s.hung = false) (hu : (search a s).hung = false)
    (hc : (search a s).cause = 0x9) : s.ldf = true ∧ (search a s).ldf = false := by
  cases search_end a hs hu with
  | found hf hc0 => rw [hc0] at hc; cases hc
  | soft hf hld hlfd hldf hcause =>
    rw [hc] at hcause
    rcases hcause with hcause | ⟨hset, -⟩
    · exact absurd hcause (by decide)
    · exact ⟨hset, hldf⟩
  | raised hf hld hldf hc7 => rw [hc7] at hc; cases hc

/-- Settles O38: the second search would have been entered with `LDF` set, which the first one cleared. -/
theorem enumerationEndsOnceInARow : Obligations.EnumerationEndsOnceInARow := by
  intro s t u a b hs ht htu hu huu hct hcu
  cases ht
  cases hu
  obtain ⟨-, hclear⟩ := search_enumerationDone hs htu hct
  obtain ⟨hset, -⟩ := search_enumerationDone htu huu hcu
  rw [hclear] at hset
  cases hset

end Sys2Proof.Machine
end

section
/-! PROOFS. Two runs of a search beside each other, over the listing: from two `ROM`s (R140), and as the two variants
(R162). -/

namespace Sys2Proof.Machine

/-! Two operations that end alike. -/

/-- The two results end in the same way, with the same value, in states that `R` relates. -/
inductive Res.Related {σ α : Type} (R : σ → σ → Prop) : Res σ α → Res σ α → Prop where
  | ok (v : α) {s t : σ} (h : R s t) : Related R (.ok v s) (.ok v t)
  | raised {s t : σ} (h : R s t) : Related R (.raised s) (.raised t)
  | hung {s t : σ} (h : R s t) : Related R (.hung s) (.hung t)

theorem Res.Related.refl {σ α : Type} (r : Res σ α) : Related Eq r r := by
  cases r
  · exact .ok _ rfl
  · exact .raised rfl
  · exact .hung rfl

theorem Res.Related.bind {σ α β : Type} {R : σ → σ → Prop} {r r' : Res σ α} {f g : α → σ → Res σ β}
    (h : Related R r r') (hf : ∀ v s t, R s t → Related R (f v s) (g v t)) : Related R (r.bind f) (r'.bind g) := by
  cases h with
  | ok v h => exact hf v _ _ h
  | raised h => exact .raised h
  | hung h => exact .hung h

/-- Two rows whose requests end alike are related when what follows each end is. -/
theorem onAnswer_related {α : Type} {A : Adapter → Adapter → Prop} {R : State → State → Prop}
    {f f' : Adapter → Res Adapter α} {e e' : Option α → LinkEvent} {g g' : α → State → State} {s s' : State}
    (hf : Res.Related A (f s.adapter) (f' s'.adapter))
    (hok : ∀ v a a', A a a' → R (g v (s.afterLink a (e (some v)))) (g' v (s'.afterLink a' (e' (some v)))))
    (hraised : ∀ a a', A a a' → R ((s.afterLink a (e none)).enterFailure .hardSearch .transportError)
      ((s'.afterLink a' (e' none)).enterFailure .hardSearch .transportError))
    (hhung : ∀ a a', A a a' → R { s.afterLink a (e none) with hung := true }
      { s'.afterLink a' (e' none) with hung := true }) :
    R (onAnswer (linkRequest f e s) g) (onAnswer (linkRequest f' e' s') g') := by
  unfold linkRequest
  generalize f s.adapter = r, f' s'.adapter = r' at hf
  cases hf with
  | ok v h => exact hok v _ _ h
  | raised h => exact hraised _ _ h
  | hung h => exact hhung _ _ h

/-! From two `ROM`s. -/

/-- The state with `rom` in `ROM`. -/
def State.withRom (rom : Vector Byte 8) (s : State) : State := { s with rom := rom }

/-- The two states differ at most in `ROM`, and not at all when a code was found. -/
def RomTwin (t t' : State) : Prop :=
  ∃ rom, t' = t.withRom rom ∧ (t.hung = false → t.found = true → t' = t)

theorem RomTwin.refl (t : State) : RomTwin t t := ⟨t.rom, rfl, fun _ _ => rfl⟩

theorem romTwin_of_notFound {t : State} (rom : Vector Byte 8) (h : t.found = false) : RomTwin t (t.withRom rom) :=
  ⟨rom, rfl, fun _ hf => by rw [h] at hf; cases hf⟩

theorem romTwin_of_hung {t : State} (rom : Vector Byte 8) (h : t.hung = true) : RomTwin t (t.withRom rom) :=
  ⟨rom, rfl, fun hh => by rw [h] at hh; cases hh⟩

/-- A row over the same answers, from two `ROM`s, is related when what follows each answer is. -/
theorem onAnswer_romTwin {α : Type} (f : Adapter → Res Adapter α) (e : Option α → LinkEvent) {g g' : α → State → State}
    {s : State} {rom : Vector Byte 8}
    (hok : ∀ v ad, RomTwin (g v (s.afterLink ad (e (some v)))) (g' v ((s.afterLink ad (e (some v))).withRom rom))) :
    RomTwin (onAnswer (linkRequest f e s) g) (onAnswer (linkRequest f e (s.withRom rom)) g') := by
  refine onAnswer_related (A := Eq) (f := f) (f' := f) (.refl (f s.adapter)) ?ok ?raised ?hung
  case ok => rintro v ad _ rfl; exact hok v ad
  case raised => rintro ad _ rfl; exact romTwin_of_notFound rom rfl
  case hung => rintro ad _ rfl; exact romTwin_of_hung rom rfl

/-- With `LD` 0 no direction is taken from `ROM` (R146). -/
theorem direction_zero (i : BitIndex) (rom : Vector Byte 8) : direction 0 i rom = (i == 0) := by
  simp [direction]

/-- Two codes with the same 64 bits are the same. -/
theorem rom_ext {rom rom' : Vector Byte 8} (h : ∀ k : BitIndex, 1 ≤ k → k ≤ 64 → getBit rom k = getBit rom' k) :
    rom = rom' := by
  ext byte hbyte bit hbit
  have hk : (BitVec.ofNat 7 (8 * byte + bit + 1)).toNat = 8 * byte + bit + 1 := by simp; omega
  have h1 : (1 : BitIndex) ≤ BitVec.ofNat 7 (8 * byte + bit + 1) := by rw [BitVec.le_def, hk]; simp
  have h64 : BitVec.ofNat 7 (8 * byte + bit + 1) ≤ (64 : BitIndex) := by rw [BitVec.le_def, hk]; simp; omega
  have hget := h _ h1 h64
  rw [getBit_eq_getLsbD rom h1, getBit_eq_getLsbD rom' h1, hk, show (8 * byte + bit + 1 - 1) / 8 = byte by omega,
    show (8 * byte + bit + 1 - 1) % 8 = bit by omega, romByte_eq_getElem _ hbyte, romByte_eq_getElem _ hbyte] at hget
  exact hget

/-- From index `i` on, `ROM`s that agree below `i` make no difference to the listing when `LD` is 0. -/
theorem listingBits_romTwin {n : Nat} {i : BitIndex} (z : BitIndex) {s : State} {rom : Vector Byte 8}
    (h1 : 1 ≤ i) (hn : i.toNat + n = 65) (hld : s.ld = 0)
    (hrom : ∀ k : BitIndex, 1 ≤ k → k < i → getBit rom k = getBit s.rom k) :
    RomTwin (listingBits n i z s) (listingBits n i z (s.withRom rom)) := by
  induction n generalizing i z s rom with
  | zero =>
    have hi : i = 65 := BitVec.eq_of_toNat_eq hn
    have heq : rom = s.rom := rom_ext fun k hk hk64 => hrom k hk (by bv_omega)
    subst heq
    exact RomTwin.refl _
  | succ n ih =>
    have hi64 : i ≤ 64 := by rw [BitVec.le_def]; simp; omega
    have hd (r : Vector Byte 8) : direction (s.withRom r).ld i (s.withRom r).rom = (i == 0) :=
      (congrArg (direction · i r) hld).trans (direction_zero i r)
    rw [listingBits_succ, listingBits_succ, hd rom, show direction s.ld i s.rom = (i == 0) from hd s.rom]
    refine onAnswer_romTwin (triplet (i == 0)) _ fun st ad => ?_
    split
    · exact romTwin_of_notFound rom rfl
    · refine ih (rom := setBit rom i (taken st)) _ (by bv_omega) (by bv_omega) hld fun k hk hki => ?_
      show getBit (setBit rom i (taken st)) k = getBit (setBit s.rom i (taken st)) k
      by_cases hki' : k = i
      · rw [hki', getBit_setBit_same rom i _ h1 hi64, getBit_setBit_same s.rom i _ h1 hi64]
      · have hk64 : k ≤ 64 := by bv_omega
        rw [getBit_setBit_other rom i k _ h1 hi64 hk hk64 (Ne.symm hki'),
          getBit_setBit_other s.rom i k _ h1 hi64 hk hk64 (Ne.symm hki')]
        exact hrom k hk (by bv_omega)

/-- With `LD` 0 and `LDF` clear the listing from two `ROM`s asks the same, and finds the same code or none. -/
theorem listingSearch_romTwin {s : State} (a : Bool) (rom : Vector Byte 8) (hldf : s.ldf = false) (hld : s.ld = 0) :
    RomTwin (listingSearch a s) (listingSearch a (s.withRom rom)) := by
  rw [listingSearch_of_clear a hldf, listingSearch_of_clear (s := s.withRom rom) a hldf]
  refine onAnswer_romTwin busReset _ fun r ad => ?_
  split
  · refine onAnswer_romTwin (writeByte _) _ fun _ ad => ?_
    exact listingBits_romTwin 0 (by decide) rfl hld fun k hk1 hk => by bv_omega
  · exact romTwin_of_notFound rom rfl

/-- A search from two `ROM`s ends in the same block but for `ROM`, and in the same block when it found a code. -/
theorem search_withRom {s : State} (a : Bool) (rom : Vector Byte 8) (hs : s.hung = false) (hldf : s.ldf = false)
    (hld : s.ld = 0) :
    (∃ rom', SameBlock ((search a s).withRom rom') (search a (s.withRom rom))) ∧
      ((search a s).hung = false → (search a s).found = true → SameBlock (search a s) (search a (s.withRom rom))) := by
  have hlist := search_refines a hs
  have hlist' := (search_refines (s := s.withRom rom) a hs).symm
  obtain ⟨rom', htwin, hcode⟩ := listingSearch_romTwin a rom hldf hld
  refine ⟨⟨rom', ?_⟩, fun hh hf => ?_⟩
  · rw [htwin] at hlist'
    exact (hlist.update (State.withRom rom') fun _ => rfl).trans hlist'
  · rw [hcode ((hlist.value State.hung fun _ => rfl).symm.trans hh)
      ((hlist.value State.found fun _ => rfl).symm.trans hf)] at hlist'
    exact hlist.trans hlist'

/-- Settles O43: after the session reset the two states differ in `ROM` only, and the listing, beside itself, keeps them
so until the 64 bits are the same. -/
theorem beginIgnoresWhatWasLeft : Obligations.BeginIgnoresWhatWasLeft := by
  intro s t t' rom ld lfd ldf faulted h h'
  have ht : search false s.beginSession = t := by cases h; rfl
  have ht' : search false (s.beginSession.withRom rom) = t' := by cases h'; rfl
  rcases Bool.eq_false_or_eq_true s.hung with hs | hs
  · rw [search_of_hung (s := s.beginSession) false hs rfl] at ht
    rw [search_of_hung (s := s.beginSession.withRom rom) false hs rfl] at ht'
    subst ht ht'
    exact ⟨rfl, rfl, rfl, fun hn => by rw [hs] at hn; cases hn⟩
  · obtain ⟨⟨rom', hblock⟩, hcode⟩ := search_withRom (s := s.beginSession) false rom hs rfl rfl
    rw [ht, ht'] at hblock hcode
    exact ⟨hblock.value State.adapter fun _ => rfl, hblock.value State.linkLog fun _ => rfl,
      hblock.value State.hung fun _ => rfl, fun _ hh =>
      ⟨hblock.value State.found fun _ => rfl, hblock.value State.cause fun _ => rfl, hblock.ld,
        hblock.value State.lfd fun _ => rfl, hblock.value State.ldf fun _ => rfl,
        fun hf => (hcode hh hf).value State.view fun _ => rfl⟩⟩

end Sys2Proof.Machine
end

section
/-! PROOFS. The alarm search beside the normal one (R162): the command byte reaches the record of channel accesses and
nothing else, and no operation of the adapter reads that record. -/

namespace Sys2Proof.Machine

/-! Adapters that differ in the record of accesses. -/

/-- The adapter with `log` as its record of accesses. -/
def Adapter.withLog (log : List ChanAccess) (a : Adapter) : Adapter := { a with chanLog := log }

/-- The two adapters differ at most in their records of accesses. -/
def LogTwin (a a' : Adapter) : Prop := ∃ log, a' = a.withLog log

/-- The two operations end alike on adapters that differ in their records, and leave such adapters. -/
def EndAlike {α : Type} (f f' : Adapter → Res Adapter α) : Prop :=
  ∀ a a', LogTwin a a' → Res.Related LogTwin (f a) (f' a')

theorem EndAlike.bind {α β : Type} {f f' : Adapter → Res Adapter α} {g g' : α → Adapter → Res Adapter β}
    (hf : EndAlike f f') (hg : ∀ v, EndAlike (g v) (g' v)) :
    EndAlike (fun a => (f a).bind g) fun a => (f' a).bind g' :=
  fun a a' h => (hf a a' h).bind hg

theorem EndAlike.value {α : Type} (v : α) : EndAlike (fun a => .ok v a) fun a => .ok v a := fun _ _ h => .ok v h

theorem call_endAlike (acc acc' : ChanAccess) : EndAlike (Adapter.call acc) (Adapter.call acc') := by
  rintro a _ ⟨log, rfl⟩
  have hnext : (a.withLog log).nextAnswer = (a.nextAnswer.1, a.nextAnswer.2.withLog log) := by
    have hscript : (a.withLog log).script = a.script := rfl
    unfold Adapter.nextAnswer
    rw [hscript]
    cases a.script <;> rfl
  unfold Adapter.call
  rw [hnext]
  obtain ⟨answer, b⟩ := a.nextAnswer
  cases answer
  · exact .ok _ ⟨_, rfl⟩
  · exact .raised ⟨_, rfl⟩
  · exact .hung ⟨_, rfl⟩

/-- Two writes end alike when the bridge's registers follow them alike. -/
theorem chanWrite_endAlike {bytes bytes' : List Byte}
    (hb : ∀ cfg n b, Bridge.afterWrite cfg n bytes b = Bridge.afterWrite cfg n bytes' b) :
    EndAlike (chanWrite bytes) (chanWrite bytes') := by
  rintro a _ ⟨log, rfl⟩
  have hopen : (a.withLog log).chanOpen = a.chanOpen := rfl
  have hcall := call_endAlike (.write bytes) (.write bytes') a (a.withLog log) ⟨log, rfl⟩
  have hfailed (b : Adapter) (l : List ChanAccess) :
      (b.withLog l).afterFailedWrite bytes' = (b.afterFailedWrite bytes).withLog l := by
    unfold Adapter.afterFailedWrite Bridge.afterFailedWrite
    simp only [hb]
    rfl
  unfold chanWrite
  rw [hopen]
  split
  · generalize a.call (.write bytes) = r, (a.withLog log).call (.write bytes') = r' at hcall
    cases hcall with
    | ok v h => obtain ⟨l, rfl⟩ := h; exact .ok () ⟨l, by rw [hb]; rfl⟩
    | raised h => obtain ⟨l, rfl⟩ := h; exact .raised ⟨l, hfailed _ l⟩
    | hung h => obtain ⟨l, rfl⟩ := h; exact .hung ⟨l, hfailed _ l⟩
  · exact .raised ⟨log, rfl⟩

theorem statusRead_endAlike : EndAlike statusRead statusRead := by
  have haccess : EndAlike (Adapter.access .read) (Adapter.access .read) := by
    rintro a _ ⟨log, rfl⟩
    have hopen : (a.withLog log).chanOpen = a.chanOpen := rfl
    unfold Adapter.access
    rw [hopen]
    split
    · exact call_endAlike _ _ _ _ ⟨log, rfl⟩
    · exact .raised ⟨log, rfl⟩
  exact haccess.bind fun v => by
    rintro a _ ⟨log, rfl⟩
    exact .ok v ⟨log, rfl⟩

theorem pollReads_endAlike (n : Nat) : EndAlike (pollReads n) (pollReads n) := by
  induction n with
  | zero => exact .value none
  | succ n ih =>
    refine statusRead_endAlike.bind fun v => ?_
    split
    · exact ih
    · exact .value (some v)

theorem resetBridge_endAlike : EndAlike resetBridge resetBridge :=
  (chanWrite_endAlike fun _ _ _ => rfl).bind fun _ => (pollReads_endAlike _).bind fun r => by
    cases r <;> exact .value _

theorem polledCommand_endAlike {bytes bytes' : List Byte}
    (hb : ∀ cfg n b, Bridge.afterWrite cfg n bytes b = Bridge.afterWrite cfg n bytes' b) :
    EndAlike (polledCommand bytes) (polledCommand bytes') :=
  (chanWrite_endAlike hb).bind fun _ => (pollReads_endAlike _).bind fun r => by
    cases r
    · exact resetBridge_endAlike.bind fun _ => .value none
    · exact .value _

theorem busReset_endAlike : EndAlike busReset busReset :=
  (polledCommand_endAlike fun _ _ _ => rfl).bind fun _ => .value _

/-- Which byte a 1-Wire write sends, the bridge's registers do not show. -/
theorem writeByte_endAlike (v v' : Byte) : EndAlike (writeByte v) (writeByte v') :=
  (polledCommand_endAlike (bytes := [0xA5, v]) (bytes' := [0xA5, v']) fun _ _ _ => rfl).bind fun _ => .value _

theorem triplet_endAlike (d : Bool) : EndAlike (triplet d) (triplet d) :=
  (polledCommand_endAlike fun _ _ _ => rfl).bind fun _ => .value _

/-! The two variants. -/

/-- The state with other records: of channel accesses and of link requests. -/
def State.withRecords (accesses : List ChanAccess) (requests : List LinkEvent) (s : State) : State :=
  { s with adapter := s.adapter.withLog accesses, linkLog := requests }

/-- In a normal search (`t`) and an alarm search (`t'`) of `s`: the same but for the records, and the requests the same
but for the command byte. -/
def AlarmTwin (s t t' : State) : Prop :=
  (∃ accesses requests, t' = t.withRecords accesses requests) ∧
    ∃ events, LinkRequests s t' events ∧ LinkRequests s t (events.map withoutAlarm)

theorem AlarmTwin.refl (s : State) : AlarmTwin s s s := ⟨⟨_, _, rfl⟩, [], rfl, rfl⟩

theorem AlarmTwin.rom {s t t' : State} (h : AlarmTwin s t t') : t.rom = t'.rom := by
  obtain ⟨⟨c, l, rfl⟩, -⟩ := h
  rfl

theorem AlarmTwin.ld {s t t' : State} (h : AlarmTwin s t t') : t.ld = t'.ld := by
  obtain ⟨⟨c, l, rfl⟩, -⟩ := h
  rfl

theorem AlarmTwin.adapter {s t t' : State} (h : AlarmTwin s t t') : LogTwin t.adapter t'.adapter := by
  obtain ⟨⟨c, l, rfl⟩, -⟩ := h
  exact ⟨c, rfl⟩

/-- A change of the block that neither reads nor writes the records keeps the twins. -/
theorem AlarmTwin.update {s t t' : State} (h : AlarmTwin s t t') (f : State → State)
    (hrecords : ∀ u c l, f (u.withRecords c l) = (f u).withRecords c l) (hlog : ∀ u, (f u).linkLog = u.linkLog) :
    AlarmTwin s (f t) (f t') := by
  obtain ⟨⟨c, l, rfl⟩, events, hevents', hevents⟩ := h
  exact ⟨⟨c, l, hrecords t c l⟩, events, (hlog _).trans hevents', (hlog _).trans hevents⟩

theorem AlarmTwin.failure {s t t' : State} (h : AlarmTwin s t t') (k : FailureKind) (c : Cause) :
    AlarmTwin s (t.enterFailure k c) (t'.enterFailure k c) :=
  h.update (State.enterFailure k c) (fun _ _ _ => by cases k <;> rfl) fun _ => by cases k <;> rfl

theorem AlarmTwin.hang {s t t' : State} (h : AlarmTwin s t t') :
    AlarmTwin s { t with hung := true } { t' with hung := true } :=
  h.update (fun u => { u with hung := true }) (fun _ _ _ => rfl) fun _ => rfl

theorem AlarmTwin.afterLink {s t t' : State} {a a' : Adapter} {e e' : LinkEvent} (h : AlarmTwin s t t')
    (ha : LogTwin a a') (he : withoutAlarm e' = e) : AlarmTwin s (t.afterLink a e) (t'.afterLink a' e') := by
  obtain ⟨⟨c, l, rfl⟩, events, hevents', hevents⟩ := h
  obtain ⟨log, rfl⟩ := ha
  refine ⟨⟨log, e' :: l, rfl⟩, events ++ [e'], ?_, ?_⟩
  · simp only [LinkRequests, State.afterLink_linkLog] at hevents' ⊢
    simp [hevents']
  · simp only [LinkRequests, State.afterLink_linkLog] at hevents ⊢
    simp [hevents, he]

/-- A row of the two variants is alike when the requests end alike and what follows each answer is alike. -/
theorem onAnswer_alarmTwin {α : Type} {f f' : Adapter → Res Adapter α} {e e' : Option α → LinkEvent}
    {g g' : α → State → State} {s t t' : State} (h : AlarmTwin s t t') (hf : EndAlike f f')
    (he : ∀ r, withoutAlarm (e' r) = e r) (hg : ∀ v u u', AlarmTwin s u u' → AlarmTwin s (g v u) (g' v u')) :
    AlarmTwin s (onAnswer (linkRequest f e t) g) (onAnswer (linkRequest f' e' t') g') :=
  onAnswer_related (hf _ _ h.adapter) (fun v _ _ ha => hg v _ _ (h.afterLink ha (he _)))
    (fun _ _ ha => (h.afterLink ha (he _)).failure _ _) fun _ _ ha => (h.afterLink ha (he _)).hang

theorem listingCheck_alarmTwin {s t t' : State} (z : BitIndex) (h : AlarmTwin s t t') :
    AlarmTwin s (listingCheck z t) (listingCheck z t') := by
  have hrom := h.rom
  cases hc : romCrcOk t.rom with
  | false =>
    rw [listingCheck_of_mismatch z hc, listingCheck_of_mismatch z (hrom ▸ hc)]
    exact h.failure _ _
  | true =>
    cases hz : romAllZero t.rom with
    | true =>
      rw [listingCheck_of_allZero z hc hz, listingCheck_of_allZero z (hrom ▸ hc) (hrom ▸ hz)]
      exact h.failure _ _
    | false =>
      rw [listingCheck_of_code z hc hz, listingCheck_of_code z (hrom ▸ hc) (hrom ▸ hz)]
      exact h.update (fun u => { u with ld := z, ldf := z == 0, found := true, cause := 0 }) (fun _ _ _ => rfl)
        fun _ => rfl

theorem listingBits_alarmTwin {s t t' : State} (n : Nat) (i z : BitIndex) (h : AlarmTwin s t t') :
    AlarmTwin s (listingBits n i z t) (listingBits n i z t') := by
  induction n generalizing i z t t' with
  | zero => exact listingCheck_alarmTwin z h
  | succ n ih =>
    rw [listingBits_succ, listingBits_succ, ← h.rom, ← h.ld]
    refine onAnswer_alarmTwin h (triplet_endAlike _) (fun _ => rfl) fun st u u' hu => ?_
    split
    · exact hu.failure _ _
    · exact ih _ _ (hu.update (State.takeBit i st) (fun _ _ _ => rfl) fun _ => rfl)

/-- The two variants over the same answers, as the listing has them. -/
theorem listingSearch_alarmTwin {s : State} (hldf : s.ldf = false) :
    AlarmTwin s (listingSearch false s) (listingSearch true s) := by
  rw [listingSearch_of_clear false hldf, listingSearch_of_clear true hldf]
  refine onAnswer_alarmTwin (.refl s) busReset_endAlike (fun _ => rfl) fun r u u' hu => ?_
  split
  · exact onAnswer_alarmTwin hu (writeByte_endAlike _ _) (fun _ => rfl) fun _ _ _ hu => listingBits_alarmTwin 64 1 0 hu
  · exact hu.failure _ _

/-- Settles O44: a search that makes no request is the same in both variants; any other is the listing, whose variants
are twins. -/
theorem alarmVariantDiffersInOneByte : Obligations.AlarmVariantDiffersInOneByte := by
  intro s t t' h h'
  have ht : search false s = t := by cases h; rfl
  have ht' : search true s = t' := by cases h'; rfl
  cases hldf : s.ldf with
  | true =>
    rw [search_lastDevice s _ hldf] at ht ht'
    subst ht ht'
    exact ⟨rfl, rfl, rfl, rfl, rfl, [], rfl, rfl⟩
  | false =>
    rcases Bool.eq_false_or_eq_true s.hung with hs | hs
    · rw [search_of_hung _ hs hldf] at ht ht'
      subst ht ht'
      exact ⟨rfl, rfl, rfl, rfl, rfl, [], rfl, rfl⟩
    · have hlist := search_refines false hs
      have hlist' := search_refines true hs
      obtain ⟨⟨c, l, htwin⟩, events, hevents', hevents⟩ := listingSearch_alarmTwin hldf
      rw [ht] at hlist
      rw [ht'] at hlist'
      have hblock : SameBlock (t.withRecords c l) t' := by
        rw [htwin] at hlist'
        exact (hlist.update (State.withRecords c l) fun _ => rfl).trans hlist'.symm
      exact ⟨hblock.value State.view fun _ => rfl, hblock.value State.hung fun _ => rfl,
        hblock.value State.faulted fun _ => rfl, hblock.value (·.adapter.script) fun _ => rfl,
        hblock.value (·.adapter.draws) fun _ => rfl, events, (hlist'.value State.linkLog fun _ => rfl).trans hevents',
        (hlist.value State.linkLog fun _ => rfl).trans hevents⟩

end Sys2Proof.Machine
end

section
/-! PROOFS. A search over answers that all complete at their first read (R140 to R153, R158): the listing stores the 64
bits and comes to its check. -/

namespace Sys2Proof.Machine

/-! One polled command. -/

/-- A polled command whose first status read is not busy gives that status and uses two answers. -/
theorem polledCommand_firstRead (bytes : List Byte) {a : Adapter} {x st : Byte} {rest : List ChanAnswer}
    (ho : a.chanOpen = true) (hs : a.script = .done x :: .done st :: rest) (hst : busy st = false) :
    ∃ ad, polledCommand bytes a = .ok (some st) ad ∧ ad.script = rest ∧ ad.chanOpen = true :=
  ⟨_, polledCommand_completes bytes a x [] st rest ho hs ⟨by simp, nofun, hst⟩, rfl, ho⟩

theorem busReset_firstRead {a : Adapter} {x st : Byte} {rest : List ChanAnswer} (ho : a.chanOpen = true)
    (hs : a.script = .done x :: .done st :: rest) (hst : busy st = false) :
    ∃ ad, busReset a = .ok (classifyBusReset st) ad ∧ ad.script = rest ∧ ad.chanOpen = true := by
  obtain ⟨ad, h, had⟩ := polledCommand_firstRead [0xB4] ho hs hst
  exact ⟨ad, by rw [busReset, h]; rfl, had⟩

theorem writeByte_firstRead (v : Byte) {a : Adapter} {x st : Byte} {rest : List ChanAnswer} (ho : a.chanOpen = true)
    (hs : a.script = .done x :: .done st :: rest) (hst : busy st = false) :
    ∃ ad, writeByte v a = .ok () ad ∧ ad.script = rest ∧ ad.chanOpen = true := by
  obtain ⟨ad, h, had⟩ := polledCommand_firstRead [0xA5, v] ho hs hst
  exact ⟨ad, by rw [writeByte, h]; rfl, had⟩

theorem triplet_firstRead (d : Bool) {a : Adapter} {x st : Byte} {rest : List ChanAnswer} (ho : a.chanOpen = true)
    (hs : a.script = .done x :: .done st :: rest) (hst : busy st = false) :
    ∃ ad, triplet d a = .ok st ad ∧ ad.script = rest ∧ ad.chanOpen = true := by
  obtain ⟨ad, h, had⟩ := polledCommand_firstRead [0x78, encodeDirection d] ho hs hst
  exact ⟨ad, by rw [triplet, tripletByte, h]; rfl, had⟩

/-! The listing. -/

/-- One more bit stored as taken (R150). -/
theorem RomIsTaken.snoc {sts : List Byte} {rom : Vector Byte 8} (h : RomIsTaken sts rom) (hn : sts.length < 64)
    (st : Byte) : RomIsTaken (sts ++ [st]) (setBit rom (BitVec.ofNat 7 (sts.length + 1)) (taken st)) := by
  intro k x hk
  obtain ⟨hi1, hi64⟩ := ofNat7_range hn
  rcases getElem?_snoc _ _ _ _ hk with ⟨hlt, hx⟩ | ⟨rfl, rfl⟩
  · obtain ⟨hk1, hk64⟩ := ofNat7_range (hlt.trans hn)
    have hne : BitVec.ofNat 7 (sts.length + 1) ≠ BitVec.ofNat 7 (k + 1) := fun he =>
      hlt.ne (ofNat7_inj hn (hlt.trans hn) he).symm
    rw [getBit_setBit_other rom _ _ _ hi1 hi64 hk1 hk64 hne]
    exact h k x hx
  · exact getBit_setBit_same rom _ _ hi1 hi64

/-- After the triplets `done`, clean answers `sts` for the indices to go lead to the check, with every bit stored. -/
theorem listingBits_clean (sts : List Byte) {done : List Byte} {z : BitIndex} {s : State} {rest : List ChanAnswer}
    (hlen : done.length + sts.length = 64) (hclean : ∀ st ∈ sts, busy st = false ∧ noResponse st = false)
    (ho : s.adapter.chanOpen = true)
    (hs : s.adapter.script = (sts.flatMap fun st => [.done 0, .done st]) ++ rest)
    (hrom : RomIsTaken done s.rom) (hz : HighestZero done z) :
    ∃ z' u, listingBits sts.length (BitVec.ofNat 7 (done.length + 1)) z s = listingCheck z' u ∧ u.hung = s.hung ∧
      u.adapter.script = rest ∧ RomIsTaken (done ++ sts) u.rom ∧ HighestZero (done ++ sts) z' := by
  induction sts generalizing done z s with
  | nil => exact ⟨z, s, rfl, rfl, hs, by rwa [List.append_nil], by rwa [List.append_nil]⟩
  | cons st sts ih =>
    obtain ⟨hbusy, hst⟩ := hclean st List.mem_cons_self
    have hlt : done.length < 64 := by rw [List.length_cons] at hlen; omega
    have hnext : BitVec.ofNat 7 (done.length + 1) + 1 = BitVec.ofNat 7 ((done ++ [st]).length + 1) := by
      rw [List.length_append, List.length_singleton]
      exact (BitVec.ofNat_add (done.length + 1) 1).symm
    rw [List.length_cons, listingBits_succ, List.append_cons]
    generalize direction s.ld _ s.rom = d
    obtain ⟨ad, hr, hrest, ho'⟩ := triplet_firstRead d ho hs hbusy
    rw [linkTriplet, onAnswer_of_ok hr, if_neg (Bool.eq_false_iff.1 hst), hnext]
    exact ih (s := (s.afterLink ad (.triplet d (some st))).takeBit (BitVec.ofNat 7 (done.length + 1)) st)
      (by simp at hlen ⊢; omega) (fun x hx => hclean x (List.mem_cons_of_mem _ hx)) ho' hrest
      (hrom.snoc hlt st) (hz.snoc st)

/-- A presence pulse, a completed command byte and 64 clean answers lead the listing to its check. -/
theorem listingSearch_clean {s : State} (a : Bool) {r w : Byte} {sts : List Byte} {rest : List ChanAnswer}
    (hldf : s.ldf = false) (ho : s.adapter.chanOpen = true) (hs : s.adapter.script = searchAnswers r w sts ++ rest)
    (hr : busy r = false) (hpresence : presencePulse r = true) (hw : busy w = false) (hsts : CleanStatuses sts) :
    ∃ z u, listingSearch a s = listingCheck z u ∧ u.hung = s.hung ∧ u.adapter.script = rest ∧
      RomIsTaken sts u.rom ∧ HighestZero sts z := by
  obtain ⟨hlen, hclean⟩ := hsts
  obtain ⟨ad, hreset, hscript, ho⟩ := busReset_firstRead ho hs hr
  rw [classifyBusReset, if_pos hpresence] at hreset
  rw [listingSearch_of_clear a hldf, linkBusReset, onAnswer_of_ok hreset, if_pos rfl]
  obtain ⟨ad', hcmd, hscript', ho'⟩ := writeByte_firstRead (searchCommandByte a) ho hscript hw
  rw [linkWriteByte, onAnswer_of_ok (s := s.afterLink ad _) hcmd, ← hlen]
  exact listingBits_clean sts (done := []) (by simpa using hlen) hclean ho' hscript' (fun k st h => by simp at h)
    (.inl ⟨rfl, by simp⟩)

/-! The check at the end. -/

/-- The check leaves the adapter, `ROM` and the mark of a hang. -/
theorem listingCheck_keeps (z : BitIndex) (s : State) :
    (listingCheck z s).adapter = s.adapter ∧ (listingCheck z s).rom = s.rom ∧ (listingCheck z s).hung = s.hung := by
  unfold listingCheck
  split
  · exact ⟨rfl, rfl, rfl⟩
  · split <;> exact ⟨rfl, rfl, rfl⟩

/-- A search command that may run, as a search entered with `LDF` clear. -/
theorem exec_search {s : State} {i : Instr}
    (hi : i = .srchBegin ∨ s.ldf = false ∧ (i = .srchCont ∨ ∃ a, i = .srchSearch a)) :
    ∃ a s1, exec i s = .next (search a s1) ∧ s1.hung = s.hung ∧ s1.adapter = s.adapter ∧ s1.ldf = false := by
  rcases hi with rfl | ⟨hldf, rfl | ⟨a, rfl⟩⟩
  · exact ⟨false, s.beginSession, rfl, rfl, rfl, rfl⟩
  · exact ⟨false, s, rfl, rfl, rfl, hldf⟩
  · exact ⟨a, s, rfl, rfl, rfl, hldf⟩

/-- Settles O46: the search is the listing, which comes to its check with every bit stored; the check has three ends. -/
theorem searchOverCleanAnswersCompletes : Obligations.SearchOverCleanAnswersCompletes := by
  intro s r w sts rest i hs ho hscript hr hpresence hw hsts hi
  obtain ⟨a, s1, hexec, hs1, had, hldf⟩ := exec_search hi
  rw [← hs1] at hs
  rw [← had] at ho hscript
  obtain ⟨z, u, hlisting, hu, hrest, hrom, hz⟩ := listingSearch_clean a hldf ho hscript hr hpresence hw hsts
  have hblock := search_refines a hs
  rw [hlisting] at hblock
  obtain ⟨hadapter, hromKept, hhung⟩ := listingCheck_keeps z u
  have hth : (search a s1).hung = false := (hblock.value State.hung fun _ => rfl).trans (hhung.trans (hu.trans hs))
  have htr : (search a s1).rom = u.rom := hblock.rom.trans hromKept
  have hcrc := romCrcOk_iff u.rom
  have hzero := romAllZero_iff u.rom
  refine ⟨_, hexec, hth, (search_over s1 a hs hldf).idle hth, by rw [hblock.adapter, hadapter, hrest], by rwa [htr], ?_⟩
  rw [htr]
  refine ⟨fun hm ⟨k, hk, hne⟩ => ?code, fun hm => ?mismatch, fun hm h0 => ?allZero⟩
  case code =>
    rw [listingCheck_of_code z (hcrc.2 hm) (Bool.eq_false_iff.2 fun h0 => hne (hzero.1 h0 k hk))] at hblock
    have hld : (search a s1).ld = z := hblock.ld
    refine ⟨hblock.value State.found fun _ => rfl, hblock.value State.cause fun _ => rfl, by rwa [hld], ?_⟩
    rw [hld]
    exact (hblock.value State.ldf fun _ => rfl).trans (Bool.beq_eq_decide_eq z 0)
  case mismatch =>
    rw [listingCheck_of_mismatch z (Bool.eq_false_iff.2 (mt hcrc.1 hm))] at hblock
    exact ⟨hblock.value State.found fun _ => rfl, hblock.value State.cause fun _ => rfl⟩
  case allZero =>
    rw [listingCheck_of_allZero z (hcrc.2 hm) (hzero.2 h0)] at hblock
    exact ⟨hblock.value State.found fun _ => rfl, hblock.value State.cause fun _ => rfl⟩

end Sys2Proof.Machine
end

section
/-! PROOFS. The CRC function (R180 to R188): the shifts as the serial register, what tells two registers and two codes
apart, and the range of a computation. -/

namespace Sys2Proof.Machine

/-! The shifts (R181). -/

/-- The shift undone: the top bit tells whether the constant was added, and so what the bit shifted out was. -/
def crcUnshift (r : Byte) : Byte := if r.getLsbD 7 then ((r ^^^ Config.crcReflected) <<< 1) ||| 1 else r <<< 1

theorem crcUnshift_crcShift : ∀ r, crcUnshift (crcShift r) = r := by decide +kernel

theorem crcShift_injective : Function.Injective crcShift := Function.LeftInverse.injective crcUnshift_crcShift

theorem crcShifts_injective (n : Nat) : Function.Injective (crcShifts n) := by
  induction n with
  | zero => exact fun _ _ h => h
  | succ n ih => exact ih.comp crcShift_injective

/-- The last shift taken off the other end. -/
theorem crcShifts_succ (n : Nat) (r : Byte) : crcShifts (n + 1) r = crcShift (crcShifts n r) := by
  induction n generalizing r with
  | zero => rfl
  | succ n ih => exact ih (crcShift r)

theorem tableEntry_zero : tableEntry 0 = 0 := by decide

/-! The serial form (R187). -/

/-- The bits still to come stand xored into the register of the table form; a serial step meets the lowest of them. -/
theorem serialStep_xor (r byte : Byte) (k : Nat) :
    serialStep (r ^^^ byte >>> k) (byte.getLsbD k) = crcShift r ^^^ byte >>> (k + 1) := by
  have hlow : ((r ^^^ byte >>> k).getLsbD 0 ^^ byte.getLsbD k) = r.getLsbD 0 := by simp
  have hshift : (r ^^^ byte >>> k) >>> 1 = r >>> 1 ^^^ byte >>> (k + 1) := by
    rw [BitVec.ushiftRight_xor_distrib, BitVec.shiftRight_add]
  rw [serialStep, crcShift, hlow, hshift]
  split
  · rw [BitVec.xor_assoc, BitVec.xor_comm (byte >>> (k + 1)), BitVec.xor_assoc]
  · rfl

/-- After `k` serial steps the register is `k` shifts of `seed ^^^ byte`, but for the bits still to come. -/
theorem serialSteps_eq (seed byte : Byte) (k : Nat) :
    (List.range k).foldl (fun c j => serialStep c (byte.getLsbD j)) seed =
      crcShifts k (seed ^^^ byte) ^^^ byte >>> k := by
  induction k with
  | zero => simp [crcShifts]
  | succ k ih => rw [List.range_succ, List.foldl_concat, ih, serialStep_xor, crcShifts_succ]

/-- Settles O16: after eight steps no bit is still to come. -/
theorem foldEqualsBitSerialForm : Obligations.FoldEqualsBitSerialForm := by
  intro seed byte
  have hnone : byte >>> 8 = 0 := BitVec.ushiftRight_eq_zero (Nat.le_refl 8)
  rw [foldSerial, serialSteps_eq, hnone, fold_eq_tableEntry, tableEntry]
  exact (BitVec.xor_zero).symm

/-! The table (R182). -/

/-- Settles O15: the values are computed; none occurs twice, because the shifts are injective. -/
theorem crcTableIsAsPrinted : Obligations.CrcTableIsAsPrinted := by
  refine ⟨by decide +kernel, List.nodup_range.map_on fun m hm n hn h => ?_⟩
  have hbyte : BitVec.ofNat 8 m = BitVec.ofNat 8 n := crcShifts_injective 8 h
  rw [List.mem_range] at hm hn
  simpa [Nat.mod_eq_of_lt hm, Nat.mod_eq_of_lt hn] using congrArg BitVec.toNat hbyte

/-! One byte and a run of bytes folded in (R183, R184). -/

theorem fold_self (c : Byte) : fold c c = 0 := by
  rw [fold_eq_tableEntry, BitVec.xor_self]
  exact tableEntry_zero

theorem fold_seed_injective (byte : Byte) : Function.Injective fun seed => fold seed byte := by
  intro x y h
  simp only [fold_eq_tableEntry] at h
  exact (BitVec.xor_left_inj byte).1 (crcShifts_injective 8 h)

theorem fold_byte_injective (seed : Byte) : Function.Injective (fold seed) := by
  intro x y h
  simp only [fold_eq_tableEntry] at h
  exact (BitVec.xor_right_inj seed).1 (crcShifts_injective 8 h)

theorem foldBytes_seed_injective (x : List Byte) : Function.Injective fun seed => foldBytes seed x := by
  induction x with
  | nil => exact fun _ _ h => h
  | cons b x ih => exact ih.comp (fold_seed_injective b)

/-- A byte replaced by another gives another register, whatever follows it. -/
theorem foldBytes_set_ne {x : List Byte} {k : Nat} {b v : Byte} (seed : Byte) (hk : x[k]? = some b) (hv : v ≠ b) :
    foldBytes seed (x.set k v) ≠ foldBytes seed x := by
  induction x generalizing k seed with
  | nil => simp at hk
  | cons c x ih =>
    cases k with
    | zero =>
      cases hk
      exact fun h => hv (fold_byte_injective seed (foldBytes_seed_injective x h))
    | succ k => exact ih (fold seed c) hk

theorem foldBytes_zeros (n : Nat) : foldBytes 0 (List.replicate n 0) = 0 := by
  induction n with
  | zero => rfl
  | succ n ih =>
    have hfold : foldBytes 0 (List.replicate (n + 1) 0) = foldBytes (fold 0 0) (List.replicate n 0) := rfl
    rw [hfold, fold_self, ih]

/-- The register after one more byte is zero exactly when the byte is the register before it. -/
theorem foldBytes_concat_eq_zero (seed : Byte) (x : List Byte) (b : Byte) :
    foldBytes seed (x ++ [b]) = 0 ↔ foldBytes seed x = b := by
  rw [foldBytes_append, ← fold_self b]
  exact (fold_seed_injective b).eq_iff

/-! The range of a computation (R184). -/

theorem compute_eq_none_iff (buf : List Byte) (off len : Nat) (seed : Byte) :
    compute buf off len seed = none ↔ buf.length < off + len := by
  simp [compute]

theorem compute_of_le {buf : List Byte} {off len : Nat} (h : off + len ≤ buf.length) (seed : Byte) :
    compute buf off len seed = some (foldBytes seed ((buf.drop off).take len)) := if_neg (Nat.not_lt.2 h)

theorem compute_all (x : List Byte) (seed : Byte) : compute x 0 x.length seed = some (foldBytes seed x) := by
  rw [compute_of_le (Nat.zero_add _).le, List.drop_zero, List.take_length]

theorem compute_succ {buf : List Byte} {off len : Nat} {b : Byte} (h : off + len < buf.length)
    (hb : buf[off]? = some b) (seed : Byte) :
    compute buf off (len + 1) seed = compute buf (off + 1) len (fold seed b) := by
  obtain ⟨hoff, rfl⟩ := List.getElem?_eq_some_iff.1 hb
  rw [compute_of_le (by omega), compute_of_le (by omega), List.drop_eq_getElem_cons hoff]
  rfl

theorem compute_append (x y : List Byte) (seed : Byte) :
    compute (x ++ y) 0 (x.length + y.length) seed =
      (compute x 0 x.length seed).bind fun c => compute y 0 y.length c := by
  rw [← List.length_append, compute_all, compute_all, Option.bind_some, compute_all, foldBytes_append]

theorem compute_zeros (n : Nat) : compute (List.replicate n 0) 0 n 0 = some 0 := by
  have h := compute_all (List.replicate n 0) 0
  rwa [List.length_replicate, foldBytes_zeros] at h

/-- Settles O17: the range, the empty run, the next byte, the next run and the zero bytes, each by its law. -/
theorem computeFoldsSequentially : Obligations.ComputeFoldsSequentially :=
  ⟨compute_eq_none_iff, fun _ _ seed h => compute_of_le h seed, fun _ _ _ seed _ h hb => compute_succ h hb seed,
    compute_append, compute_zeros⟩

/-! The check byte (R188). -/

/-- A code is its first seven bytes and its check byte. -/
theorem rom_eq_take_concat (rom : Vector Byte 8) : rom.toList = rom.toList.take 7 ++ [romByte rom 7] := by
  have h7 : 7 < rom.toList.length := by simp
  rw [romByte, List.getD_eq_getElem _ _ h7, List.take_concat_get' _ _ h7, List.take_of_length_le (by simp)]

theorem compute_rom_eq_zero_iff (rom : Vector Byte 8) :
    compute rom.toList 0 8 0 = some 0 ↔ compute rom.toList 0 7 0 = some (romByte rom 7) := by
  have hall : compute rom.toList 0 8 0 = some (foldBytes 0 rom.toList) := by simpa using compute_all rom.toList 0
  have hcheck := foldBytes_concat_eq_zero 0 (rom.toList.take 7) (romByte rom 7)
  rw [← rom_eq_take_concat] at hcheck
  rwa [hall, compute_of_le (by simp), Option.some_inj, Option.some_inj, List.drop_zero]

/-- Settles O18: each part is injectivity of `fold`, in the seed or in the byte, or `fold c c = 0`. -/
theorem checkByteProperties : Obligations.CheckByteProperties :=
  ⟨fold_self, compute_rom_eq_zero_iff, compute_zeros 7,
    fun byte => Finite.injective_iff_bijective.1 (fold_seed_injective byte),
    fun _ _ _ _ _ hk hv => foldBytes_set_ne 0 hk hv⟩

end Sys2Proof.Machine
end

section
/-! PROOFS. What the CRC commands write (R190), and what the search commands leave alone. -/

namespace Sys2Proof.Machine

/-! The CRC commands. -/

theorem exec_crcCompute_outside {s : State} (h : s.adapter.cfg.bufSize < s.boff.toNat + s.blen.toNat) :
    exec .crcCompute s = .next (s.enterFailure .hardCrc .malformedInput) := congrArg Host.Outcome.next (if_pos h)

theorem exec_crcCompute_inside {s : State} (h : s.boff.toNat + s.blen.toNat ≤ s.adapter.cfg.bufSize) :
    exec .crcCompute s =
      .next { s.succeed with cres := foldBytes s.cseed (s.bufRange s.boff.toNat s.blen.toNat) } :=
  congrArg Host.Outcome.next (if_neg (Nat.not_lt.2 h))

/-- Settles O14: by the two sides of the bound; an empty range folds nothing. -/
theorem crcCommandsWriteResultAndCause : Obligations.CrcCommandsWriteResultAndCause := by
  refine ⟨fun s => rfl, fun s => exec_crcCompute_outside, fun s => exec_crcCompute_inside, fun s hlen hoff => ?_⟩
  have hlen0 : s.blen.toNat = 0 := by rw [hlen]; rfl
  rw [exec_crcCompute_inside (by rwa [hlen0]), hlen0]
  rfl

/-! The search commands. -/

/-- A search command is a search, after `SessionReset` where it begins an enumeration. -/
theorem exec_search_leaves {s t : State} {i : Instr}
    (hi : i ∈ [Instr.srchBegin, .srchSearch false, .srchSearch true, .srchCont]) (h : exec i s = .next t) :
    SearchLeaves s t := by
  have hbegin : SearchLeaves s s.beginSession := SearchLeaves.refl s
  simp only [List.mem_cons, List.not_mem_nil, or_false] at hi
  rcases hi with rfl | rfl | rfl | rfl <;> cases h
  · exact hbegin.trans (search_leaves false s.beginSession)
  all_goals exact search_leaves _ s

/-- Settles O32: a search leaves all of it, and a byte of `BUF` reads as the list and the draw say. -/
theorem searchFrame : Obligations.SearchFrame := by
  intro s t i hi h
  obtain ⟨hexcl, hcseed, hcdata, hcres, hboff, hblen, hbuf, hepoch, hreq, hout, hdraws, hsetting⟩ :=
    exec_search_leaves hi h
  have hbyte : ∀ k, t.bufByte k = s.bufByte k := fun k => by rw [State.bufByte, State.bufByte, hbuf, hepoch]
  exact ⟨hexcl, hcseed, hcdata, hcres, hboff, hblen, hbuf, hepoch, hbyte, hreq, hout, hdraws, hsetting⟩

end Sys2Proof.Machine
end

section
/-! PROOFS. Which codes are written to `CAUSE` (R200): every transition leaves it as it was or writes the code of a cause
other than PollTimeout and ChannelMismatch, which stay results of the adapter's operations. -/

namespace Sys2Proof.Machine

/-- The codes that R200 lets reach `CAUSE`. -/
def writtenCodes : List Nibble := [0x0, 0x1, 0x2, 0x3, 0x6, 0x7, 0x8, 0x9, 0xA, 0xB]

theorem Cause.code_mem_writtenCodes {c : Cause} (hp : c ≠ .pollTimeout) (hm : c ≠ .channelMismatch) :
    c.code ∈ writtenCodes := by
  cases c with
  | pollTimeout => exact absurd rfl hp
  | channelMismatch => exact absurd rfl hm
  | _ => decide

/-- From `s` to `t`, `CAUSE` is kept, or one of those codes is written to it. -/
def CauseStep (s t : State) : Prop := t.cause = s.cause ∨ t.cause ∈ writtenCodes

theorem CauseStep.kept {s t : State} (h : t.cause = s.cause) : CauseStep s t := .inl h

theorem CauseStep.trans {s t u : State} (h : CauseStep s t) (h' : CauseStep t u) : CauseStep s u := by
  rcases h' with hkept | hwritten
  · rwa [CauseStep, hkept]
  · exact .inr hwritten

theorem enterFailure_cause (k : FailureKind) (c : Cause) (s : State) : (s.enterFailure k c).cause = c.code := by
  cases k <;> rfl

theorem enterFailure_causeStep (k : FailureKind) {c : Cause} (s : State) (hp : c ≠ .pollTimeout := by decide)
    (hm : c ≠ .channelMismatch := by decide) : CauseStep s (s.enterFailure k c) :=
  .inr (by rw [enterFailure_cause]; exact c.code_mem_writtenCodes hp hm)

theorem succeed_causeStep (s : State) : CauseStep s s.succeed := .inr (Cause.none.code_mem_writtenCodes nofun nofun)

theorem illegalCommand_causeStep (s : State) : CauseStep s s.illegalCommand :=
  .inr (Cause.illegalCommand.code_mem_writtenCodes nofun nofun)

/-! A search. -/

/-- A row that waits for an answer writes what acting on the answer writes, or TransportError, or hangs. -/
theorem onAnswer_causeStep {α : Type} (f : Adapter → Res Adapter α) (e : Option α → LinkEvent) (s : State)
    (g : α → State → State) (hg : ∀ v s1, CauseStep s1 (g v s1)) : CauseStep s (onAnswer (linkRequest f e s) g) := by
  rcases onAnswer_cases f e s g with ⟨v, a, -, hr⟩ | ⟨a, -, hr⟩ | ⟨a, -, hr⟩ <;> rw [hr]
  · exact .trans (.kept (s.afterLink_cause a _)) (hg v _)
  · exact .trans (.kept (s.afterLink_cause a _)) (enterFailure_causeStep ..)
  · exact .kept rfl

theorem takeBusReset_causeStep (r : BusResetResult) (s : State) : CauseStep s (s.takeBusReset r) := by
  cases r with
  | presenceDetected => exact .kept rfl
  | shortDetected | noPresence => exact enterFailure_causeStep ..

theorem takeStatus_causeStep (st : Byte) (s : State) : CauseStep s (s.takeStatus st) := by
  unfold State.takeStatus
  split
  · exact enterFailure_causeStep ..
  · dsimp only
    split <;> exact .kept (by simp)

theorem checkRow_causeStep (s : State) : CauseStep s (checkRow s) := by
  unfold checkRow
  split
  · exact enterFailure_causeStep ..
  · split
    · exact enterFailure_causeStep ..
    · exact succeed_causeStep s

theorem sequencerRow_causeStep (s : State) : CauseStep s (sequencerRow s) := by
  unfold sequencerRow
  cases s.phase with
  | idle => exact .kept rfl
  | sReset => exact onAnswer_causeStep _ _ s _ takeBusReset_causeStep
  | sCmd => exact onAnswer_causeStep _ _ s _ fun _ _ => .kept rfl
  | sBit => exact onAnswer_causeStep _ _ s _ takeStatus_causeStep
  | sCheck => exact checkRow_causeStep s

theorem search_causeStep (a : Bool) (s : State) : CauseStep s (search a s) := by
  refine runRows_keeps (CauseStep s) (fun u _ _ h => h.trans (sequencerRow_causeStep u)) _ _ ?_
  unfold State.enterSearch
  split
  · exact enterFailure_causeStep .soft { s with alarm := a, ld := 0 }
  · exact .kept rfl

/-! The commands. -/

theorem endCall_causeStep {α : Type} (f : α → AdapterResult) (r : Res Adapter α) (s : State) :
    CauseStep s (s.endCall f r) := by
  rw [endCall_frame]
  exact .kept rfl

theorem exec_crcCompute_causeStep {s t : State} (h : exec .crcCompute s = .next t) : CauseStep s t := by
  rcases Nat.lt_or_ge s.adapter.cfg.bufSize (s.boff.toNat + s.blen.toNat) with hout | hin
  · rw [exec_crcCompute_outside hout] at h
    cases h
    exact enterFailure_causeStep ..
  · rw [exec_crcCompute_inside hin] at h
    cases h
    exact succeed_causeStep s

/-- A host command ends in success or in a failure; a bridge or ROM command is an adapter operation, which has no
access to `CAUSE`. -/
theorem exec_causeStep {i : Instr} {s t : State} (h : exec i s = .next t) : CauseStep s t := by
  by_cases hi : spaceOf i = .host
  · cases i with
    | crcCompute => exact exec_crcCompute_causeStep h
    | crcFold | exclBegin | exclEnd => cases h; exact succeed_causeStep s
    | srchBegin => cases h; exact search_causeStep false s.beginSession
    | srchSearch a => cases h; exact search_causeStep a s
    | srchCont => cases h; exact search_causeStep false s
    | _ => cases hi
  · obtain ⟨α, f, op, -, hexec⟩ := exec_endCall i hi
    rw [hexec] at h
    cases h
    exact endCall_causeStep f _ s

/-! The requests. -/

theorem fetchHost_causeStep {b : Byte} {s t : State} (h : (fetchHost b s).outcome = .next t) : CauseStep s t := by
  unfold fetchHost at h
  split at h
  · exact exec_causeStep h
  · cases h; exact illegalCommand_causeStep s

theorem fetchBridge_causeStep {bytes : List Byte} {s t : State} (h : (fetchBridge bytes s).outcome = .next t) :
    CauseStep s t := by
  unfold fetchBridge at h
  split at h
  · exact exec_causeStep h
  · cases h
  · cases h

theorem fetchRomCmd_causeStep {b : Byte} {s t : State} (h : (fetchRomCmd b s).outcome = .next t) : CauseStep s t := by
  unfold fetchRomCmd at h
  split at h
  · exact exec_causeStep h
  · cases h

theorem hostWrite_cause (n : Byte) (v : Half) (s : State) : (s.hostWrite n v).cause = s.cause := by
  unfold State.hostWrite
  repeat' split
  all_goals rfl

theorem hostRead_cause (n : Byte) (s : State) : (s.hostRead n).cause = s.cause := by
  unfold State.hostRead
  split <;> rfl

theorem callAdapter_cause (op : AdapterCall) (s : State) : (s.callAdapter op).cause = s.cause := by
  obtain ⟨ad, hung, e, -⟩ := callAdapter_adapter op s
  rw [e]

theorem serve_causeStep {r : Request} {s t : State} (h : (serve r s).outcome = .next t) : CauseStep s t := by
  cases r with
  | regWrite n v =>
    by_cases hn : n = 0x00
    · subst hn; exact fetchHost_causeStep h
    · rw [serve, if_neg hn] at h; cases h; exact .kept (hostWrite_cause n v s)
  | regRead n => cases h; exact .kept (hostRead_cause n s)
  | bufWrite k v =>
    simp only [serve, Fetched.outcome, State.bufWrite] at h
    split at h <;> cases h
    exact .kept rfl
  | bufRead k =>
    simp only [serve, Fetched.outcome, State.bufRead] at h
    split at h <;> cases h
    exact .kept rfl
  | bridge bytes => exact fetchBridge_causeStep h
  | romCmd b => exact fetchRomCmd_causeStep h
  | call op => cases h; exact .kept (callAdapter_cause op s)
  | blockReset => cases h; exact .inr (Cause.none.code_mem_writtenCodes nofun nofun)

/-- A step that goes on serves the next request, if there is one. -/
theorem step_serves {s t : State} (h : step s = .next t) :
    t = s ∨ ∃ r rest, s.requests = r :: rest ∧ (serve r { s with requests := rest }).outcome = .next t := by
  obtain ⟨hs, -⟩ := step_cases h
  rw [step_eq_outcome] at h
  cases hr : s.requests with
  | nil => rw [fetch_nothing s hs hr] at h; cases h; exact .inl rfl
  | cons r rest => rw [fetch_request s r rest hs hr] at h; exact .inr ⟨r, rest, rfl, h⟩

/-- Settles O60, over the requests: serving one is a `CauseStep` from the state without it. -/
theorem causeCodesWritten : Obligations.CauseCodesWritten := by
  intro s t h
  rcases step_serves h with rfl | ⟨r, rest, -, hserve⟩
  · exact .inl rfl
  · exact serve_causeStep (s := { s with requests := rest }) hserve

end Sys2Proof.Machine
end

section
/-! PROOFS. A reset of the block (R230), and when a search ends or hangs (R246). -/

namespace Sys2Proof.Machine

/-! Every search ends or hangs. -/

/-- A search that did not hang has left the sequencer idle (R156). -/
theorem search_idle {s : State} (a : Bool) (hs : s.hung = false) (h : (search a s).hung = false) :
    (search a s).phase = .idle := by
  obtain ⟨hp, -⟩ := search_quietInv a hs h
  exact hp

/-- A search hangs only on an answer that never comes (R246). -/
theorem not_allCome_of_search_hung {s : State} {a : Bool} (hs : s.hung = false) (h : (search a s).hung = true) :
    ¬ AllCome s.adapter := fun hall =>
  Bool.false_ne_true ((search_returns allCome_supply s a hs hall).symm.trans h)

theorem not_allCome_iff (ad : Adapter) :
    ¬ AllCome ad ↔ .never ∈ ad.script ∨ ∃ n, ad.draws ≤ n ∧ Config.freeAnswer n = .never := by
  simp only [AllCome, not_and_or, not_not, not_forall, exists_prop]

/-- Settles O31: a search that returns is idle, and it returns on any supply of answers that all come, be they listed
or free. -/
theorem everySearchEnds : Obligations.EverySearchEnds := by
  intro s a hs
  refine ⟨search a s, rfl, ?ends, fun h => ?cause, fun hlen hcome => ?listed⟩
  case ends => exact (Bool.eq_false_or_eq_true _).imp_right (search_idle a hs)
  case cause => exact (not_allCome_iff _).1 (not_allCome_of_search_hung hs h)
  case listed =>
    have hret : (search a s).hung = false := search_returns listed_supply s a hs ⟨hlen, hcome⟩
    exact ⟨hret, search_idle a hs hret⟩

/-! A reset of the block, and a machine that is stuck. -/

/-- The bytes of a `ROM` drawn at reset are the next eight free bytes in order (R38, log 9). -/
theorem romByte_drawnRom (n : Nat) {k : Nat} (hk : k < 8) : romByte (drawnRom n) k = Config.freeByte (n + k) := by
  interval_cases k <;> rfl

theorem step_blockReset {s : State} {rest : List Request} (h : s.hung = false)
    (hr : s.requests = .blockReset :: rest) : step s = .next (State.blockReset { s with requests := rest }) :=
  step_of_serve_ended h hr rfl

/-- Settles O2: the step is `State.blockReset` at the state without the request; its `ROM` is eight draws, and no cell
of `BUF` is written. -/
theorem blockResetTouchesNoBus : Obligations.BlockResetTouchesNoBus := by
  intro s rest hs hr
  refine ⟨_, step_blockReset hs hr, rfl, fun k hk => ?rom, rfl, rfl, fun k => ?buf, rfl, rfl, rfl, rfl, rfl, rfl, rfl⟩
  case rom => exact romByte_drawnRom s.draws hk
  case buf => rfl

/-- Settles O12: a hung machine fetches the fault and no request. -/
theorem hungMachineIsStuck : Obligations.HungMachineIsStuck := fun s h => step_ended s _ (fetch_hung s h)

end Sys2Proof.Machine
end
